-- ==== Sys2Proof/Word.lean ====
section
/-! DEFINITION. The word types of LAWC.

LAWC moves 32-bit command, operand and response words (R11, R49, R53) and 8-bit memory bytes (R35, R36).
Only these are bit vectors; every width, count, index and stream position is a mathematical integer (R12). -/

namespace Sys2Proof

/-- A 32-bit command, operand, sample or response word (R9, R49, R53). -/
abbrev Word := BitVec 32

/-- A byte of IN or OUT (R35, R36). -/
abbrev Byte := BitVec 8

end Sys2Proof
end

