-- ==== Sys2Proof/Config.lean ====
section
/-! DEFINITION. What is fixed for one LAWC, and the values the spec leaves free.

* The fixed parameters of R9 and R10.
* The two OPEN parameters of R11 (`Params`): `State` carries them, so every statement holds for every choice of them;
  `defaultParams` is the choice `State.reset` makes (notes/assumptions/1.md).
* The free values: constants WITHOUT a body, applied to a counter of `State` or to an address, so that no proof can rest on
  what they are (spec file 93, "any value"; notes/assumptions/2.md to 5.md and 10.md). -/

namespace Sys2Proof.Config

/-- MAX_WIDTH = 32 (R9). -/
abbrev maxWidth : Nat := 32

/-- BUF_LIMIT = 64: the number of pending values at which ENC_WRITE flushes (R10, R74). -/
abbrev bufLimit : Nat := 64

/-- FLUSH_CHUNK = 32: how many of the oldest values a partial flush commits (R10, R74). -/
abbrev flushChunk : Nat := 32

/-- MAX_RUN_PREFIX = 31: the longest legal prefix of a zero-run code (R10, R90). -/
abbrev maxRunPrefix : Nat := 31

/-- The header's escape value: the 5-bit field 31 is followed by one extra bit (R10, R56). -/
abbrev headerEscape : Nat := 31

/-- The parameters the source leaves open (R11). They are fixed when the block is built (R117): no command, host write or
reset changes them. -/
structure Params where
  /-- `IN_SIZE`: the size in bytes of the input memory IN. -/
  inSize : Nat
  /-- `OUT_CAP`: the capacity in bytes of the output memory OUT; `none` is "unbounded". -/
  outCap : Option Nat
deriving DecidableEq, Repr

/-- DESIGN CHOICE (unsafe; notes/assumptions/1.md): the parameters of the machine `State.reset` names. IN holds every address
that a 32-bit operand can name, and OUT is unbounded, as in the programs of spec file 95. Statements quantify over
`Params`, and never use this value. -/
def defaultParams : Params where
  inSize := 2 ^ 32
  outCap := none

/-- Free: what a byte of IN reads as that the host has not written (R35 gives no power-on contents). It depends on the
address alone, because two reads with no host write between them agree (R35). -/
opaque inPowerOn : Nat → Byte

/-- Free: what the host reads at an address of OUT that holds no byte of a finished stream (R36). It is applied to the counter of
free values and to the address, so that no two reads need agree. -/
opaque freeOutByte : Nat → Nat → Byte

/-- Free: POS after a decoder failure (R31, R103). -/
opaque freePos : Nat → Nat

/-- Free: RDATA of DEC_NEXT_CODE where `BASE + ceil(POS/8)` does not fit 32 bits (R53 and R94 state no value there). -/
opaque freeNextCode : Nat → Word

/-- Free: BUF after a fault in the middle of an encoder operation (R102). -/
opaque freeBuf : Nat → List Word

/-- Free: MRW after a fault in the middle of an encoder operation (R102). -/
opaque freeMrw : Nat → Nat

/-- Free: STARTED after a fault in the middle of an encoder operation (R102). -/
opaque freeStarted : Nat → Bool

/-- Free: FLUSHED after a fault in the middle of an encoder operation (R102). -/
opaque freeFlushed : Nat → Bool

/-- Free: NZ after a fault in the middle of an encoder operation (R102). -/
opaque freeNz : Nat → Word

/-- Free: EBITS after a fault in the middle of an encoder operation (R102). -/
opaque freeEbits : Nat → List Bool

/-- Free: OUT_LEN after a fault in the middle of an encoder operation (R102). -/
opaque freeOutLen : Nat → Nat

end Sys2Proof.Config
end

