-- ==== Sys2Proof/Syntax.lean ====
section
/-! DEFINITION. The instructions of LAWC: one constructor of `Instr` for each row of spec/opcode_table.json.

The eight commands (format CMD, R51) are what the host issues.
The 102 wire symbols (format WIRE, R55 to R59) are "the decoder's opcodes" (spec file 00, section 6 item 3): the decoder takes them one after
another off the bit stream while it runs DEC_INIT and DEC_READ.
`Symbol` is the same 102 symbols with the row's number as an argument, so that their bits and their effect are said once. -/

namespace Sys2Proof

/-- One instruction: a command of R51 or a wire symbol of R56 to R59. -/
inductive Instr where
  /-- ENC_INIT (R73): start a new stream. D0 and D1 are ignored, so they are no operands. -/
  | encInit
  /-- ENC_WRITE (R74): D0 is the sample `v`; D1 is ignored. -/
  | encWrite (v : Word)
  /-- ENC_FLUSH (R82): close the stream. -/
  | encFlush
  /-- ENC_CODE (R83): the finished stream's length. -/
  | encCode
  /-- DEC_INIT (R86): D0 is BASE `b`, D1 is LEN `l`. -/
  | decInit (b : Word) (l : Word)
  /-- DEC_READ (R87): decode one sample. -/
  | decRead
  /-- DEC_NEXT_CODE (R94): the address after the last consumed byte. -/
  | decNextCode
  /-- STATUS (R99): the STATUS word. -/
  | status
  /-- HDR_5 (R56): the 5-bit header field `h`, 0..30 (31 is the escape; see WellFormed). -/
  | hdr5 (h : BitVec 5)
  /-- HDR_31 (R56): `111110`, header width 31. -/
  | hdr31
  /-- HDR_32 (R56): `111111`, header width 32. -/
  | hdr32
  /-- TR_SAME (R57): `0`, next width = current width. -/
  | trSame
  /-- TR_UP (R57): `11`, next width = current width + 1. -/
  | trUp
  /-- TR_DOWN (R57): `10`, next width = current width - 1. -/
  | trDown
  /-- ZR_0 (R58): `1`, run length 1. -/
  | zr0
  /-- ZR_1 (R58): 1 zeros, a one, then the 1-bit field `x`; run length 2^1 + x. -/
  | zr1 (x : BitVec 1)
  /-- ZR_2 (R58): 2 zeros, a one, then the 2-bit field `x`; run length 2^2 + x. -/
  | zr2 (x : BitVec 2)
  /-- ZR_3 (R58): 3 zeros, a one, then the 3-bit field `x`; run length 2^3 + x. -/
  | zr3 (x : BitVec 3)
  /-- ZR_4 (R58): 4 zeros, a one, then the 4-bit field `x`; run length 2^4 + x. -/
  | zr4 (x : BitVec 4)
  /-- ZR_5 (R58): 5 zeros, a one, then the 5-bit field `x`; run length 2^5 + x. -/
  | zr5 (x : BitVec 5)
  /-- ZR_6 (R58): 6 zeros, a one, then the 6-bit field `x`; run length 2^6 + x. -/
  | zr6 (x : BitVec 6)
  /-- ZR_7 (R58): 7 zeros, a one, then the 7-bit field `x`; run length 2^7 + x. -/
  | zr7 (x : BitVec 7)
  /-- ZR_8 (R58): 8 zeros, a one, then the 8-bit field `x`; run length 2^8 + x. -/
  | zr8 (x : BitVec 8)
  /-- ZR_9 (R58): 9 zeros, a one, then the 9-bit field `x`; run length 2^9 + x. -/
  | zr9 (x : BitVec 9)
  /-- ZR_10 (R58): 10 zeros, a one, then the 10-bit field `x`; run length 2^10 + x. -/
  | zr10 (x : BitVec 10)
  /-- ZR_11 (R58): 11 zeros, a one, then the 11-bit field `x`; run length 2^11 + x. -/
  | zr11 (x : BitVec 11)
  /-- ZR_12 (R58): 12 zeros, a one, then the 12-bit field `x`; run length 2^12 + x. -/
  | zr12 (x : BitVec 12)
  /-- ZR_13 (R58): 13 zeros, a one, then the 13-bit field `x`; run length 2^13 + x. -/
  | zr13 (x : BitVec 13)
  /-- ZR_14 (R58): 14 zeros, a one, then the 14-bit field `x`; run length 2^14 + x. -/
  | zr14 (x : BitVec 14)
  /-- ZR_15 (R58): 15 zeros, a one, then the 15-bit field `x`; run length 2^15 + x. -/
  | zr15 (x : BitVec 15)
  /-- ZR_16 (R58): 16 zeros, a one, then the 16-bit field `x`; run length 2^16 + x. -/
  | zr16 (x : BitVec 16)
  /-- ZR_17 (R58): 17 zeros, a one, then the 17-bit field `x`; run length 2^17 + x. -/
  | zr17 (x : BitVec 17)
  /-- ZR_18 (R58): 18 zeros, a one, then the 18-bit field `x`; run length 2^18 + x. -/
  | zr18 (x : BitVec 18)
  /-- ZR_19 (R58): 19 zeros, a one, then the 19-bit field `x`; run length 2^19 + x. -/
  | zr19 (x : BitVec 19)
  /-- ZR_20 (R58): 20 zeros, a one, then the 20-bit field `x`; run length 2^20 + x. -/
  | zr20 (x : BitVec 20)
  /-- ZR_21 (R58): 21 zeros, a one, then the 21-bit field `x`; run length 2^21 + x. -/
  | zr21 (x : BitVec 21)
  /-- ZR_22 (R58): 22 zeros, a one, then the 22-bit field `x`; run length 2^22 + x. -/
  | zr22 (x : BitVec 22)
  /-- ZR_23 (R58): 23 zeros, a one, then the 23-bit field `x`; run length 2^23 + x. -/
  | zr23 (x : BitVec 23)
  /-- ZR_24 (R58): 24 zeros, a one, then the 24-bit field `x`; run length 2^24 + x. -/
  | zr24 (x : BitVec 24)
  /-- ZR_25 (R58): 25 zeros, a one, then the 25-bit field `x`; run length 2^25 + x. -/
  | zr25 (x : BitVec 25)
  /-- ZR_26 (R58): 26 zeros, a one, then the 26-bit field `x`; run length 2^26 + x. -/
  | zr26 (x : BitVec 26)
  /-- ZR_27 (R58): 27 zeros, a one, then the 27-bit field `x`; run length 2^27 + x. -/
  | zr27 (x : BitVec 27)
  /-- ZR_28 (R58): 28 zeros, a one, then the 28-bit field `x`; run length 2^28 + x. -/
  | zr28 (x : BitVec 28)
  /-- ZR_29 (R58): 29 zeros, a one, then the 29-bit field `x`; run length 2^29 + x. -/
  | zr29 (x : BitVec 29)
  /-- ZR_30 (R58): 30 zeros, a one, then the 30-bit field `x`; run length 2^30 + x. -/
  | zr30 (x : BitVec 30)
  /-- ZR_31 (R58): 31 zeros, a one, then the 31-bit field `x`; run length 2^31 + x. -/
  | zr31 (x : BitVec 31)
  /-- VAL_FULL_1 (R59): the 1-bit field `v` of a sample of width 1. -/
  | valFull1 (v : BitVec 1)
  /-- VAL_FULL_2 (R59): the 2-bit field `v` of a sample of width 2. -/
  | valFull2 (v : BitVec 2)
  /-- VAL_FULL_3 (R59): the 3-bit field `v` of a sample of width 3. -/
  | valFull3 (v : BitVec 3)
  /-- VAL_FULL_4 (R59): the 4-bit field `v` of a sample of width 4. -/
  | valFull4 (v : BitVec 4)
  /-- VAL_FULL_5 (R59): the 5-bit field `v` of a sample of width 5. -/
  | valFull5 (v : BitVec 5)
  /-- VAL_FULL_6 (R59): the 6-bit field `v` of a sample of width 6. -/
  | valFull6 (v : BitVec 6)
  /-- VAL_FULL_7 (R59): the 7-bit field `v` of a sample of width 7. -/
  | valFull7 (v : BitVec 7)
  /-- VAL_FULL_8 (R59): the 8-bit field `v` of a sample of width 8. -/
  | valFull8 (v : BitVec 8)
  /-- VAL_FULL_9 (R59): the 9-bit field `v` of a sample of width 9. -/
  | valFull9 (v : BitVec 9)
  /-- VAL_FULL_10 (R59): the 10-bit field `v` of a sample of width 10. -/
  | valFull10 (v : BitVec 10)
  /-- VAL_FULL_11 (R59): the 11-bit field `v` of a sample of width 11. -/
  | valFull11 (v : BitVec 11)
  /-- VAL_FULL_12 (R59): the 12-bit field `v` of a sample of width 12. -/
  | valFull12 (v : BitVec 12)
  /-- VAL_FULL_13 (R59): the 13-bit field `v` of a sample of width 13. -/
  | valFull13 (v : BitVec 13)
  /-- VAL_FULL_14 (R59): the 14-bit field `v` of a sample of width 14. -/
  | valFull14 (v : BitVec 14)
  /-- VAL_FULL_15 (R59): the 15-bit field `v` of a sample of width 15. -/
  | valFull15 (v : BitVec 15)
  /-- VAL_FULL_16 (R59): the 16-bit field `v` of a sample of width 16. -/
  | valFull16 (v : BitVec 16)
  /-- VAL_FULL_17 (R59): the 17-bit field `v` of a sample of width 17. -/
  | valFull17 (v : BitVec 17)
  /-- VAL_FULL_18 (R59): the 18-bit field `v` of a sample of width 18. -/
  | valFull18 (v : BitVec 18)
  /-- VAL_FULL_19 (R59): the 19-bit field `v` of a sample of width 19. -/
  | valFull19 (v : BitVec 19)
  /-- VAL_FULL_20 (R59): the 20-bit field `v` of a sample of width 20. -/
  | valFull20 (v : BitVec 20)
  /-- VAL_FULL_21 (R59): the 21-bit field `v` of a sample of width 21. -/
  | valFull21 (v : BitVec 21)
  /-- VAL_FULL_22 (R59): the 22-bit field `v` of a sample of width 22. -/
  | valFull22 (v : BitVec 22)
  /-- VAL_FULL_23 (R59): the 23-bit field `v` of a sample of width 23. -/
  | valFull23 (v : BitVec 23)
  /-- VAL_FULL_24 (R59): the 24-bit field `v` of a sample of width 24. -/
  | valFull24 (v : BitVec 24)
  /-- VAL_FULL_25 (R59): the 25-bit field `v` of a sample of width 25. -/
  | valFull25 (v : BitVec 25)
  /-- VAL_FULL_26 (R59): the 26-bit field `v` of a sample of width 26. -/
  | valFull26 (v : BitVec 26)
  /-- VAL_FULL_27 (R59): the 27-bit field `v` of a sample of width 27. -/
  | valFull27 (v : BitVec 27)
  /-- VAL_FULL_28 (R59): the 28-bit field `v` of a sample of width 28. -/
  | valFull28 (v : BitVec 28)
  /-- VAL_FULL_29 (R59): the 29-bit field `v` of a sample of width 29. -/
  | valFull29 (v : BitVec 29)
  /-- VAL_FULL_30 (R59): the 30-bit field `v` of a sample of width 30. -/
  | valFull30 (v : BitVec 30)
  /-- VAL_FULL_31 (R59): the 31-bit field `v` of a sample of width 31. -/
  | valFull31 (v : BitVec 31)
  /-- VAL_FULL_32 (R59): the 32-bit field `v` of a sample of width 32. -/
  | valFull32 (v : BitVec 32)
  /-- VAL_ELIDED_1 (R59): the empty field of a sample of width 1; the value is 1. -/
  | valElided1
  /-- VAL_ELIDED_2 (R59): the 1-bit field `v` of a sample of width 2; bit 1 is an implied 1. -/
  | valElided2 (v : BitVec 1)
  /-- VAL_ELIDED_3 (R59): the 2-bit field `v` of a sample of width 3; bit 2 is an implied 1. -/
  | valElided3 (v : BitVec 2)
  /-- VAL_ELIDED_4 (R59): the 3-bit field `v` of a sample of width 4; bit 3 is an implied 1. -/
  | valElided4 (v : BitVec 3)
  /-- VAL_ELIDED_5 (R59): the 4-bit field `v` of a sample of width 5; bit 4 is an implied 1. -/
  | valElided5 (v : BitVec 4)
  /-- VAL_ELIDED_6 (R59): the 5-bit field `v` of a sample of width 6; bit 5 is an implied 1. -/
  | valElided6 (v : BitVec 5)
  /-- VAL_ELIDED_7 (R59): the 6-bit field `v` of a sample of width 7; bit 6 is an implied 1. -/
  | valElided7 (v : BitVec 6)
  /-- VAL_ELIDED_8 (R59): the 7-bit field `v` of a sample of width 8; bit 7 is an implied 1. -/
  | valElided8 (v : BitVec 7)
  /-- VAL_ELIDED_9 (R59): the 8-bit field `v` of a sample of width 9; bit 8 is an implied 1. -/
  | valElided9 (v : BitVec 8)
  /-- VAL_ELIDED_10 (R59): the 9-bit field `v` of a sample of width 10; bit 9 is an implied 1. -/
  | valElided10 (v : BitVec 9)
  /-- VAL_ELIDED_11 (R59): the 10-bit field `v` of a sample of width 11; bit 10 is an implied 1. -/
  | valElided11 (v : BitVec 10)
  /-- VAL_ELIDED_12 (R59): the 11-bit field `v` of a sample of width 12; bit 11 is an implied 1. -/
  | valElided12 (v : BitVec 11)
  /-- VAL_ELIDED_13 (R59): the 12-bit field `v` of a sample of width 13; bit 12 is an implied 1. -/
  | valElided13 (v : BitVec 12)
  /-- VAL_ELIDED_14 (R59): the 13-bit field `v` of a sample of width 14; bit 13 is an implied 1. -/
  | valElided14 (v : BitVec 13)
  /-- VAL_ELIDED_15 (R59): the 14-bit field `v` of a sample of width 15; bit 14 is an implied 1. -/
  | valElided15 (v : BitVec 14)
  /-- VAL_ELIDED_16 (R59): the 15-bit field `v` of a sample of width 16; bit 15 is an implied 1. -/
  | valElided16 (v : BitVec 15)
  /-- VAL_ELIDED_17 (R59): the 16-bit field `v` of a sample of width 17; bit 16 is an implied 1. -/
  | valElided17 (v : BitVec 16)
  /-- VAL_ELIDED_18 (R59): the 17-bit field `v` of a sample of width 18; bit 17 is an implied 1. -/
  | valElided18 (v : BitVec 17)
  /-- VAL_ELIDED_19 (R59): the 18-bit field `v` of a sample of width 19; bit 18 is an implied 1. -/
  | valElided19 (v : BitVec 18)
  /-- VAL_ELIDED_20 (R59): the 19-bit field `v` of a sample of width 20; bit 19 is an implied 1. -/
  | valElided20 (v : BitVec 19)
  /-- VAL_ELIDED_21 (R59): the 20-bit field `v` of a sample of width 21; bit 20 is an implied 1. -/
  | valElided21 (v : BitVec 20)
  /-- VAL_ELIDED_22 (R59): the 21-bit field `v` of a sample of width 22; bit 21 is an implied 1. -/
  | valElided22 (v : BitVec 21)
  /-- VAL_ELIDED_23 (R59): the 22-bit field `v` of a sample of width 23; bit 22 is an implied 1. -/
  | valElided23 (v : BitVec 22)
  /-- VAL_ELIDED_24 (R59): the 23-bit field `v` of a sample of width 24; bit 23 is an implied 1. -/
  | valElided24 (v : BitVec 23)
  /-- VAL_ELIDED_25 (R59): the 24-bit field `v` of a sample of width 25; bit 24 is an implied 1. -/
  | valElided25 (v : BitVec 24)
  /-- VAL_ELIDED_26 (R59): the 25-bit field `v` of a sample of width 26; bit 25 is an implied 1. -/
  | valElided26 (v : BitVec 25)
  /-- VAL_ELIDED_27 (R59): the 26-bit field `v` of a sample of width 27; bit 26 is an implied 1. -/
  | valElided27 (v : BitVec 26)
  /-- VAL_ELIDED_28 (R59): the 27-bit field `v` of a sample of width 28; bit 27 is an implied 1. -/
  | valElided28 (v : BitVec 27)
  /-- VAL_ELIDED_29 (R59): the 28-bit field `v` of a sample of width 29; bit 28 is an implied 1. -/
  | valElided29 (v : BitVec 28)
  /-- VAL_ELIDED_30 (R59): the 29-bit field `v` of a sample of width 30; bit 29 is an implied 1. -/
  | valElided30 (v : BitVec 29)
  /-- VAL_ELIDED_31 (R59): the 30-bit field `v` of a sample of width 31; bit 30 is an implied 1. -/
  | valElided31 (v : BitVec 30)
  /-- VAL_ELIDED_32 (R59): the 31-bit field `v` of a sample of width 32; bit 31 is an implied 1. -/
  | valElided32 (v : BitVec 31)
deriving DecidableEq, Repr

/-- The wire symbols by shape: `zr k x` is row ZR_k, `valFull c v` row VAL_FULL_c and `valElided c v` row VAL_ELIDED_c. -/
inductive Symbol where
  /-- HDR_5: the header field `h` (R56). -/
  | hdr5 (h : Nat)
  /-- HDR_31: the escape and the extra bit 0 (R56). -/
  | hdr31
  /-- HDR_32: the escape and the extra bit 1 (R56). -/
  | hdr32
  /-- TR_SAME (R57). -/
  | trSame
  /-- TR_UP (R57). -/
  | trUp
  /-- TR_DOWN (R57). -/
  | trDown
  /-- ZR_k with suffix field `x` (R58). -/
  | zr (k x : Nat)
  /-- VAL_FULL_c with field `v` (R59). -/
  | valFull (c v : Nat)
  /-- VAL_ELIDED_c with field `v` of c-1 bits (R59). -/
  | valElided (c v : Nat)
deriving DecidableEq, Repr

/-- Why a command word is no instruction (R52). -/
inductive CommandReject where
  /-- `CMD[31:4] != 0`. -/
  | reservedBits
  /-- OP is 0x0, 0x5, 0x6, 0x7, 0xB, 0xC, 0xD or 0xE. -/
  | reservedOp (op : Nat)
deriving DecidableEq, Repr

/-- Why the bits at the cursor are no wire symbol (R61). -/
inductive WireReject where
  /-- The bits end inside the symbol (R61 item 3). -/
  | truncated
  /-- A run prefix of 32 zeros (R61 item 2). -/
  | runPrefix
  /-- No symbol stands at this point: a sample of width 0 has no value field, and no width exceeds 32 (R59, R60). -/
  | noSymbol
deriving DecidableEq, Repr

/-- Where in a stream the decoder stands when it takes its next symbol off it (R60). -/
inductive Context where
  /-- At the start of a stream: the header is next. -/
  | header
  /-- Before a sample of width > 0: a transition code is next. -/
  | trans
  /-- Before a sample of width 0 outside a run: a zero-run code is next. -/
  | run
  /-- After the width symbol of a sample of width `c`, with previous width `p` and next width `n`: its value field is next. -/
  | value (p c n : Nat)
deriving DecidableEq, Repr

/-- What an instruction is written as: the three words of a command (R49) or the stream bits of a symbol (R55). -/
inductive Code where
  /-- The command words CMD, D0, D1. -/
  | command (cmd d0 d1 : Word)
  /-- Stream bits, first bit first (R13). -/
  | wire (bits : List Bool)
deriving DecidableEq, Repr

end Sys2Proof
end

