-- ==== Sys2Proof/WellFormed.lean ====
section
/-! DEFINITION. Which instructions are well formed.

The operand types hold every other limit of the opcode table (a 32-bit operand word, a k-bit suffix, a c-bit field), so one
check is left: the 5-bit header field 31 is the escape of HDR_31 and HDR_32, not a header width of HDR_5 (R56). -/

namespace Sys2Proof

/-- HDR_5 holds a width 0..30 (R56); every other instruction is well formed with every operand. -/
def Instr.wf : Instr → Bool
  | .hdr5 h => h.toNat ≠ Config.headerEscape
  | _ => true

/-- The symbols that some row of the opcode table stands for, each field within its bits (R56 to R59). -/
def Symbol.wf : Symbol → Bool
  | .hdr5 h => h < Config.headerEscape
  | .hdr31 => true
  | .hdr32 => true
  | .trSame => true
  | .trUp => true
  | .trDown => true
  | .zr k x => k ≤ Config.maxRunPrefix && x < 2 ^ k
  | .valFull c v => 1 ≤ c && c ≤ Config.maxWidth && v < 2 ^ c
  | .valElided c v => 1 ≤ c && c ≤ Config.maxWidth && v < 2 ^ (c - 1)

end Sys2Proof
end

