-- ==== Sys2Proof/Decode.lean ====
section
/-! DEFINITION. Decoding and encoding.

Two decoders, because LAWC has two encodings (spec file 30):
* `decodeCommand` reads the three words of a command (R49 to R52);
* `decodeWire` reads the next wire symbol off stream bits. It needs the decoder's `Context`, because a symbol's length and its
  row follow from the decoder's state and the bits read so far (R60).
Both are total and reject by name. `encode` is written from the same tables. -/

namespace Sys2Proof

/-! ## Fields of the stream (R13, R39) -/

/-- The c-bit field of value v, LSB first: v[0], v[1], ..., v[c-1] (R39). -/
def fieldBits : Nat → Nat → List Bool
  | 0, _ => []
  | c + 1, v => (v % 2 == 1) :: fieldBits c (v / 2)

/-- The value of a field whose bits stand LSB first (R39). -/
def fieldVal : List Bool → Nat
  | [] => 0
  | b :: bs => b.toNat + 2 * fieldVal bs

/-! ## Instructions and symbols -/

/-- The wire symbol of an instruction; none for a command. -/
def Instr.symbol? : Instr → Option Symbol
  | .encInit => none
  | .encWrite _ => none
  | .encFlush => none
  | .encCode => none
  | .decInit _ _ => none
  | .decRead => none
  | .decNextCode => none
  | .status => none
  | .hdr5 h => some (.hdr5 h.toNat)
  | .hdr31 => some (.hdr31)
  | .hdr32 => some (.hdr32)
  | .trSame => some (.trSame)
  | .trUp => some (.trUp)
  | .trDown => some (.trDown)
  | .zr0 => some (.zr 0 0)
  | .zr1 x => some (.zr 1 x.toNat)
  | .zr2 x => some (.zr 2 x.toNat)
  | .zr3 x => some (.zr 3 x.toNat)
  | .zr4 x => some (.zr 4 x.toNat)
  | .zr5 x => some (.zr 5 x.toNat)
  | .zr6 x => some (.zr 6 x.toNat)
  | .zr7 x => some (.zr 7 x.toNat)
  | .zr8 x => some (.zr 8 x.toNat)
  | .zr9 x => some (.zr 9 x.toNat)
  | .zr10 x => some (.zr 10 x.toNat)
  | .zr11 x => some (.zr 11 x.toNat)
  | .zr12 x => some (.zr 12 x.toNat)
  | .zr13 x => some (.zr 13 x.toNat)
  | .zr14 x => some (.zr 14 x.toNat)
  | .zr15 x => some (.zr 15 x.toNat)
  | .zr16 x => some (.zr 16 x.toNat)
  | .zr17 x => some (.zr 17 x.toNat)
  | .zr18 x => some (.zr 18 x.toNat)
  | .zr19 x => some (.zr 19 x.toNat)
  | .zr20 x => some (.zr 20 x.toNat)
  | .zr21 x => some (.zr 21 x.toNat)
  | .zr22 x => some (.zr 22 x.toNat)
  | .zr23 x => some (.zr 23 x.toNat)
  | .zr24 x => some (.zr 24 x.toNat)
  | .zr25 x => some (.zr 25 x.toNat)
  | .zr26 x => some (.zr 26 x.toNat)
  | .zr27 x => some (.zr 27 x.toNat)
  | .zr28 x => some (.zr 28 x.toNat)
  | .zr29 x => some (.zr 29 x.toNat)
  | .zr30 x => some (.zr 30 x.toNat)
  | .zr31 x => some (.zr 31 x.toNat)
  | .valFull1 v => some (.valFull 1 v.toNat)
  | .valFull2 v => some (.valFull 2 v.toNat)
  | .valFull3 v => some (.valFull 3 v.toNat)
  | .valFull4 v => some (.valFull 4 v.toNat)
  | .valFull5 v => some (.valFull 5 v.toNat)
  | .valFull6 v => some (.valFull 6 v.toNat)
  | .valFull7 v => some (.valFull 7 v.toNat)
  | .valFull8 v => some (.valFull 8 v.toNat)
  | .valFull9 v => some (.valFull 9 v.toNat)
  | .valFull10 v => some (.valFull 10 v.toNat)
  | .valFull11 v => some (.valFull 11 v.toNat)
  | .valFull12 v => some (.valFull 12 v.toNat)
  | .valFull13 v => some (.valFull 13 v.toNat)
  | .valFull14 v => some (.valFull 14 v.toNat)
  | .valFull15 v => some (.valFull 15 v.toNat)
  | .valFull16 v => some (.valFull 16 v.toNat)
  | .valFull17 v => some (.valFull 17 v.toNat)
  | .valFull18 v => some (.valFull 18 v.toNat)
  | .valFull19 v => some (.valFull 19 v.toNat)
  | .valFull20 v => some (.valFull 20 v.toNat)
  | .valFull21 v => some (.valFull 21 v.toNat)
  | .valFull22 v => some (.valFull 22 v.toNat)
  | .valFull23 v => some (.valFull 23 v.toNat)
  | .valFull24 v => some (.valFull 24 v.toNat)
  | .valFull25 v => some (.valFull 25 v.toNat)
  | .valFull26 v => some (.valFull 26 v.toNat)
  | .valFull27 v => some (.valFull 27 v.toNat)
  | .valFull28 v => some (.valFull 28 v.toNat)
  | .valFull29 v => some (.valFull 29 v.toNat)
  | .valFull30 v => some (.valFull 30 v.toNat)
  | .valFull31 v => some (.valFull 31 v.toNat)
  | .valFull32 v => some (.valFull 32 v.toNat)
  | .valElided1 => some (.valElided 1 0)
  | .valElided2 v => some (.valElided 2 v.toNat)
  | .valElided3 v => some (.valElided 3 v.toNat)
  | .valElided4 v => some (.valElided 4 v.toNat)
  | .valElided5 v => some (.valElided 5 v.toNat)
  | .valElided6 v => some (.valElided 6 v.toNat)
  | .valElided7 v => some (.valElided 7 v.toNat)
  | .valElided8 v => some (.valElided 8 v.toNat)
  | .valElided9 v => some (.valElided 9 v.toNat)
  | .valElided10 v => some (.valElided 10 v.toNat)
  | .valElided11 v => some (.valElided 11 v.toNat)
  | .valElided12 v => some (.valElided 12 v.toNat)
  | .valElided13 v => some (.valElided 13 v.toNat)
  | .valElided14 v => some (.valElided 14 v.toNat)
  | .valElided15 v => some (.valElided 15 v.toNat)
  | .valElided16 v => some (.valElided 16 v.toNat)
  | .valElided17 v => some (.valElided 17 v.toNat)
  | .valElided18 v => some (.valElided 18 v.toNat)
  | .valElided19 v => some (.valElided 19 v.toNat)
  | .valElided20 v => some (.valElided 20 v.toNat)
  | .valElided21 v => some (.valElided 21 v.toNat)
  | .valElided22 v => some (.valElided 22 v.toNat)
  | .valElided23 v => some (.valElided 23 v.toNat)
  | .valElided24 v => some (.valElided 24 v.toNat)
  | .valElided25 v => some (.valElided 25 v.toNat)
  | .valElided26 v => some (.valElided 26 v.toNat)
  | .valElided27 v => some (.valElided 27 v.toNat)
  | .valElided28 v => some (.valElided 28 v.toNat)
  | .valElided29 v => some (.valElided 29 v.toNat)
  | .valElided30 v => some (.valElided 30 v.toNat)
  | .valElided31 v => some (.valElided 31 v.toNat)
  | .valElided32 v => some (.valElided 32 v.toNat)

/-- Row ZR_k with the suffix x, for k = 0..31 (R58). -/
def Symbol.zrInstr? : Nat → Nat → Option Instr
  | 0, _ => some .zr0
  | 1, x => some (.zr1 (BitVec.ofNat 1 x))
  | 2, x => some (.zr2 (BitVec.ofNat 2 x))
  | 3, x => some (.zr3 (BitVec.ofNat 3 x))
  | 4, x => some (.zr4 (BitVec.ofNat 4 x))
  | 5, x => some (.zr5 (BitVec.ofNat 5 x))
  | 6, x => some (.zr6 (BitVec.ofNat 6 x))
  | 7, x => some (.zr7 (BitVec.ofNat 7 x))
  | 8, x => some (.zr8 (BitVec.ofNat 8 x))
  | 9, x => some (.zr9 (BitVec.ofNat 9 x))
  | 10, x => some (.zr10 (BitVec.ofNat 10 x))
  | 11, x => some (.zr11 (BitVec.ofNat 11 x))
  | 12, x => some (.zr12 (BitVec.ofNat 12 x))
  | 13, x => some (.zr13 (BitVec.ofNat 13 x))
  | 14, x => some (.zr14 (BitVec.ofNat 14 x))
  | 15, x => some (.zr15 (BitVec.ofNat 15 x))
  | 16, x => some (.zr16 (BitVec.ofNat 16 x))
  | 17, x => some (.zr17 (BitVec.ofNat 17 x))
  | 18, x => some (.zr18 (BitVec.ofNat 18 x))
  | 19, x => some (.zr19 (BitVec.ofNat 19 x))
  | 20, x => some (.zr20 (BitVec.ofNat 20 x))
  | 21, x => some (.zr21 (BitVec.ofNat 21 x))
  | 22, x => some (.zr22 (BitVec.ofNat 22 x))
  | 23, x => some (.zr23 (BitVec.ofNat 23 x))
  | 24, x => some (.zr24 (BitVec.ofNat 24 x))
  | 25, x => some (.zr25 (BitVec.ofNat 25 x))
  | 26, x => some (.zr26 (BitVec.ofNat 26 x))
  | 27, x => some (.zr27 (BitVec.ofNat 27 x))
  | 28, x => some (.zr28 (BitVec.ofNat 28 x))
  | 29, x => some (.zr29 (BitVec.ofNat 29 x))
  | 30, x => some (.zr30 (BitVec.ofNat 30 x))
  | 31, x => some (.zr31 (BitVec.ofNat 31 x))
  | _, _ => none

/-- Row VAL_FULL_c with the field v, for c = 1..32 (R59). -/
def Symbol.fullInstr? : Nat → Nat → Option Instr
  | 1, v => some (.valFull1 (BitVec.ofNat 1 v))
  | 2, v => some (.valFull2 (BitVec.ofNat 2 v))
  | 3, v => some (.valFull3 (BitVec.ofNat 3 v))
  | 4, v => some (.valFull4 (BitVec.ofNat 4 v))
  | 5, v => some (.valFull5 (BitVec.ofNat 5 v))
  | 6, v => some (.valFull6 (BitVec.ofNat 6 v))
  | 7, v => some (.valFull7 (BitVec.ofNat 7 v))
  | 8, v => some (.valFull8 (BitVec.ofNat 8 v))
  | 9, v => some (.valFull9 (BitVec.ofNat 9 v))
  | 10, v => some (.valFull10 (BitVec.ofNat 10 v))
  | 11, v => some (.valFull11 (BitVec.ofNat 11 v))
  | 12, v => some (.valFull12 (BitVec.ofNat 12 v))
  | 13, v => some (.valFull13 (BitVec.ofNat 13 v))
  | 14, v => some (.valFull14 (BitVec.ofNat 14 v))
  | 15, v => some (.valFull15 (BitVec.ofNat 15 v))
  | 16, v => some (.valFull16 (BitVec.ofNat 16 v))
  | 17, v => some (.valFull17 (BitVec.ofNat 17 v))
  | 18, v => some (.valFull18 (BitVec.ofNat 18 v))
  | 19, v => some (.valFull19 (BitVec.ofNat 19 v))
  | 20, v => some (.valFull20 (BitVec.ofNat 20 v))
  | 21, v => some (.valFull21 (BitVec.ofNat 21 v))
  | 22, v => some (.valFull22 (BitVec.ofNat 22 v))
  | 23, v => some (.valFull23 (BitVec.ofNat 23 v))
  | 24, v => some (.valFull24 (BitVec.ofNat 24 v))
  | 25, v => some (.valFull25 (BitVec.ofNat 25 v))
  | 26, v => some (.valFull26 (BitVec.ofNat 26 v))
  | 27, v => some (.valFull27 (BitVec.ofNat 27 v))
  | 28, v => some (.valFull28 (BitVec.ofNat 28 v))
  | 29, v => some (.valFull29 (BitVec.ofNat 29 v))
  | 30, v => some (.valFull30 (BitVec.ofNat 30 v))
  | 31, v => some (.valFull31 (BitVec.ofNat 31 v))
  | 32, v => some (.valFull32 (BitVec.ofNat 32 v))
  | _, _ => none

/-- Row VAL_ELIDED_c with the field v, for c = 1..32 (R59). -/
def Symbol.elidedInstr? : Nat → Nat → Option Instr
  | 1, _ => some .valElided1
  | 2, v => some (.valElided2 (BitVec.ofNat 1 v))
  | 3, v => some (.valElided3 (BitVec.ofNat 2 v))
  | 4, v => some (.valElided4 (BitVec.ofNat 3 v))
  | 5, v => some (.valElided5 (BitVec.ofNat 4 v))
  | 6, v => some (.valElided6 (BitVec.ofNat 5 v))
  | 7, v => some (.valElided7 (BitVec.ofNat 6 v))
  | 8, v => some (.valElided8 (BitVec.ofNat 7 v))
  | 9, v => some (.valElided9 (BitVec.ofNat 8 v))
  | 10, v => some (.valElided10 (BitVec.ofNat 9 v))
  | 11, v => some (.valElided11 (BitVec.ofNat 10 v))
  | 12, v => some (.valElided12 (BitVec.ofNat 11 v))
  | 13, v => some (.valElided13 (BitVec.ofNat 12 v))
  | 14, v => some (.valElided14 (BitVec.ofNat 13 v))
  | 15, v => some (.valElided15 (BitVec.ofNat 14 v))
  | 16, v => some (.valElided16 (BitVec.ofNat 15 v))
  | 17, v => some (.valElided17 (BitVec.ofNat 16 v))
  | 18, v => some (.valElided18 (BitVec.ofNat 17 v))
  | 19, v => some (.valElided19 (BitVec.ofNat 18 v))
  | 20, v => some (.valElided20 (BitVec.ofNat 19 v))
  | 21, v => some (.valElided21 (BitVec.ofNat 20 v))
  | 22, v => some (.valElided22 (BitVec.ofNat 21 v))
  | 23, v => some (.valElided23 (BitVec.ofNat 22 v))
  | 24, v => some (.valElided24 (BitVec.ofNat 23 v))
  | 25, v => some (.valElided25 (BitVec.ofNat 24 v))
  | 26, v => some (.valElided26 (BitVec.ofNat 25 v))
  | 27, v => some (.valElided27 (BitVec.ofNat 26 v))
  | 28, v => some (.valElided28 (BitVec.ofNat 27 v))
  | 29, v => some (.valElided29 (BitVec.ofNat 28 v))
  | 30, v => some (.valElided30 (BitVec.ofNat 29 v))
  | 31, v => some (.valElided31 (BitVec.ofNat 30 v))
  | 32, v => some (.valElided32 (BitVec.ofNat 31 v))
  | _, _ => none

/-- The opcode-table row of a symbol. -/
def Symbol.instr? : Symbol → Option Instr
  | .hdr5 h => some (.hdr5 (BitVec.ofNat 5 h))
  | .hdr31 => some .hdr31
  | .hdr32 => some .hdr32
  | .trSame => some .trSame
  | .trUp => some .trUp
  | .trDown => some .trDown
  | .zr k x => Symbol.zrInstr? k x
  | .valFull c v => Symbol.fullInstr? c v
  | .valElided c v => Symbol.elidedInstr? c v

/-! ## The command decoder -/

/-- The command that the words CMD, D0, D1 stand for (R49 to R52). `CMD[31:4]` must be zero; the operand words of every
command but ENC_WRITE and DEC_INIT are ignored (R50). -/
def decodeCommand (cmd d0 d1 : Word) : Except CommandReject Instr :=
  if cmd.toNat / 16 ≠ 0 then .error .reservedBits
  else
    match cmd.toNat % 16 with
    | 0x1 => .ok .encInit
    | 0x2 => .ok (.encWrite d0)
    | 0x3 => .ok .encFlush
    | 0x4 => .ok .encCode
    | 0x8 => .ok (.decInit d0 d1)
    | 0x9 => .ok .decRead
    | 0xA => .ok .decNextCode
    | 0xF => .ok .status
    | op => .error (.reservedOp op)

/-! ## The wire decoder -/

/-- The next c stream bits and what follows them; cut short when fewer are left (R42, R61 item 3). -/
def takeField (c : Nat) (bits : List Bool) : Except WireReject (Nat × List Bool) :=
  if bits.length < c then .error .truncated else .ok (fieldVal (bits.take c), bits.drop c)

/-- The header (R56): a 5-bit field, and one extra bit where the field is 31. -/
def decodeHeader (bits : List Bool) : Except WireReject (Symbol × List Bool) :=
  match takeField 5 bits with
  | .error r => .error r
  | .ok (h, rest) =>
    if h = Config.headerEscape then
      match rest with
      | [] => .error .truncated
      | false :: rest => .ok (.hdr31, rest)
      | true :: rest => .ok (.hdr32, rest)
    else .ok (.hdr5 h, rest)

/-- A transition code (R57): `0`, `11` or `10`. -/
def decodeTrans : List Bool → Except WireReject (Symbol × List Bool)
  | false :: rest => .ok (.trSame, rest)
  | true :: true :: rest => .ok (.trUp, rest)
  | true :: false :: rest => .ok (.trDown, rest)
  | [] => .error .truncated
  | [true] => .error .truncated

/-- A zero-run code (R58), after `k` of its prefix zeros; a 32nd zero is rejected (R61 item 2). -/
def decodeRun (k : Nat) : List Bool → Except WireReject (Symbol × List Bool)
  | [] => .error .truncated
  | true :: rest =>
    match takeField k rest with
    | .error r => .error r
    | .ok (x, rest) => .ok (.zr k x, rest)
  | false :: rest => if Config.maxRunPrefix < k + 1 then .error .runPrefix else decodeRun (k + 1) rest

/-- The value field of a sample of width c, previous width p and next width n (R59): c-1 bits where the top bit is
redundant, else c bits; none for a sample of width 0. -/
def decodeValue (p c n : Nat) (bits : List Bool) : Except WireReject (Symbol × List Bool) :=
  if c = 0 then .error .noSymbol
  else if p ≤ c ∧ n ≤ c then
    match takeField (c - 1) bits with
    | .error r => .error r
    | .ok (v, rest) => .ok (.valElided c v, rest)
  else
    match takeField c bits with
    | .error r => .error r
    | .ok (v, rest) => .ok (.valFull c v, rest)

/-- The next symbol at a point of the stream, and the bits after it (R60). -/
def decodeSymbol (ctx : Context) (bits : List Bool) : Except WireReject (Symbol × List Bool) :=
  match ctx with
  | .header => decodeHeader bits
  | .trans => decodeTrans bits
  | .run => decodeRun 0 bits
  | .value p c n => decodeValue p c n bits

/-- The instruction at a point of the stream, and the bits after it (R60). -/
def decodeWire (ctx : Context) (bits : List Bool) : Except WireReject (Instr × List Bool) :=
  match decodeSymbol ctx bits with
  | .error r => .error r
  | .ok (σ, rest) =>
    match σ.instr? with
    | none => .error .noSymbol
    | some i => .ok (i, rest)

/-- The decoder of words and of bits in one: a command stands in three words, a symbol in its stream bits at a context. -/
def decode (ctx : Context) : Code → Option Instr
  | .command cmd d0 d1 => (decodeCommand cmd d0 d1).toOption
  | .wire bits =>
    match decodeWire ctx bits with
    | .ok (i, []) => some i
    | _ => none

/-! ## The encoder of instructions -/

/-- The stream bits of a symbol, in stream order (R56 to R59). -/
def Symbol.bits : Symbol → List Bool
  | .hdr5 h => fieldBits 5 h
  | .hdr31 => fieldBits 5 31 ++ [false]
  | .hdr32 => fieldBits 5 31 ++ [true]
  | .trSame => [false]
  | .trUp => [true, true]
  | .trDown => [true, false]
  | .zr k x => List.replicate k false ++ true :: fieldBits k x
  | .valFull c v => fieldBits c v
  | .valElided c v => fieldBits (c - 1) v

/-- The words of a command: OP in CMD[3:0], CMD[31:4] zero, and omitted operands encoded as 0 (R49, R51, R54). -/
def encodeCommand? : Instr → Option (Word × Word × Word)
  | .encInit => some (0x1, 0, 0)
  | .encWrite v => some (0x2, v, 0)
  | .encFlush => some (0x3, 0, 0)
  | .encCode => some (0x4, 0, 0)
  | .decInit b l => some (0x8, b, l)
  | .decRead => some (0x9, 0, 0)
  | .decNextCode => some (0xA, 0, 0)
  | .status => some (0xF, 0, 0)
  | _ => none

/-- What an instruction is written as (R49, R55). -/
def encode (i : Instr) : Code :=
  match encodeCommand? i, i.symbol? with
  | some (c, d0, d1), _ => .command c d0 d1
  | none, some σ => .wire σ.bits
  | none, none => .wire []

/-- The points of a stream at which a symbol can stand (R56 to R60 and the "context" column of the opcode table). -/
def Symbol.fits : Context → Symbol → Bool
  | .header, .hdr5 _ => true
  | .header, .hdr31 => true
  | .header, .hdr32 => true
  | .trans, .trSame => true
  | .trans, .trUp => true
  | .trans, .trDown => true
  | .run, .zr _ _ => true
  | .value p c n, .valFull c' _ => c == c' && !(p ≤ c && n ≤ c)
  | .value p c n, .valElided c' _ => c == c' && (p ≤ c && n ≤ c)
  | _, _ => false

/-! ## The host's view of the command encoding -/

/-- The word number `j` (0 is CMD, 1 is D0, 2 is D1) of a bit string `w` of `nbits` bits; every bit above `nbits` is 0. -/
def tableWordAt (nbits w j : Nat) : Word := BitVec.ofNat 32 (w % 2 ^ nbits / 2 ^ (32 * j))

/-- The instruction the command decoder reads from the words CMD, D0, D1 numbered as the opcode table numbers them. A wire
symbol is no command (R49) and no word of its own: the bits of a symbol say which row they are only at a `Context`
(`decodeWire`; notes/assumptions/9.md). -/
def decodeTableWord (nbits w : Nat) : Option Instr :=
  (decodeCommand (tableWordAt nbits w 0) (tableWordAt nbits w 1) (tableWordAt nbits w 2)).toOption

end Sys2Proof
end

