-- ==== Sys2Proof/Machine/State.lean ====
section
/-! DEFINITION. The state of LAWC (spec file 10), as plain data.

Every piece of state the spec names has one field. Widths, counts and positions are integers (R12); INVENTORY.md names the
storage width of each, and `Sys2Proof.Inv` (Safety.lean) the range. Beside them stand the model's own fields: `Dec.phase`,
`State.cfg`, `State.host`, `State.resp`, `State.outData` and `State.free`. -/

namespace Sys2Proof.Machine

/-- A byte memory: (address, byte) pairs, addresses strictly rising (`Memory.wf`). An unlisted address has no value. -/
abbrev Memory := List Host.Cell

/-- FCAUSE, 4 bits (R18, R100). Codes 0xB to 0xF are reserved and never produced (spec file 93), so no constructor has them. -/
inductive FCause where
  | none | illegalCmd | encFlushBeforeWrite | encDoubleFlush | encWriteAfterFlush | encCodeBeforeFlush | encRunOverflow
  | encSinkFull | decEmptySpan | decSpanRange | decNotInit
deriving DecidableEq, Repr

/-- DCAUSE, 4 bits (R26, R101). `widthUnderflow` is the reserved cause 4, which nothing raises; 5 to 0xF are reserved. -/
inductive DCause where
  | none | truncated | widthOverflow | runPrefix | widthUnderflow
deriving DecidableEq, Repr

/-- DSTATE, 2 bits: UNINIT = 0, READY = 1, FAILED = 2; 3 is never taken (R25). -/
inductive DState where
  | uninit | ready | failed
deriving DecidableEq, Repr

/-- RSTAT, 2 bits: OK = 0, FAIL = 1, FAULT = 2; 3 is never produced (R53). -/
inductive RStat where
  | ok | fail | fault
deriving DecidableEq, Repr

/-- A response (R53). -/
structure Response where
  /-- RSTAT. -/
  rstat : RStat
  /-- RDATA: the command's result when OK, else 0. -/
  rdata : Word
  /-- RCAUSE: 0 when OK, DCAUSE when FAIL, FCAUSE when FAULT. -/
  rcause : BitVec 4
deriving DecidableEq, Repr

/-- The encoder unit ENC with its bit sink and the output memory OUT (R15, R19 to R24, R36). -/
structure Enc where
  /-- BUF: the pending values, oldest first, at most 64 (R19). -/
  buf : List Word
  /-- MRW: the width of the last serialised sample, 0..32 in 6 bits (R20). -/
  mrw : Nat
  /-- STARTED: the header has been written (R21). -/
  started : Bool
  /-- FLUSHED: the stream is finished (R22). -/
  flushed : Bool
  /-- NZ: the pending-zero-run count, an unsigned 32-bit counter (R23). -/
  nz : Word
  /-- EBITS: the stream bits written so far, in stream order (R24). -/
  ebits : List Bool
  /-- OUT_LEN: the finished stream's length in bytes; 0 until ENC_FLUSH (R24). -/
  outLen : Nat
  /-- OUT: the bytes the bit sink has written in this stream; an unlisted byte is unspecified (R24, R36), and a host read of it gives a
  free value (`State.readOut`). -/
  out : Memory
deriving DecidableEq, Repr

/-- The model's own: how far the decoder is inside a DEC_INIT or DEC_READ, for the meanings of the wire symbols
(notes/assumptions/8.md). Between commands it is `idle`. -/
inductive Phase where
  /-- At a sample boundary: a width symbol is next, unless a run is being counted down. -/
  | idle
  /-- DEC_INIT has opened the span and the header is next. -/
  | header
  /-- DEC_READ's width step has given the next width `n` and the countdown `z`; the value field is next (R87). -/
  | value (n : Nat) (z : Int)
deriving DecidableEq, Repr

/-- The decoder unit DEC with its bit source (R15, R25 to R31). -/
structure Dec where
  /-- DSTATE (R25). -/
  dstate : DState
  /-- DCAUSE: the cause of FAILED, else none (R26). -/
  dcause : DCause
  /-- PW: the previous width, 0..32 in 6 bits (R27). -/
  pw : Nat
  /-- CW: the width of the next value, 0..32 in 6 bits (R28). -/
  cw : Nat
  /-- ZC: the zero-run countdown, -1..2^32-3 in 33 bits (R29). -/
  zc : Int
  /-- BASE: the span's first byte address (R30). -/
  base : Word
  /-- LEN: the span's length in bytes (R30). -/
  len : Word
  /-- POS: the number of span bits consumed, 0..8*LEN (R31). -/
  pos : Nat
  /-- The model's own: the point inside a command (see `Phase`). -/
  phase : Phase
deriving DecidableEq, Repr

/-- What the host does to LAWC, in its order (R3, R36, R45, R49, R115, R125). -/
inductive HostEvent where
  /-- Issue the command CMD, D0, D1 (R49). -/
  | command (cmd d0 d1 : Word)
  /-- Write one byte of IN between commands (R35). -/
  | writeIn (a : Nat) (b : Byte)
  /-- Read one byte of OUT between commands (R36). -/
  | readOut (a : Nat)
  /-- Assert hardware reset between commands (R115). -/
  | reset
deriving DecidableEq, Repr

/-- The state of one LAWC and of the host's interface to it. -/
structure State where
  /-- FAULT: the sticky fault flag (R18). -/
  fault : Bool
  /-- FCAUSE: the cause of the fault, else none (R18, R100). -/
  fcause : FCause
  /-- The encoder unit. -/
  enc : Enc
  /-- The decoder unit. -/
  dec : Dec
  /-- IN: the bytes the host has written; an unlisted byte is one it has not written (R35). -/
  inMem : Memory
  /-- The parameters fixed when the block was built (R11, R117). -/
  cfg : Config.Params
  /-- The host's commands, IN writes, OUT reads and resets that have not taken effect yet, oldest first (R17, R45). -/
  host : List HostEvent
  /-- The response to the last command; none when no command has been answered since reset (R53). -/
  resp : Option Response
  /-- The byte the host's last read of OUT returned; none when it has read none since reset (R36). -/
  outData : Option Byte
  /-- The model's own: how many times a free value has been taken (the argument of Config's free values). -/
  free : Nat
deriving DecidableEq, Repr

/-- Why a step stops the model. -/
inductive Fault where
  /-- An access to IN at an address at or above IN_SIZE, which the address map does not hold (R35, R37): raised by a host
  write there, and by a bit read of a span that reaches past IN_SIZE, which DEC_INIT never sets up (R86). Safe. -/
  | noSuchInAddress (a : Nat)
  /-- A host read of OUT at an address at or above a finite OUT_CAP, which the address map does not hold (R36, R37). Safe. -/
  | noSuchOutAddress (a : Nat)
deriving DecidableEq, Repr

/-- Why the model gives an instruction no meaning in a state. -/
inductive Refusal where
  /-- An instruction without a meaning: raised by no arm. Safe. -/
  | notModelled (mnemonic : String)
  /-- A wire symbol at a point of the stream where it cannot stand (the "context" column of the opcode table; R57 to R60): raised by the
  wire symbols, never by a command and so never by a step. Safe. -/
  | symbolOutOfContext
  /-- An ill-formed instruction: raised by HDR_5 with the field 31, which is no HDR_5 (R56). Safe. -/
  | illFormed
deriving DecidableEq, Repr

/-- The encoder state of a new stream (R73), which is also the encoder's state after reset (R116). OUT has no specified
byte (R36). -/
def Enc.fresh : Enc where
  buf := []
  mrw := 0
  started := false
  flushed := false
  nz := 0
  ebits := []
  outLen := 0
  out := []

/-- The decoder after reset: UNINIT, DCAUSE 0 (R115). DESIGN CHOICE (unsafe; notes/assumptions/6.md): PW, CW, BASE, LEN and POS
are 0 and ZC is -1, where the spec leaves all six unspecified and says that nothing observes them. -/
def Dec.reset : Dec where
  dstate := .uninit
  dcause := .none
  pw := 0
  cw := 0
  zc := -1
  base := 0
  len := 0
  pos := 0
  phase := .idle

/-- LAWC with the parameters `p` right after reset (R115), with nothing in IN and nothing asked by the host. -/
def State.resetWith (p : Config.Params) : State where
  fault := false
  fcause := .none
  enc := .fresh
  dec := .reset
  inMem := []
  cfg := p
  host := []
  resp := none
  outData := none
  free := 0

/-- The machine right after reset (R115). The parameters are R11's open ones, at `Config.defaultParams`. -/
def State.reset : State := State.resetWith Config.defaultParams

end Sys2Proof.Machine
end

