-- ==== Sys2Proof/Machine/Ops.lean ====
section
/-! DEFINITION. The operations the meanings share: byte memories, responses, taking a fault, failing the decoder, the halt,
reset, and the host's accesses to IN and OUT. -/

namespace Sys2Proof.Machine

/-! ## Codes (R25, R53, R100, R101) -/

/-- The 4-bit code of FCAUSE (R100). -/
def FCause.code : FCause → BitVec 4
  | .none => 0x0
  | .illegalCmd => 0x1
  | .encFlushBeforeWrite => 0x2
  | .encDoubleFlush => 0x3
  | .encWriteAfterFlush => 0x4
  | .encCodeBeforeFlush => 0x5
  | .encRunOverflow => 0x6
  | .encSinkFull => 0x7
  | .decEmptySpan => 0x8
  | .decSpanRange => 0x9
  | .decNotInit => 0xA

/-- The 4-bit code of DCAUSE (R101). -/
def DCause.code : DCause → BitVec 4
  | .none => 0x0
  | .truncated => 0x1
  | .widthOverflow => 0x2
  | .runPrefix => 0x3
  | .widthUnderflow => 0x4

/-- The 2-bit code of DSTATE (R25). -/
def DState.code : DState → BitVec 2
  | .uninit => 0
  | .ready => 1
  | .failed => 2

/-- The 2-bit code of RSTAT (R53). -/
def RStat.code : RStat → BitVec 2
  | .ok => 0
  | .fail => 1
  | .fault => 2

/-! ## Byte memories -/

/-- The canonical form: addresses strictly rising. (An unlisted address has no value, so no entry can equal it.) -/
def Memory.wf : Memory → Bool
  | [] => true
  | [_] => true
  | c :: d :: rest => c.1 < d.1 && Memory.wf (d :: rest)

/-- The byte at an address, if one has been written there. -/
def Memory.read : Memory → Nat → Option Byte
  | [], _ => none
  | c :: rest, a => if c.1 = a then some c.2 else Memory.read rest a

/-- Store a byte at an address, keeping the canonical form. -/
def Memory.write : Memory → Nat → Byte → Memory
  | [], a, b => [(a, b)]
  | c :: rest, a, b =>
    if a < c.1 then (a, b) :: c :: rest
    else if a = c.1 then (a, b) :: rest
    else c :: Memory.write rest a b

/-- `ceil(n / 8)`: the number of bytes that n bits take (R12, R24). -/
def ceil8 (n : Nat) : Nat := (n + 7) / 8

/-- The byte whose bits are the given ones, bit 0 first; missing high bits are 0 (R38, R41). -/
def byteOfBits (bits : List Bool) : Byte := BitVec.ofNat 8 (fieldVal bits)

/-! ## Responses (R53, R14) -/

/-- `return d`: the command ends OK with RDATA = d. -/
def respondOk (d : Word) (s : State) : State := { s with resp := some ⟨.ok, d, 0⟩ }

/-- The response FAULT(c): RDATA = 0, RCAUSE = c (R14, R53). -/
def respondFault (c : FCause) (s : State) : State := { s with resp := some ⟨.fault, 0, c.code⟩ }

/-- The response FAIL(c): RDATA = 0, RCAUSE = c (R53, R103). -/
def respondFail (c : DCause) (s : State) : State := { s with resp := some ⟨.fail, 0, c.code⟩ }

/-! ## Faults (R102, R104) -/

/-- `raise Fault(cause)`, the one way a fault is taken (R102): FAULT and FCAUSE are set, the response says so, and nothing
else changes. Nothing is saved, and control goes back to the host as the response. -/
def raiseFault (c : FCause) (s : State) : State := respondFault c { s with fault := true, fcause := c }

/-- The encoder state after a fault in the middle of an encoder operation: every element is a free value (R102), within
its storage (BUF holds at most 64 entries, MRW 6 bits), and no byte of OUT is specified (notes/assumptions/4.md). -/
def Enc.unspecified (n : Nat) : Enc where
  buf := (Config.freeBuf n).take Config.bufLimit
  mrw := Config.freeMrw n % 64
  started := Config.freeStarted n
  flushed := Config.freeFlushed n
  nz := Config.freeNz n
  ebits := Config.freeEbits n
  outLen := Config.freeOutLen n
  out := []

/-- A mid-operation fault (ENC_RUN_OVERFLOW, ENC_SINK_FULL): the fault is taken and the encoder state is unspecified
(R102). -/
def raiseMidFault (c : FCause) (s : State) : State :=
  raiseFault c { s with enc := Enc.unspecified s.free, free := s.free + 1 }

/-- While FAULT = 1 a command changes nothing and is answered FAULT(FCAUSE) (R104). -/
def halted (s : State) : State := respondFault s.fcause s

/-- Run an instruction unless the block is halted (R98, R104). -/
def whenRunning (s : State) (body : Host.Outcome State Fault Refusal) : Host.Outcome State Fault Refusal :=
  if s.fault then .next (halted s) else body

/-- An illegal CMD word (R52, R98): the halt response while FAULT = 1, else the fault ILLEGAL_CMD. -/
def illegalCommand (s : State) : Host.Outcome State Fault Refusal :=
  whenRunning s (.next (raiseFault .illegalCmd s))

/-! ## Decoder failures (R93, R103) -/

/-- `fail(cause)` (R103): DSTATE and DCAUSE are set, POS becomes a free value, PW, CW and ZC stay, and the response says
FAIL (notes/assumptions/3.md). FAULT and the encoder do not change. -/
def failDecoder (c : DCause) (s : State) : State :=
  respondFail c { s with
    dec := { s.dec with dstate := .failed, dcause := c, pos := Config.freePos s.free, phase := .idle }
    free := s.free + 1 }

/-- A command on a FAILED decoder changes nothing and reports the stored cause (R93; notes/assumptions/20.md). -/
def failedAgain (s : State) : State := respondFail s.dec.dcause s

/-- Run a decoder command that needs a span, by DSTATE (R87, R94, R105): DEC_NOT_INIT in UNINIT, the sticky failure in FAILED. -/
def whenReady (s : State) (body : Host.Outcome State Fault Refusal) : Host.Outcome State Fault Refusal :=
  match s.dec.dstate with
  | .uninit => .next (raiseFault .decNotInit s)
  | .failed => .next (failedAgain s)
  | .ready => body

/-! ## Reset: the only way out of a fault (R106, R115) -/

/-- Hardware reset (R115): every state element takes its reset value. IN is host memory and stays, and so do the parameters,
the rest of the host's sequence and the model's counter of free values. No command has been answered and no byte of OUT read
since (notes/assumptions/11.md). -/
def hardwareReset (s : State) : State :=
  { State.resetWith s.cfg with inMem := s.inMem, host := s.host, free := s.free }

/-! ## The host's accesses to the memories (R35, R36) -/

/-- The host writes one byte of IN; the address map has no byte at or above IN_SIZE (R35, R37). -/
def hostWriteIn (a : Nat) (b : Byte) (s : State) : Host.Outcome State Fault Refusal :=
  if a < s.cfg.inSize then .next { s with inMem := s.inMem.write a b } else .fault (.noSuchInAddress a)

/-- Byte a of the finished stream: OUT[a] below OUT_LEN once FLUSHED = 1 (R36). Every other byte of OUT is unspecified (none). -/
def State.finishedByte (s : State) (a : Nat) : Option Byte :=
  if s.enc.flushed ∧ a < s.enc.outLen then s.enc.out.read a else none

/-- What a host read of OUT[a] returns (R36): the byte of the finished stream, else a free value (notes/assumptions/10.md). -/
def State.readOut (s : State) (a : Nat) : Byte := (s.finishedByte a).getD (Config.freeOutByte s.free a)

/-- Whether OUT has the address a: it lies below OUT_CAP, or OUT_CAP is unbounded (R36). -/
def outHas : Option Nat → Nat → Bool
  | none, _ => true
  | some cap, a => a < cap

/-- The host reads one byte of OUT (R36). The address map has no byte at or above OUT_CAP (R37). Nothing changes but what the host has
read; a read that took a free value counts it. -/
def hostReadOut (a : Nat) (s : State) : Host.Outcome State Fault Refusal :=
  if outHas s.cfg.outCap a then
    .next { s with outData := some (s.readOut a), free := if (s.finishedByte a).isSome then s.free else s.free + 1 }
  else .fault (.noSuchOutAddress a)

/-- What IN[a] reads as: the byte the host wrote, else the free power-on value of that address (R35). -/
def State.inByte (s : State) (a : Nat) : Byte := (s.inMem.read a).getD (Config.inPowerOn a)

end Sys2Proof.Machine
end

