-- ==== Sys2Proof/Machine/Flags.lean ====
section
/-! DEFINITION. LAWC has no flags (R62 to R99); its status view is the STATUS word, computed here (R32, R99). -/

namespace Sys2Proof.Machine

/-- A 1-bit field. -/
def bitOf (b : Bool) : BitVec 1 := if b then 1 else 0

/-- The STATUS word (R32, R99): FAULT in bit 0, FCAUSE in 7:4, STARTED in 8, FLUSHED in 9, DSTATE in 11:10, DCAUSE in 15:12 and
BUFCNT in 22:16. BUFCNT is 7 bits wide, so that bits 31:23 read 0 whatever BUF is after a mid-operation fault (R102; notes/assumptions/16.md). -/
def statusWord (s : State) : Word :=
  (bitOf s.fault).setWidth 32
    ||| (s.fcause.code.setWidth 32 <<< 4)
    ||| ((bitOf s.enc.started).setWidth 32 <<< 8)
    ||| ((bitOf s.enc.flushed).setWidth 32 <<< 9)
    ||| (s.dec.dstate.code.setWidth 32 <<< 10)
    ||| (s.dec.dcause.code.setWidth 32 <<< 12)
    ||| ((BitVec.ofNat 7 s.enc.buf.length).setWidth 32 <<< 16)

end Sys2Proof.Machine
end

