-- ==== Sys2Proof/Machine/Block.lean ====
section
/-! DEFINITION. Block control (spec file 43): the STATUS command. The dispatcher of R98 is `Sys2Proof.Machine.runCommand` (Step.lean) over
`decodeCommand`, `whenRunning` and `illegalCommand`. -/

namespace Sys2Proof.Machine

/-- STATUS (R99): answered OK even while FAULT = 1, and nothing changes. -/
def execStatus (s : State) : Host.Outcome State Fault Refusal := .next (respondOk (statusWord s) s)

end Sys2Proof.Machine
end

