-- ==== Sys2Proof/Machine/Operands.lean ====
section
/-! DEFINITION. What an operand or a value is before an instruction uses it: the bit-width of a value (R62), and the bits of the
stream as the bit sink writes them (R40, R41) and the bit source reads them (R42). LAWC has no register operands and no
addressing modes (R16, R50). -/

namespace Sys2Proof.Machine

/-- `bitwidth(v)`: the position of the highest set bit plus one, and 0 for 0 (R62). -/
def bitwidth (v : Nat) : Nat := if v = 0 then 0 else Nat.log2 v + 1

/-! ## The bit sink (R40, R41) -/

/-- Whether n stream bits pass a finite OUT_CAP (R40). -/
def sinkFull : Option Nat → Nat → Bool
  | none, _ => false
  | some cap, n => cap < ceil8 n

/-- Append one stream bit; when it completes byte j of the stream, OUT[j] is written (R24, R38, R40). -/
def appendBit (e : Enc) (b : Bool) : Enc :=
  let bits := e.ebits ++ [b]
  { e with
    ebits := bits
    out := if bits.length % 8 = 0 then e.out.write (bits.length / 8 - 1) (byteOfBits (bits.drop (bits.length - 8))) else e.out }

/-- `SinkWrite(c, v)` (R40): the capacity check comes before any bit is appended; then v[0], ..., v[c-1] are appended
(notes/assumptions/14.md). -/
def sinkWrite (cap : Option Nat) (c v : Nat) (e : Enc) : Except FCause Enc :=
  if sinkFull cap (e.ebits.length + c) then .error .encSinkFull
  else .ok ((fieldBits c v).foldl appendBit e)

/-- `SinkFlush()` (R41): OUT_LEN is the stream's length in bytes, and an incomplete last byte is written with 0 pad bits.
EBITS is unchanged. -/
def sinkFlush (e : Enc) : Enc :=
  { e with
    outLen := ceil8 e.ebits.length
    out := if e.ebits.length % 8 = 0 then e.out
      else e.out.write (e.ebits.length / 8) (byteOfBits (e.ebits.drop (8 * (e.ebits.length / 8)))) }

/-! ## The bit source (R42) -/

/-- Why a decoder operation ends early. -/
inductive DecStop where
  /-- `fail(cause)` (R103). -/
  | fail (c : DCause)
  /-- A read of an IN address that does not exist (R37). -/
  | hole (a : Nat)
deriving DecidableEq, Repr

/-- Stream bit b of the span: bit `b mod 8` of `IN[BASE + b div 8]` (R38, R42). -/
def State.inBit (s : State) (b : Nat) : Bool := (s.inByte (s.dec.base.toNat + b / 8)).getLsbD (b % 8)

/-- The c stream bits of the span from bit b on, in stream order. -/
def State.inBits (s : State) : Nat → Nat → List Bool
  | _, 0 => []
  | b, c + 1 => s.inBit b :: State.inBits s (b + 1) c

/-- `SrcRead(c)` with the cursor at `pos` (R42): a zero-count read never fails, a read past the span fails DEC_TRUNCATED, and
else the next c bits are the value, LSB first. Answers the value and the new cursor. -/
def srcRead (s : State) (pos c : Nat) : Except DecStop (Nat × Nat) :=
  if c = 0 then .ok (0, pos)
  else if 8 * s.dec.len.toNat < pos + c then .error (.fail .truncated)
  else if s.cfg.inSize ≤ s.dec.base.toNat + (pos + c - 1) / 8 then
    .error (.hole (s.dec.base.toNat + (pos + c - 1) / 8))
  else .ok (fieldVal (s.inBits pos c), pos + c)

end Sys2Proof.Machine
end

