-- ==== Sys2Proof/Machine/Decoder.lean ====
section
/-! DEFINITION. The decoder (spec file 42): the width state machine, the value unpacker, and the three decoder commands.

The steps take the cursor POS and answer it moved on; they change no state, so a failing DEC_READ leaves PW, CW and ZC as
they were (R92, R103). -/

namespace Sys2Proof.Machine

/-! ## The steps of DEC_READ (R88 to R91) -/

/-- `TransStep(c)` (R88): the next width, and the cursor after the code. -/
def transStep (s : State) (c pos : Nat) : Except DecStop (Nat × Nat) := do
  let (b, pos) ← srcRead s pos 1
  if b = 0 then .ok (c, pos)
  else do
    let (b, pos) ← srcRead s pos 1
    if b = 1 then
      if Config.maxWidth < c + 1 then .error (.fail .widthOverflow) else .ok (c + 1, pos)
    else .ok (c - 1, pos)

/-- `CountdownStep(z)` for z >= 0 (R89): the next width and the countdown. -/
def countdownStep (z : Int) : Nat × Int := (if z = 0 then 1 else 0, z - 1)

/-- The prefix loop of `RunStep()` (R90) after k zeros: the number of zeros before the first 1, and the cursor after the 1. The
32nd zero fails. The first argument is 32 - k, the loop's bound. -/
def runPrefix (s : State) : Nat → Nat → Nat → Except DecStop (Nat × Nat)
  | 0, _, _ => .error (.fail .runPrefix)
  | fuel + 1, k, pos => do
    let (b, pos) ← srcRead s pos 1
    if b = 0 then
      if Config.maxRunPrefix < k + 1 then .error (.fail .runPrefix) else runPrefix s fuel (k + 1) pos
    else .ok (k, pos)

/-- The next width and the countdown at the first sample of a run of length r (R90). -/
def runStart (r : Nat) : Nat × Int := (if r = 1 then 1 else 0, (r : Int) - 2)

/-- `RunStep()` (R90): the next width, the countdown, and the cursor after the code. -/
def runStep (s : State) (pos : Nat) : Except DecStop ((Nat × Int) × Nat) := do
  let (k, pos) ← runPrefix s 32 0 pos
  let (x, pos) ← srcRead s pos k
  .ok (runStart (2 ^ k + x), pos)

/-- `ValueStep(p, c, n)` (R91): the value, and the cursor after its field. -/
def valueStep (s : State) (p c n pos : Nat) : Except DecStop (Nat × Nat) :=
  if 0 < c ∧ p ≤ c ∧ n ≤ c then do
    let (v, pos) ← srcRead s pos (c - 1)
    .ok (v + 2 ^ (c - 1), pos)
  else srcRead s pos c

/-- The width step of DEC_READ, by CW and ZC (R87). -/
def widthStep (s : State) : Except DecStop ((Nat × Int) × Nat) :=
  if s.dec.cw ≠ 0 then do
    let (n, pos) ← transStep s s.dec.cw s.dec.pos
    .ok ((n, s.dec.zc), pos)
  else if 0 ≤ s.dec.zc then .ok (countdownStep s.dec.zc, s.dec.pos)
  else runStep s s.dec.pos

/-! ## What the steps write -/

/-- The span that DEC_INIT names, with the cursor at its start (R86). -/
def openSpan (b l : Word) (s : State) : State :=
  { s with dec := { s.dec with base := b, len := l, pos := 0, phase := .header } }

/-- What DEC_INIT writes after the header gave the width w and moved the cursor to pos, and its response (R86). -/
def startStream (w pos : Nat) (s : State) : State :=
  respondOk (BitVec.ofNat 32 w) { s with
    dec := { s.dec with pw := w, cw := w, zc := -1, dstate := .ready, dcause := .none, pos := pos, phase := .idle } }

/-- The commit of DEC_READ (R92) and its response: previous is current, current is next. -/
def commitSample (v n : Nat) (z : Int) (pos : Nat) (s : State) : State :=
  respondOk (BitVec.ofNat 32 v) { s with
    dec := { s.dec with pw := s.dec.cw, cw := n, zc := z, pos := pos, phase := .idle } }

/-- How a decoder command ends early: a failure (R103), or a stop at an IN address that does not exist (R37). -/
def stopDecoder (r : DecStop) (s : State) : Host.Outcome State Fault Refusal :=
  match r with
  | .fail c => .next (failDecoder c s)
  | .hole a => .fault (.noSuchInAddress a)

/-- The header at the start of an open span (R86): the width and the cursor after it. -/
def readHeader (s : State) : Except DecStop (Nat × Nat) := do
  let (h, pos) ← srcRead s s.dec.pos 5
  if h = Config.headerEscape then do
    let (x, pos) ← srcRead s pos 1
    .ok (Config.headerEscape + x, pos)
  else .ok (h, pos)

/-- One sample (R87, R91): the width step, then the value field; the value, the next width, the countdown and the cursor. -/
def readSample (s : State) : Except DecStop (Nat × (Nat × Int) × Nat) := do
  let ((n, z), pos) ← widthStep s
  let (v, pos) ← valueStep s s.dec.pw s.dec.cw n pos
  .ok (v, (n, z), pos)

/-! ## Commands -/

/-- DEC_INIT (R86): DEC_EMPTY_SPAN is checked before DEC_SPAN_RANGE, and the sum does not wrap. -/
def execDecInit (b l : Word) (s : State) : Host.Outcome State Fault Refusal :=
  whenRunning s
    (if l.toNat = 0 then .next (raiseFault .decEmptySpan s)
    else if s.cfg.inSize < b.toNat + l.toNat then .next (raiseFault .decSpanRange s)
    else
      match readHeader (openSpan b l s) with
      | .error r => stopDecoder r (openSpan b l s)
      | .ok (w, pos) => .next (startStream w pos (openSpan b l s)))

/-- DEC_READ (R87). -/
def execDecRead (s : State) : Host.Outcome State Fault Refusal :=
  whenRunning s (whenReady s
    (match readSample s with
    | .error r => stopDecoder r s
    | .ok (v, (n, z), pos) => .next (commitSample v n z pos s)))

/-- DEC_NEXT_CODE (R94). Where `BASE + ceil(POS/8)` does not fit RDATA's 32 bits the spec states no value, and RDATA is a
free value (DESIGN CHOICE, safe; notes/assumptions/5.md). -/
def execDecNextCode (s : State) : Host.Outcome State Fault Refusal :=
  whenRunning s (whenReady s
    (if s.dec.base.toNat + ceil8 s.dec.pos < 2 ^ 32 then
      .next (respondOk (BitVec.ofNat 32 (s.dec.base.toNat + ceil8 s.dec.pos)) s)
    else .next (respondOk (Config.freeNextCode s.free) { s with free := s.free + 1 })))

end Sys2Proof.Machine
end

