-- ==== Sys2Proof/Machine/Smoother.lean ====
section
/-! DEFINITION. The width smoother (spec file 40): it computes the widths of a window of pending values, and writes no
state. -/

namespace Sys2Proof.Machine

/-- The forward pass (R64): `f[i] = max(bitwidth(B[i]), f[i-1] - 1)` with `f[-1] = p`. The integer -1 of `f[i-1] = 0` loses
the max, as the 0 of a subtraction of naturals does (notes/assumptions/21.md). -/
def forwardPass : Nat → List Word → List Nat
  | _, [] => []
  | p, v :: vs => max (bitwidth v.toNat) (p - 1) :: forwardPass (max (bitwidth v.toNat) (p - 1)) vs

/-- The right boundary `W[s]` (R65): 0, or the last forward width on the final flush. -/
def rightBoundary (f : List Nat) (final : Bool) : Nat := if final then f.getLastD 0 else 0

/-- The backward pass (R66): `W[i] = max(f[i], W[i+1] - 1)`, ending with `W[s] = r`. -/
def backwardPass (r : Nat) : List Nat → List Nat
  | [] => [r]
  | f :: fs =>
    let w := backwardPass r fs
    max f (w.headD 0 - 1) :: w

/-- `Profile(B, p, final)`: the widths `W[0..s]` of the window B (R63). -/
def profile (B : List Word) (p : Nat) (final : Bool) : List Nat :=
  backwardPass (rightBoundary (forwardPass p B) final) (forwardPass p B)

end Sys2Proof.Machine
end

