-- ==== Sys2Proof/Machine/Encoder.lean ====
section
/-! DEFINITION. The encoder (spec file 41): transition coder, value packer, zero-run compressor, and the four encoder commands.

The internal operations act on the encoder unit alone and end early with ENC_SINK_FULL or ENC_RUN_OVERFLOW (R102); `cap` is
OUT_CAP. -/

namespace Sys2Proof.Machine

/-! ## Internal operations (R75 to R81) -/

/-- `EmitHeader(w)` (R76). -/
def emitHeader (cap : Option Nat) (w : Nat) (e : Enc) : Except FCause Enc :=
  if w ≤ 30 then sinkWrite cap 5 w e
  else do
    let e ← sinkWrite cap 5 Config.headerEscape e
    sinkWrite cap 1 (w - Config.headerEscape) e

/-- `TransitionCode(c, n)` for c > 0 (R78). No other n reaches it (notes/assumptions/18.md). -/
def transitionCode (cap : Option Nat) (c n : Nat) (e : Enc) : Except FCause Enc :=
  if n = c then sinkWrite cap 1 0 e
  else if n = c + 1 then do
    let e ← sinkWrite cap 1 1 e
    sinkWrite cap 1 1 e
  else if n + 1 = c then do
    let e ← sinkWrite cap 1 1 e
    sinkWrite cap 1 0 e
  else .ok e

/-- `ValueField(p, c, n, v)` for c > 0 (R79): the top bit is omitted where it is provably 1. -/
def valueField (cap : Option Nat) (p c n v : Nat) (e : Enc) : Except FCause Enc :=
  if p ≤ c ∧ n ≤ c then sinkWrite cap (c - 1) (v - 2 ^ (c - 1)) e
  else sinkWrite cap c v e

/-- `ZeroRunCount()` (R80): the run that would reach 2^32 samples faults. -/
def zeroRunCount (e : Enc) : Except FCause Enc :=
  if e.nz.toNat = 2 ^ 32 - 1 then .error .encRunOverflow
  else .ok { e with nz := e.nz + 1 }

/-- k times `SinkWrite(1, 0)`: the prefix of a zero-run code (R81). -/
def emitZeros (cap : Option Nat) : Nat → Enc → Except FCause Enc
  | 0, e => .ok e
  | k + 1, e => do
    let e ← sinkWrite cap 1 0 e
    emitZeros cap k e

/-- `EmitZeroRun(n)` (R81). -/
def emitZeroRun (cap : Option Nat) (n : Nat) (e : Enc) : Except FCause Enc := do
  let k := bitwidth n - 1
  let e ← emitZeros cap k e
  let e ← sinkWrite cap 1 1 e
  sinkWrite cap k (n - 2 ^ k) e

/-- `if NZ > 0: EmitZeroRun(NZ); NZ <- 0` (R77, R82). -/
def closeZeroRun (cap : Option Nat) (e : Enc) : Except FCause Enc :=
  if 0 < e.nz.toNat then do
    let e ← emitZeroRun cap e.nz.toNat e
    .ok { e with nz := 0 }
  else .ok e

/-- `EncodeSample(p, c, n, v)` (R77). -/
def encodeSample (cap : Option Nat) (p c n v : Nat) (e : Enc) : Except FCause Enc :=
  if c = 0 then zeroRunCount e
  else do
    let e ← closeZeroRun cap e
    let e ← transitionCode cap c n e
    valueField cap p c n v e

/-- The loop of FlushSome (R75): each sample is encoded with its width and the next one, and its width becomes MRW. The
widths are one more than the values. -/
def encodeSamples (cap : Option Nat) : List Word → List Nat → Enc → Except FCause Enc
  | v :: vs, c :: n :: ws, e => do
    let e ← encodeSample cap e.mrw c n v.toNat e
    encodeSamples cap vs (n :: ws) { e with mrw := c }
  | _, _, e => .ok e

/-- `if STARTED == 0: EmitHeader(w); STARTED <- 1` (R75). -/
def startWith (cap : Option Nat) (w : Nat) (e : Enc) : Except FCause Enc :=
  if e.started then .ok e
  else do
    let e ← emitHeader cap w e
    .ok { e with started := true }

/-- The body of FlushSome with the widths W of the window (R75): the header, the oldest m samples, and their removal. -/
def flushWith (cap : Option Nat) (m : Nat) (W : List Nat) (e : Enc) : Except FCause Enc := do
  let e ← startWith cap (W.headD 0) e
  let e ← encodeSamples cap (e.buf.take m) W e
  .ok { e with buf := e.buf.drop m }

/-- `FlushSome(m, final)` (R75). -/
def flushSome (cap : Option Nat) (m : Nat) (final : Bool) (e : Enc) : Except FCause Enc :=
  flushWith cap m (profile e.buf e.mrw final) e

/-- ENC_WRITE after its check (R74): buffer the value, and flush the oldest 32 when 64 are pending. -/
def writeValue (cap : Option Nat) (v : Word) (e : Enc) : Except FCause Enc :=
  if (e.buf ++ [v]).length = Config.bufLimit then flushSome cap Config.flushChunk false { e with buf := e.buf ++ [v] }
  else .ok { e with buf := e.buf ++ [v] }

/-- ENC_FLUSH after its checks (R82). -/
def flushStream (cap : Option Nat) (e : Enc) : Except FCause Enc := do
  let e ← flushSome cap e.buf.length true { e with flushed := true }
  let e ← closeZeroRun cap e
  .ok (sinkFlush e)

/-! ## Commands -/

/-- End an encoder command with what its operation answered: OK with an RDATA read off the new encoder state, or the
mid-operation fault (R102). -/
def encResult (r : Except FCause Enc) (rdata : Enc → Word) (s : State) : State :=
  match r with
  | .error c => raiseMidFault c s
  | .ok e => respondOk (rdata e) { s with enc := e }

/-- `OUT_LEN mod 2^32` (R51, R82, R83). -/
def outLenWord (e : Enc) : Word := BitVec.ofNat 32 e.outLen

/-- ENC_INIT (R73). -/
def execEncInit (s : State) : Host.Outcome State Fault Refusal :=
  whenRunning s (.next (respondOk 0 { s with enc := .fresh }))

/-- ENC_WRITE (R74). -/
def execEncWrite (v : Word) (s : State) : Host.Outcome State Fault Refusal :=
  whenRunning s
    (if s.enc.flushed then .next (raiseFault .encWriteAfterFlush s)
    else .next (encResult (writeValue s.cfg.outCap v s.enc) (fun _ => 0) s))

/-- ENC_FLUSH (R82): ENC_DOUBLE_FLUSH is checked before ENC_FLUSH_BEFORE_WRITE. -/
def execEncFlush (s : State) : Host.Outcome State Fault Refusal :=
  whenRunning s
    (if s.enc.flushed then .next (raiseFault .encDoubleFlush s)
    else if s.enc.buf.length = 0 then .next (raiseFault .encFlushBeforeWrite s)
    else .next (encResult (flushStream s.cfg.outCap s.enc) outLenWord s))

/-- ENC_CODE (R83). -/
def execEncCode (s : State) : Host.Outcome State Fault Refusal :=
  whenRunning s
    (if s.enc.flushed then .next (respondOk (outLenWord s.enc) s)
    else .next (raiseFault .encCodeBeforeFlush s))

end Sys2Proof.Machine
end

