-- ==== Sys2Proof/Machine/Wire.lean ====
section
/-! DEFINITION. The wire symbols as instructions: what the decoder does when it takes one off the bit stream (spec files 30 and 42).

A symbol runs inside a DEC_INIT or a DEC_READ; the cursor POS is its "program counter" and `Dec.phase` says where in the
command the decoder is (notes/assumptions/8.md). Every symbol ends at the next symbol boundary:
a header ends DEC_INIT, a transition code leads to the value field, and a zero-run code or a value field ends DEC_READ. -/

namespace Sys2Proof.Machine

/-- Take a symbol of c bits off the stream: the cursor moves past it, or the span cuts it short (R42, R61 item 3). -/
def takeBits (c : Nat) (s : State) (body : Nat → Host.Outcome State Fault Refusal) : Host.Outcome State Fault Refusal :=
  if 0 < c ∧ 8 * s.dec.len.toNat < s.dec.pos + c then .next (failDecoder .truncated s) else body (s.dec.pos + c)

/-- A header (R56, R86): both widths are w, no run is tracked, and DEC_INIT answers w. -/
def takeHeader (c w : Nat) (s : State) : Host.Outcome State Fault Refusal :=
  if s.dec.phase = .header then takeBits c s fun pos => .next (startStream w pos s)
  else .refused .symbolOutOfContext

/-- Whether the decoder stands before a sample whose width symbol is a transition code (R57, R60). -/
def State.atTrans (s : State) : Bool := s.dec.dstate = .ready ∧ s.dec.phase = .idle ∧ s.dec.cw ≠ 0

/-- Whether the decoder stands before a sample whose width symbol is a zero-run code (R58, R60). -/
def State.atRun (s : State) : Bool := s.dec.dstate = .ready ∧ s.dec.phase = .idle ∧ s.dec.cw = 0 ∧ s.dec.zc < 0

/-- A transition code (R57, R88): the value field is next, with the next width n and ZC as it was; a width above 32 fails. -/
def takeTrans (c n : Nat) (s : State) : Host.Outcome State Fault Refusal :=
  if s.atTrans then
    takeBits c s fun pos =>
      if Config.maxWidth < n then .next (failDecoder .widthOverflow s)
      else .next { s with dec := { s.dec with pos := pos, phase := .value n s.dec.zc } }
  else .refused .symbolOutOfContext

/-- A zero-run code (R58, R90): the sample is 0, its run has length 2^k + x, and DEC_READ ends. -/
def takeRun (k x : Nat) (s : State) : Host.Outcome State Fault Refusal :=
  if s.atRun then
    takeBits (2 * k + 1) s fun pos =>
      .next (commitSample 0 (runStart (2 ^ k + x)).1 (runStart (2 ^ k + x)).2 pos s)
  else .refused .symbolOutOfContext

/-- A value field of m bits of a sample of width c (R59, R91): the sample is v, and DEC_READ ends (R92). -/
def takeValue (c m v : Nat) (s : State) : Host.Outcome State Fault Refusal :=
  match s.dec.phase with
  | .value n z =>
    if s.dec.dstate = .ready ∧ s.dec.cw = c then takeBits m s fun pos => .next (commitSample v n z pos s)
    else .refused .symbolOutOfContext
  | .header => .refused .symbolOutOfContext
  | .idle => .refused .symbolOutOfContext

/-- The effect of a wire symbol, by shape. -/
def symbolEffect (σ : Symbol) (s : State) : Host.Outcome State Fault Refusal :=
  match σ with
  | .hdr5 h => if h < Config.headerEscape then takeHeader 5 h s else .refused .illFormed
  | .hdr31 => takeHeader 6 31 s
  | .hdr32 => takeHeader 6 32 s
  | .trSame => takeTrans 1 s.dec.cw s
  | .trUp => takeTrans 2 (s.dec.cw + 1) s
  | .trDown => takeTrans 2 (s.dec.cw - 1) s
  | .zr k x => takeRun k x s
  | .valFull c v => takeValue c c v s
  | .valElided c v => takeValue c (c - 1) (v + 2 ^ (c - 1)) s

/-- Take a symbol off the stream; like a command, it does nothing while FAULT = 1 (R104). -/
def takeSymbol (σ : Symbol) (s : State) : Host.Outcome State Fault Refusal := whenRunning s (symbolEffect σ s)

/-- HDR_5. -/
def execHdr5 (h : BitVec 5) (s : State) : Host.Outcome State Fault Refusal := takeSymbol (.hdr5 h.toNat) s

/-- HDR_31. -/
def execHdr31 (s : State) : Host.Outcome State Fault Refusal := takeSymbol (.hdr31) s

/-- HDR_32. -/
def execHdr32 (s : State) : Host.Outcome State Fault Refusal := takeSymbol (.hdr32) s

/-- TR_SAME. -/
def execTrSame (s : State) : Host.Outcome State Fault Refusal := takeSymbol (.trSame) s

/-- TR_UP. -/
def execTrUp (s : State) : Host.Outcome State Fault Refusal := takeSymbol (.trUp) s

/-- TR_DOWN. -/
def execTrDown (s : State) : Host.Outcome State Fault Refusal := takeSymbol (.trDown) s

/-- ZR_0. -/
def execZr0 (s : State) : Host.Outcome State Fault Refusal := takeSymbol (.zr 0 0) s

/-- ZR_1. -/
def execZr1 (x : BitVec 1) (s : State) : Host.Outcome State Fault Refusal := takeSymbol (.zr 1 x.toNat) s

/-- ZR_2. -/
def execZr2 (x : BitVec 2) (s : State) : Host.Outcome State Fault Refusal := takeSymbol (.zr 2 x.toNat) s

/-- ZR_3. -/
def execZr3 (x : BitVec 3) (s : State) : Host.Outcome State Fault Refusal := takeSymbol (.zr 3 x.toNat) s

/-- ZR_4. -/
def execZr4 (x : BitVec 4) (s : State) : Host.Outcome State Fault Refusal := takeSymbol (.zr 4 x.toNat) s

/-- ZR_5. -/
def execZr5 (x : BitVec 5) (s : State) : Host.Outcome State Fault Refusal := takeSymbol (.zr 5 x.toNat) s

/-- ZR_6. -/
def execZr6 (x : BitVec 6) (s : State) : Host.Outcome State Fault Refusal := takeSymbol (.zr 6 x.toNat) s

/-- ZR_7. -/
def execZr7 (x : BitVec 7) (s : State) : Host.Outcome State Fault Refusal := takeSymbol (.zr 7 x.toNat) s

/-- ZR_8. -/
def execZr8 (x : BitVec 8) (s : State) : Host.Outcome State Fault Refusal := takeSymbol (.zr 8 x.toNat) s

/-- ZR_9. -/
def execZr9 (x : BitVec 9) (s : State) : Host.Outcome State Fault Refusal := takeSymbol (.zr 9 x.toNat) s

/-- ZR_10. -/
def execZr10 (x : BitVec 10) (s : State) : Host.Outcome State Fault Refusal := takeSymbol (.zr 10 x.toNat) s

/-- ZR_11. -/
def execZr11 (x : BitVec 11) (s : State) : Host.Outcome State Fault Refusal := takeSymbol (.zr 11 x.toNat) s

/-- ZR_12. -/
def execZr12 (x : BitVec 12) (s : State) : Host.Outcome State Fault Refusal := takeSymbol (.zr 12 x.toNat) s

/-- ZR_13. -/
def execZr13 (x : BitVec 13) (s : State) : Host.Outcome State Fault Refusal := takeSymbol (.zr 13 x.toNat) s

/-- ZR_14. -/
def execZr14 (x : BitVec 14) (s : State) : Host.Outcome State Fault Refusal := takeSymbol (.zr 14 x.toNat) s

/-- ZR_15. -/
def execZr15 (x : BitVec 15) (s : State) : Host.Outcome State Fault Refusal := takeSymbol (.zr 15 x.toNat) s

/-- ZR_16. -/
def execZr16 (x : BitVec 16) (s : State) : Host.Outcome State Fault Refusal := takeSymbol (.zr 16 x.toNat) s

/-- ZR_17. -/
def execZr17 (x : BitVec 17) (s : State) : Host.Outcome State Fault Refusal := takeSymbol (.zr 17 x.toNat) s

/-- ZR_18. -/
def execZr18 (x : BitVec 18) (s : State) : Host.Outcome State Fault Refusal := takeSymbol (.zr 18 x.toNat) s

/-- ZR_19. -/
def execZr19 (x : BitVec 19) (s : State) : Host.Outcome State Fault Refusal := takeSymbol (.zr 19 x.toNat) s

/-- ZR_20. -/
def execZr20 (x : BitVec 20) (s : State) : Host.Outcome State Fault Refusal := takeSymbol (.zr 20 x.toNat) s

/-- ZR_21. -/
def execZr21 (x : BitVec 21) (s : State) : Host.Outcome State Fault Refusal := takeSymbol (.zr 21 x.toNat) s

/-- ZR_22. -/
def execZr22 (x : BitVec 22) (s : State) : Host.Outcome State Fault Refusal := takeSymbol (.zr 22 x.toNat) s

/-- ZR_23. -/
def execZr23 (x : BitVec 23) (s : State) : Host.Outcome State Fault Refusal := takeSymbol (.zr 23 x.toNat) s

/-- ZR_24. -/
def execZr24 (x : BitVec 24) (s : State) : Host.Outcome State Fault Refusal := takeSymbol (.zr 24 x.toNat) s

/-- ZR_25. -/
def execZr25 (x : BitVec 25) (s : State) : Host.Outcome State Fault Refusal := takeSymbol (.zr 25 x.toNat) s

/-- ZR_26. -/
def execZr26 (x : BitVec 26) (s : State) : Host.Outcome State Fault Refusal := takeSymbol (.zr 26 x.toNat) s

/-- ZR_27. -/
def execZr27 (x : BitVec 27) (s : State) : Host.Outcome State Fault Refusal := takeSymbol (.zr 27 x.toNat) s

/-- ZR_28. -/
def execZr28 (x : BitVec 28) (s : State) : Host.Outcome State Fault Refusal := takeSymbol (.zr 28 x.toNat) s

/-- ZR_29. -/
def execZr29 (x : BitVec 29) (s : State) : Host.Outcome State Fault Refusal := takeSymbol (.zr 29 x.toNat) s

/-- ZR_30. -/
def execZr30 (x : BitVec 30) (s : State) : Host.Outcome State Fault Refusal := takeSymbol (.zr 30 x.toNat) s

/-- ZR_31. -/
def execZr31 (x : BitVec 31) (s : State) : Host.Outcome State Fault Refusal := takeSymbol (.zr 31 x.toNat) s

/-- VAL_FULL_1. -/
def execValFull1 (v : BitVec 1) (s : State) : Host.Outcome State Fault Refusal := takeSymbol (.valFull 1 v.toNat) s

/-- VAL_FULL_2. -/
def execValFull2 (v : BitVec 2) (s : State) : Host.Outcome State Fault Refusal := takeSymbol (.valFull 2 v.toNat) s

/-- VAL_FULL_3. -/
def execValFull3 (v : BitVec 3) (s : State) : Host.Outcome State Fault Refusal := takeSymbol (.valFull 3 v.toNat) s

/-- VAL_FULL_4. -/
def execValFull4 (v : BitVec 4) (s : State) : Host.Outcome State Fault Refusal := takeSymbol (.valFull 4 v.toNat) s

/-- VAL_FULL_5. -/
def execValFull5 (v : BitVec 5) (s : State) : Host.Outcome State Fault Refusal := takeSymbol (.valFull 5 v.toNat) s

/-- VAL_FULL_6. -/
def execValFull6 (v : BitVec 6) (s : State) : Host.Outcome State Fault Refusal := takeSymbol (.valFull 6 v.toNat) s

/-- VAL_FULL_7. -/
def execValFull7 (v : BitVec 7) (s : State) : Host.Outcome State Fault Refusal := takeSymbol (.valFull 7 v.toNat) s

/-- VAL_FULL_8. -/
def execValFull8 (v : BitVec 8) (s : State) : Host.Outcome State Fault Refusal := takeSymbol (.valFull 8 v.toNat) s

/-- VAL_FULL_9. -/
def execValFull9 (v : BitVec 9) (s : State) : Host.Outcome State Fault Refusal := takeSymbol (.valFull 9 v.toNat) s

/-- VAL_FULL_10. -/
def execValFull10 (v : BitVec 10) (s : State) : Host.Outcome State Fault Refusal := takeSymbol (.valFull 10 v.toNat) s

/-- VAL_FULL_11. -/
def execValFull11 (v : BitVec 11) (s : State) : Host.Outcome State Fault Refusal := takeSymbol (.valFull 11 v.toNat) s

/-- VAL_FULL_12. -/
def execValFull12 (v : BitVec 12) (s : State) : Host.Outcome State Fault Refusal := takeSymbol (.valFull 12 v.toNat) s

/-- VAL_FULL_13. -/
def execValFull13 (v : BitVec 13) (s : State) : Host.Outcome State Fault Refusal := takeSymbol (.valFull 13 v.toNat) s

/-- VAL_FULL_14. -/
def execValFull14 (v : BitVec 14) (s : State) : Host.Outcome State Fault Refusal := takeSymbol (.valFull 14 v.toNat) s

/-- VAL_FULL_15. -/
def execValFull15 (v : BitVec 15) (s : State) : Host.Outcome State Fault Refusal := takeSymbol (.valFull 15 v.toNat) s

/-- VAL_FULL_16. -/
def execValFull16 (v : BitVec 16) (s : State) : Host.Outcome State Fault Refusal := takeSymbol (.valFull 16 v.toNat) s

/-- VAL_FULL_17. -/
def execValFull17 (v : BitVec 17) (s : State) : Host.Outcome State Fault Refusal := takeSymbol (.valFull 17 v.toNat) s

/-- VAL_FULL_18. -/
def execValFull18 (v : BitVec 18) (s : State) : Host.Outcome State Fault Refusal := takeSymbol (.valFull 18 v.toNat) s

/-- VAL_FULL_19. -/
def execValFull19 (v : BitVec 19) (s : State) : Host.Outcome State Fault Refusal := takeSymbol (.valFull 19 v.toNat) s

/-- VAL_FULL_20. -/
def execValFull20 (v : BitVec 20) (s : State) : Host.Outcome State Fault Refusal := takeSymbol (.valFull 20 v.toNat) s

/-- VAL_FULL_21. -/
def execValFull21 (v : BitVec 21) (s : State) : Host.Outcome State Fault Refusal := takeSymbol (.valFull 21 v.toNat) s

/-- VAL_FULL_22. -/
def execValFull22 (v : BitVec 22) (s : State) : Host.Outcome State Fault Refusal := takeSymbol (.valFull 22 v.toNat) s

/-- VAL_FULL_23. -/
def execValFull23 (v : BitVec 23) (s : State) : Host.Outcome State Fault Refusal := takeSymbol (.valFull 23 v.toNat) s

/-- VAL_FULL_24. -/
def execValFull24 (v : BitVec 24) (s : State) : Host.Outcome State Fault Refusal := takeSymbol (.valFull 24 v.toNat) s

/-- VAL_FULL_25. -/
def execValFull25 (v : BitVec 25) (s : State) : Host.Outcome State Fault Refusal := takeSymbol (.valFull 25 v.toNat) s

/-- VAL_FULL_26. -/
def execValFull26 (v : BitVec 26) (s : State) : Host.Outcome State Fault Refusal := takeSymbol (.valFull 26 v.toNat) s

/-- VAL_FULL_27. -/
def execValFull27 (v : BitVec 27) (s : State) : Host.Outcome State Fault Refusal := takeSymbol (.valFull 27 v.toNat) s

/-- VAL_FULL_28. -/
def execValFull28 (v : BitVec 28) (s : State) : Host.Outcome State Fault Refusal := takeSymbol (.valFull 28 v.toNat) s

/-- VAL_FULL_29. -/
def execValFull29 (v : BitVec 29) (s : State) : Host.Outcome State Fault Refusal := takeSymbol (.valFull 29 v.toNat) s

/-- VAL_FULL_30. -/
def execValFull30 (v : BitVec 30) (s : State) : Host.Outcome State Fault Refusal := takeSymbol (.valFull 30 v.toNat) s

/-- VAL_FULL_31. -/
def execValFull31 (v : BitVec 31) (s : State) : Host.Outcome State Fault Refusal := takeSymbol (.valFull 31 v.toNat) s

/-- VAL_FULL_32. -/
def execValFull32 (v : BitVec 32) (s : State) : Host.Outcome State Fault Refusal := takeSymbol (.valFull 32 v.toNat) s

/-- VAL_ELIDED_1. -/
def execValElided1 (s : State) : Host.Outcome State Fault Refusal := takeSymbol (.valElided 1 0) s

/-- VAL_ELIDED_2. -/
def execValElided2 (v : BitVec 1) (s : State) : Host.Outcome State Fault Refusal := takeSymbol (.valElided 2 v.toNat) s

/-- VAL_ELIDED_3. -/
def execValElided3 (v : BitVec 2) (s : State) : Host.Outcome State Fault Refusal := takeSymbol (.valElided 3 v.toNat) s

/-- VAL_ELIDED_4. -/
def execValElided4 (v : BitVec 3) (s : State) : Host.Outcome State Fault Refusal := takeSymbol (.valElided 4 v.toNat) s

/-- VAL_ELIDED_5. -/
def execValElided5 (v : BitVec 4) (s : State) : Host.Outcome State Fault Refusal := takeSymbol (.valElided 5 v.toNat) s

/-- VAL_ELIDED_6. -/
def execValElided6 (v : BitVec 5) (s : State) : Host.Outcome State Fault Refusal := takeSymbol (.valElided 6 v.toNat) s

/-- VAL_ELIDED_7. -/
def execValElided7 (v : BitVec 6) (s : State) : Host.Outcome State Fault Refusal := takeSymbol (.valElided 7 v.toNat) s

/-- VAL_ELIDED_8. -/
def execValElided8 (v : BitVec 7) (s : State) : Host.Outcome State Fault Refusal := takeSymbol (.valElided 8 v.toNat) s

/-- VAL_ELIDED_9. -/
def execValElided9 (v : BitVec 8) (s : State) : Host.Outcome State Fault Refusal := takeSymbol (.valElided 9 v.toNat) s

/-- VAL_ELIDED_10. -/
def execValElided10 (v : BitVec 9) (s : State) : Host.Outcome State Fault Refusal := takeSymbol (.valElided 10 v.toNat) s

/-- VAL_ELIDED_11. -/
def execValElided11 (v : BitVec 10) (s : State) : Host.Outcome State Fault Refusal := takeSymbol (.valElided 11 v.toNat) s

/-- VAL_ELIDED_12. -/
def execValElided12 (v : BitVec 11) (s : State) : Host.Outcome State Fault Refusal := takeSymbol (.valElided 12 v.toNat) s

/-- VAL_ELIDED_13. -/
def execValElided13 (v : BitVec 12) (s : State) : Host.Outcome State Fault Refusal := takeSymbol (.valElided 13 v.toNat) s

/-- VAL_ELIDED_14. -/
def execValElided14 (v : BitVec 13) (s : State) : Host.Outcome State Fault Refusal := takeSymbol (.valElided 14 v.toNat) s

/-- VAL_ELIDED_15. -/
def execValElided15 (v : BitVec 14) (s : State) : Host.Outcome State Fault Refusal := takeSymbol (.valElided 15 v.toNat) s

/-- VAL_ELIDED_16. -/
def execValElided16 (v : BitVec 15) (s : State) : Host.Outcome State Fault Refusal := takeSymbol (.valElided 16 v.toNat) s

/-- VAL_ELIDED_17. -/
def execValElided17 (v : BitVec 16) (s : State) : Host.Outcome State Fault Refusal := takeSymbol (.valElided 17 v.toNat) s

/-- VAL_ELIDED_18. -/
def execValElided18 (v : BitVec 17) (s : State) : Host.Outcome State Fault Refusal := takeSymbol (.valElided 18 v.toNat) s

/-- VAL_ELIDED_19. -/
def execValElided19 (v : BitVec 18) (s : State) : Host.Outcome State Fault Refusal := takeSymbol (.valElided 19 v.toNat) s

/-- VAL_ELIDED_20. -/
def execValElided20 (v : BitVec 19) (s : State) : Host.Outcome State Fault Refusal := takeSymbol (.valElided 20 v.toNat) s

/-- VAL_ELIDED_21. -/
def execValElided21 (v : BitVec 20) (s : State) : Host.Outcome State Fault Refusal := takeSymbol (.valElided 21 v.toNat) s

/-- VAL_ELIDED_22. -/
def execValElided22 (v : BitVec 21) (s : State) : Host.Outcome State Fault Refusal := takeSymbol (.valElided 22 v.toNat) s

/-- VAL_ELIDED_23. -/
def execValElided23 (v : BitVec 22) (s : State) : Host.Outcome State Fault Refusal := takeSymbol (.valElided 23 v.toNat) s

/-- VAL_ELIDED_24. -/
def execValElided24 (v : BitVec 23) (s : State) : Host.Outcome State Fault Refusal := takeSymbol (.valElided 24 v.toNat) s

/-- VAL_ELIDED_25. -/
def execValElided25 (v : BitVec 24) (s : State) : Host.Outcome State Fault Refusal := takeSymbol (.valElided 25 v.toNat) s

/-- VAL_ELIDED_26. -/
def execValElided26 (v : BitVec 25) (s : State) : Host.Outcome State Fault Refusal := takeSymbol (.valElided 26 v.toNat) s

/-- VAL_ELIDED_27. -/
def execValElided27 (v : BitVec 26) (s : State) : Host.Outcome State Fault Refusal := takeSymbol (.valElided 27 v.toNat) s

/-- VAL_ELIDED_28. -/
def execValElided28 (v : BitVec 27) (s : State) : Host.Outcome State Fault Refusal := takeSymbol (.valElided 28 v.toNat) s

/-- VAL_ELIDED_29. -/
def execValElided29 (v : BitVec 28) (s : State) : Host.Outcome State Fault Refusal := takeSymbol (.valElided 29 v.toNat) s

/-- VAL_ELIDED_30. -/
def execValElided30 (v : BitVec 29) (s : State) : Host.Outcome State Fault Refusal := takeSymbol (.valElided 30 v.toNat) s

/-- VAL_ELIDED_31. -/
def execValElided31 (v : BitVec 30) (s : State) : Host.Outcome State Fault Refusal := takeSymbol (.valElided 31 v.toNat) s

/-- VAL_ELIDED_32. -/
def execValElided32 (v : BitVec 31) (s : State) : Host.Outcome State Fault Refusal := takeSymbol (.valElided 32 v.toNat) s

end Sys2Proof.Machine
end

