-- ==== Sys2Proof/Machine/Dispatch.lean ====
section
/-! DEFINITION. One arm per instruction: the eight commands (R51, R98) and the 102 wire symbols (R56 to R59). -/

namespace Sys2Proof.Machine

def exec (i : Instr) (s : State) : Host.Outcome State Fault Refusal :=
  match i with
  | .encInit => Sys2Proof.Machine.execEncInit s
  | .encWrite v => Sys2Proof.Machine.execEncWrite v s
  | .encFlush => Sys2Proof.Machine.execEncFlush s
  | .encCode => Sys2Proof.Machine.execEncCode s
  | .decInit b l => Sys2Proof.Machine.execDecInit b l s
  | .decRead => Sys2Proof.Machine.execDecRead s
  | .decNextCode => Sys2Proof.Machine.execDecNextCode s
  | .status => Sys2Proof.Machine.execStatus s
  | .hdr5 h => Sys2Proof.Machine.execHdr5 h s
  | .hdr31 => Sys2Proof.Machine.execHdr31 s
  | .hdr32 => Sys2Proof.Machine.execHdr32 s
  | .trSame => Sys2Proof.Machine.execTrSame s
  | .trUp => Sys2Proof.Machine.execTrUp s
  | .trDown => Sys2Proof.Machine.execTrDown s
  | .zr0 => Sys2Proof.Machine.execZr0 s
  | .zr1 x => Sys2Proof.Machine.execZr1 x s
  | .zr2 x => Sys2Proof.Machine.execZr2 x s
  | .zr3 x => Sys2Proof.Machine.execZr3 x s
  | .zr4 x => Sys2Proof.Machine.execZr4 x s
  | .zr5 x => Sys2Proof.Machine.execZr5 x s
  | .zr6 x => Sys2Proof.Machine.execZr6 x s
  | .zr7 x => Sys2Proof.Machine.execZr7 x s
  | .zr8 x => Sys2Proof.Machine.execZr8 x s
  | .zr9 x => Sys2Proof.Machine.execZr9 x s
  | .zr10 x => Sys2Proof.Machine.execZr10 x s
  | .zr11 x => Sys2Proof.Machine.execZr11 x s
  | .zr12 x => Sys2Proof.Machine.execZr12 x s
  | .zr13 x => Sys2Proof.Machine.execZr13 x s
  | .zr14 x => Sys2Proof.Machine.execZr14 x s
  | .zr15 x => Sys2Proof.Machine.execZr15 x s
  | .zr16 x => Sys2Proof.Machine.execZr16 x s
  | .zr17 x => Sys2Proof.Machine.execZr17 x s
  | .zr18 x => Sys2Proof.Machine.execZr18 x s
  | .zr19 x => Sys2Proof.Machine.execZr19 x s
  | .zr20 x => Sys2Proof.Machine.execZr20 x s
  | .zr21 x => Sys2Proof.Machine.execZr21 x s
  | .zr22 x => Sys2Proof.Machine.execZr22 x s
  | .zr23 x => Sys2Proof.Machine.execZr23 x s
  | .zr24 x => Sys2Proof.Machine.execZr24 x s
  | .zr25 x => Sys2Proof.Machine.execZr25 x s
  | .zr26 x => Sys2Proof.Machine.execZr26 x s
  | .zr27 x => Sys2Proof.Machine.execZr27 x s
  | .zr28 x => Sys2Proof.Machine.execZr28 x s
  | .zr29 x => Sys2Proof.Machine.execZr29 x s
  | .zr30 x => Sys2Proof.Machine.execZr30 x s
  | .zr31 x => Sys2Proof.Machine.execZr31 x s
  | .valFull1 v => Sys2Proof.Machine.execValFull1 v s
  | .valFull2 v => Sys2Proof.Machine.execValFull2 v s
  | .valFull3 v => Sys2Proof.Machine.execValFull3 v s
  | .valFull4 v => Sys2Proof.Machine.execValFull4 v s
  | .valFull5 v => Sys2Proof.Machine.execValFull5 v s
  | .valFull6 v => Sys2Proof.Machine.execValFull6 v s
  | .valFull7 v => Sys2Proof.Machine.execValFull7 v s
  | .valFull8 v => Sys2Proof.Machine.execValFull8 v s
  | .valFull9 v => Sys2Proof.Machine.execValFull9 v s
  | .valFull10 v => Sys2Proof.Machine.execValFull10 v s
  | .valFull11 v => Sys2Proof.Machine.execValFull11 v s
  | .valFull12 v => Sys2Proof.Machine.execValFull12 v s
  | .valFull13 v => Sys2Proof.Machine.execValFull13 v s
  | .valFull14 v => Sys2Proof.Machine.execValFull14 v s
  | .valFull15 v => Sys2Proof.Machine.execValFull15 v s
  | .valFull16 v => Sys2Proof.Machine.execValFull16 v s
  | .valFull17 v => Sys2Proof.Machine.execValFull17 v s
  | .valFull18 v => Sys2Proof.Machine.execValFull18 v s
  | .valFull19 v => Sys2Proof.Machine.execValFull19 v s
  | .valFull20 v => Sys2Proof.Machine.execValFull20 v s
  | .valFull21 v => Sys2Proof.Machine.execValFull21 v s
  | .valFull22 v => Sys2Proof.Machine.execValFull22 v s
  | .valFull23 v => Sys2Proof.Machine.execValFull23 v s
  | .valFull24 v => Sys2Proof.Machine.execValFull24 v s
  | .valFull25 v => Sys2Proof.Machine.execValFull25 v s
  | .valFull26 v => Sys2Proof.Machine.execValFull26 v s
  | .valFull27 v => Sys2Proof.Machine.execValFull27 v s
  | .valFull28 v => Sys2Proof.Machine.execValFull28 v s
  | .valFull29 v => Sys2Proof.Machine.execValFull29 v s
  | .valFull30 v => Sys2Proof.Machine.execValFull30 v s
  | .valFull31 v => Sys2Proof.Machine.execValFull31 v s
  | .valFull32 v => Sys2Proof.Machine.execValFull32 v s
  | .valElided1 => Sys2Proof.Machine.execValElided1 s
  | .valElided2 v => Sys2Proof.Machine.execValElided2 v s
  | .valElided3 v => Sys2Proof.Machine.execValElided3 v s
  | .valElided4 v => Sys2Proof.Machine.execValElided4 v s
  | .valElided5 v => Sys2Proof.Machine.execValElided5 v s
  | .valElided6 v => Sys2Proof.Machine.execValElided6 v s
  | .valElided7 v => Sys2Proof.Machine.execValElided7 v s
  | .valElided8 v => Sys2Proof.Machine.execValElided8 v s
  | .valElided9 v => Sys2Proof.Machine.execValElided9 v s
  | .valElided10 v => Sys2Proof.Machine.execValElided10 v s
  | .valElided11 v => Sys2Proof.Machine.execValElided11 v s
  | .valElided12 v => Sys2Proof.Machine.execValElided12 v s
  | .valElided13 v => Sys2Proof.Machine.execValElided13 v s
  | .valElided14 v => Sys2Proof.Machine.execValElided14 v s
  | .valElided15 v => Sys2Proof.Machine.execValElided15 v s
  | .valElided16 v => Sys2Proof.Machine.execValElided16 v s
  | .valElided17 v => Sys2Proof.Machine.execValElided17 v s
  | .valElided18 v => Sys2Proof.Machine.execValElided18 v s
  | .valElided19 v => Sys2Proof.Machine.execValElided19 v s
  | .valElided20 v => Sys2Proof.Machine.execValElided20 v s
  | .valElided21 v => Sys2Proof.Machine.execValElided21 v s
  | .valElided22 v => Sys2Proof.Machine.execValElided22 v s
  | .valElided23 v => Sys2Proof.Machine.execValElided23 v s
  | .valElided24 v => Sys2Proof.Machine.execValElided24 v s
  | .valElided25 v => Sys2Proof.Machine.execValElided25 v s
  | .valElided26 v => Sys2Proof.Machine.execValElided26 v s
  | .valElided27 v => Sys2Proof.Machine.execValElided27 v s
  | .valElided28 v => Sys2Proof.Machine.execValElided28 v s
  | .valElided29 v => Sys2Proof.Machine.execValElided29 v s
  | .valElided30 v => Sys2Proof.Machine.execValElided30 v s
  | .valElided31 v => Sys2Proof.Machine.execValElided31 v s
  | .valElided32 v => Sys2Proof.Machine.execValElided32 v s

end Sys2Proof.Machine
end

