-- ==== Sys2Proof/Machine/Step.lean ====
section
/-! DEFINITION. One step: the oldest thing the host has asked for takes effect (R3, R45, R126). -/

namespace Sys2Proof.Machine

/-- The dispatcher (R98): run the command the words stand for, or answer an illegal one. -/
def runCommand (cmd d0 d1 : Word) (s : State) : Host.Outcome State Fault Refusal :=
  match decodeCommand cmd d0 d1 with
  | .ok i => exec i s
  | .error _ => illegalCommand s

/-- One transition (R126): a command, a host write of IN, a host read of OUT, or a reset. With nothing asked, LAWC is idle and keeps all state (R114;
notes/assumptions/13.md). -/
def step (s : State) : Host.Outcome State Fault Refusal :=
  match s.host with
  | [] => .next s
  | .command cmd d0 d1 :: rest => runCommand cmd d0 d1 { s with host := rest }
  | .writeIn a b :: rest => hostWriteIn a b { s with host := rest }
  | .readOut a :: rest => hostReadOut a { s with host := rest }
  | .reset :: rest => .next (hardwareReset { s with host := rest })

/-- `s` with the command of the words CMD, D0, D1 (numbered as the opcode table numbers bits) as the next thing the host asks for. -/
def State.withFetchWord (s : State) (nbits w : Nat) : State :=
  { s with host := .command (tableWordAt nbits w 0) (tableWordAt nbits w 1) (tableWordAt nbits w 2) :: s.host }

end Sys2Proof.Machine
end

