-- ==== Sys2Proof/Safety.lean ====
section
/-! DEFINITION. What a sound state of LAWC is, between commands (R17, R18, R24 to R34, R36), and a safe step.

`Inv` is the invariant that every step keeps; statements that need a state of a run take the part of it they need as a
premise. -/

namespace Sys2Proof

open Machine

/-- How many bytes of OUT hold the stream: its complete bytes, and after ENC_FLUSH the padded last one too (R24, R36). -/
def Machine.Enc.outBytes (e : Enc) : Nat := if e.flushed then ceil8 e.ebits.length else e.ebits.length / 8

/-- Byte j of a stream of bits, missing bits read as 0 (R24, R38, R41). -/
def streamByte (bits : List Bool) (j : Nat) : Byte := byteOfBits ((bits.drop (8 * j)).take 8)

/-- The encoder between commands, while FAULT = 0 (R33, and R17, R20, R24, R36). -/
structure EncInv (cap : Option Nat) (e : Enc) : Prop where
  /-- R33 item 1. -/
  bufLe : e.buf.length ≤ 63
  /-- R20. -/
  mrwLe : e.mrw ≤ Config.maxWidth
  /-- R33 item 2; the header has been written by then (R75, R82). -/
  flushed : e.flushed = true → e.buf = [] ∧ e.nz = 0 ∧ e.started = true
  /-- R33 item 3. -/
  notStarted : e.started = false → e.ebits = [] ∧ e.mrw = 0 ∧ e.nz = 0 ∧ e.flushed = false
  /-- R33 item 4: after a partial flush at least 32 values are pending. -/
  pending : e.flushed = false → e.started = true → 32 ≤ e.buf.length
  /-- R24. -/
  outLen : e.outLen = if e.flushed then ceil8 e.ebits.length else 0
  /-- R17, R40: EBITS never passes OUT_CAP. -/
  capacity : sinkFull cap e.ebits.length = false
  /-- OUT is in canonical form. -/
  outWf : e.out.wf = true
  /-- R24, R36, R41: OUT holds the stream's bytes and nothing else. -/
  outRead : ∀ j, e.out.read j = if j < e.outBytes then some (streamByte e.ebits j) else none

/-- The decoder between commands (R25, R26, R29, R30, R34). -/
structure DecInv (cfg : Config.Params) (d : Dec) : Prop where
  /-- R26: DCAUSE is 0 exactly outside FAILED. -/
  dcause : d.dcause = .none ↔ d.dstate ≠ .failed
  /-- R101: the reserved cause is never raised. -/
  noUnderflow : d.dcause ≠ .widthUnderflow
  /-- R34 item 1. -/
  pwLe : d.dstate = .ready → d.pw ≤ Config.maxWidth
  /-- R34 item 1. -/
  cwLe : d.dstate = .ready → d.cw ≤ Config.maxWidth
  /-- R29. -/
  zcRange : d.dstate = .ready → -1 ≤ d.zc ∧ d.zc ≤ 2 ^ 32 - 3
  /-- R34 item 2. -/
  zcWidth : d.dstate = .ready → 0 ≤ d.zc → d.cw = 0
  /-- R34 item 3; the header has been read (R86). -/
  posRange : d.dstate = .ready → 5 ≤ d.pos ∧ d.pos ≤ 8 * d.len.toNat
  /-- R30. -/
  span : d.dstate = .ready → 1 ≤ d.len.toNat ∧ d.base.toNat + d.len.toNat ≤ cfg.inSize
  /-- Every command ends at a sample boundary (R45). -/
  phase : d.phase = .idle

/-- A sound state between commands. -/
structure Inv (s : State) : Prop where
  /-- R18: FCAUSE is 0 exactly while FAULT = 0. -/
  fault : s.fault = true ↔ s.fcause ≠ .none
  /-- R33 holds while FAULT = 0. -/
  enc : s.fault = false → EncInv s.cfg.outCap s.enc
  /-- The decoder's part holds always: a fault never changes decoder state (R102). -/
  dec : DecInv s.cfg s.dec
  /-- IN is in canonical form. -/
  inWf : s.inMem.wf = true
  /-- OUT is in canonical form, after a mid-operation fault too. -/
  outWf : s.enc.out.wf = true
  /-- R35, R37: IN has no byte at or above IN_SIZE. -/
  inRange : ∀ a, s.cfg.inSize ≤ a → s.inMem.read a = none

/-- What the host asks for next is possible: a write of IN names an address of IN, and a read of OUT an address of OUT (R35 to
R37, R125). -/
def hostSafe (s : State) : Prop :=
  (∀ a b rest, s.host = .writeIn a b :: rest → a < s.cfg.inSize) ∧
    ∀ a rest, s.host = .readOut a :: rest → outHas s.cfg.outCap a = true

/-- A step that goes on: it answers a next state, not a fault or a refusal. -/
def StepsOn (s : State) : Prop := ∃ t, step s = .next t

/-! ## Reference views, for statements

What the encoder and the decoder should do, said without their state. -/

/-- `SP[i]` of a whole stream (R69): the largest of `bitwidth(v[j]) - |i - j|`, and `SP[N] = SP[N-1]`. -/
def streamWidth (vs : List Word) (i : Nat) : Nat :=
  let k := min i (vs.length - 1)
  ((List.range vs.length).map fun j => bitwidth (vs.getD j 0).toNat - ((k - j) + (j - k))).foldr max 0

/-- The header symbol of the width w (R56). -/
def headerSymbol (w : Nat) : Symbol := if w ≤ 30 then .hdr5 w else if w = 31 then .hdr31 else .hdr32

/-- The transition symbol from the width c to the next width n (R57). -/
def transSymbol (c n : Nat) : Symbol := if n = c then .trSame else if n = c + 1 then .trUp else .trDown

/-- The value symbol of the value v with the width c, previous width p and next width n (R59). -/
def valueSymbol (p c n v : Nat) : Symbol :=
  if p ≤ c ∧ n ≤ c then .valElided c (v - 2 ^ (c - 1)) else .valFull c v

/-- The zero-run symbols pending for a run of n samples: none for n = 0, else the one code of R58. -/
def runSymbols (n : Nat) : List Symbol :=
  if n = 0 then [] else [.zr (bitwidth n - 1) (n - 2 ^ (bitwidth n - 1))]

/-- The symbols that the samples `vs` contribute, with the widths `W` (one more than the samples), the width p before them and
`nz` zero-width samples pending (R55 item 2, R77), and the zero-width samples pending after them. -/
def sampleSymbols : Nat → Nat → List Word → List Nat → List Symbol × Nat
  | p, nz, v :: vs, c :: n :: W =>
    if c = 0 then sampleSymbols 0 (nz + 1) vs (n :: W)
    else
      let (σs, nz') := sampleSymbols c 0 vs (n :: W)
      (runSymbols nz ++ transSymbol c n :: valueSymbol p c n v.toNat :: σs, nz')
  | _, nz, _, _ => ([], nz)

/-- The symbols of the stream of `vs` (R55, R84): the header, the samples with the widths SP, and the run still open at the end. -/
def streamSymbols (vs : List Word) : List Symbol :=
  let (σs, nz) := sampleSymbols 0 0 vs ((List.range (vs.length + 1)).map (streamWidth vs))
  headerSymbol (streamWidth vs 0) :: (σs ++ runSymbols nz)

/-- The stream bits of symbols one after another. -/
def symbolBits (σs : List Symbol) : List Bool := σs.flatMap Symbol.bits

/-- The next state of a precise fault (R102): FAULT, FCAUSE and the response, and nothing else. -/
def faulted (c : FCause) (s : State) : State := { s with fault := true, fcause := c, resp := some ⟨.fault, 0, c.code⟩ }

/-- An OK response with RDATA = d and nothing else changed (R53). -/
def answered (d : Word) (s : State) : State := { s with resp := some ⟨.ok, d, 0⟩ }

/-- The encoder's commands. -/
def Instr.isEncoder : Instr → Bool
  | .encInit => true
  | .encWrite _ => true
  | .encFlush => true
  | .encCode => true
  | _ => false

/-- The decoder's commands, and the wire symbols it takes off the stream. -/
def Instr.isDecoder (i : Instr) : Bool :=
  match i with
  | .decInit _ _ => true
  | .decRead => true
  | .decNextCode => true
  | i => i.symbol?.isSome

/-- Put another encoder unit into the states an outcome may answer. -/
def withEnc (e : Enc) : Host.Outcome State Fault Refusal → Host.Outcome State Fault Refusal
  | .next t => .next { t with enc := e }
  | .fault r => .fault r
  | .refused r => .refused r

/-- Put another decoder unit into the states an outcome may answer. -/
def withDec (d : Dec) : Host.Outcome State Fault Refusal → Host.Outcome State Fault Refusal
  | .next t => .next { t with dec := d }
  | .fault r => .fault r
  | .refused r => .refused r

/-- Put other IN contents into the states an outcome may answer. -/
def withIn (m : Memory) : Host.Outcome State Fault Refusal → Host.Outcome State Fault Refusal
  | .next t => .next { t with inMem := m }
  | .fault r => .fault r
  | .refused r => .refused r

/-- The decoder is READY at a sample boundary, with a span inside IN, and FAULT = 0. -/
def Ready (s : State) : Prop :=
  s.fault = false ∧ s.dec.dstate = .ready ∧ s.dec.phase = .idle ∧ s.dec.base.toNat + s.dec.len.toNat ≤ s.cfg.inSize

/-- The span's bits that the cursor has not reached, in stream order. -/
def restBits (s : State) : List Bool := s.inBits s.dec.pos (8 * s.dec.len.toNat - s.dec.pos)

/-- The state after a sample v has been read with the next width n, the countdown z and the cursor pos (R92). -/
def sampleRead (v n : Nat) (z : Int) (pos : Nat) (s : State) : State :=
  { s with
    dec := { s.dec with pw := s.dec.cw, cw := n, zc := z, pos := pos, phase := .idle }
    resp := some ⟨.ok, BitVec.ofNat 32 v, 0⟩ }

/-- The state after a header of the width w, with the cursor at pos (R86). -/
def headerRead (w pos : Nat) (s : State) : State :=
  { s with
    dec := { s.dec with dstate := .ready, dcause := .none, pw := w, cw := w, zc := -1, pos := pos, phase := .idle }
    resp := some ⟨.ok, BitVec.ofNat 32 w, 0⟩ }

/-- What the state t after a decoder failure keeps of the state s before it, and what it says (R103): POS and the model's
counter are left out, because POS is unspecified. -/
def FailedWith (c : DCause) (s t : State) : Prop :=
  t.dec.dstate = .failed ∧ t.dec.dcause = c ∧ t.resp = some ⟨.fail, 0, c.code⟩ ∧
    t.dec.pw = s.dec.pw ∧ t.dec.cw = s.dec.cw ∧ t.dec.zc = s.dec.zc ∧ t.dec.base = s.dec.base ∧ t.dec.len = s.dec.len ∧
    t.dec.phase = .idle ∧ t.enc = s.enc ∧ t.fault = s.fault ∧ t.fcause = s.fcause ∧ t.inMem = s.inMem ∧
    t.cfg = s.cfg ∧ t.host = s.host ∧ t.outData = s.outData

/-- The bits a flush of the oldest m values with the widths W writes (R75): the header if it has not been written, and the
samples' symbols. -/
def flushBits (e : Enc) (B : List Word) (W : List Nat) : List Bool :=
  (if e.started then [] else (headerSymbol (W.headD 0)).bits) ++ symbolBits (sampleSymbols e.mrw e.nz.toNat B W).1

/-- Run instructions one after another, and list their responses; none when one of them stops the model. -/
def runInstrs : List Instr → State → Option (List Response × State)
  | [], s => some ([], s)
  | i :: is, s =>
    match exec i s with
    | .next t =>
      match t.resp, runInstrs is t with
      | some r, some (rs, u) => some (r :: rs, u)
      | _, _ => none
    | .fault _ => none
    | .refused _ => none

/-- `ENC_STREAM v0, ..., vN-1` (R54). -/
def encStream (vs : List Word) : List Instr := .encInit :: (vs.map .encWrite ++ [.encFlush])

end Sys2Proof
end

