-- ==== Sys2Proof/Certificates/Slice0/Obligations.lean ====
section
/-! DEFINITION. What LAWC does, as statements for the provers: each docstring names the rules of the spec it formalises. -/

open Sys2Proof Sys2Proof.Machine

/-! ## Reset, STATUS, the dispatcher, the host's accesses (R18, R32, R35, R36, R49 to R53, R98, R99, R104, R115) -/

/-- R115: hardware reset puts every state element into its reset value, and IN stays; the reset state has the same values for
every choice of the parameters. No byte of OUT is specified (R24). -/
def Obligations.ResetGivesTheResetValues : Prop :=
  let good (t : State) : Prop :=
    t.fault = false ∧ t.fcause = .none ∧ t.enc.buf = [] ∧ t.enc.mrw = 0 ∧ t.enc.started = false ∧ t.enc.flushed = false ∧
      t.enc.nz = 0 ∧ t.enc.ebits = [] ∧ t.enc.outLen = 0 ∧ (∀ a, t.finishedByte a = none) ∧ t.dec.dstate = .uninit ∧
      t.dec.dcause = .none ∧ statusWord t = 0
  (∀ p, good (State.resetWith p)) ∧
    ∀ s rest, s.host = .reset :: rest → ∃ t, step s = .next t ∧ good t ∧ t.inMem = s.inMem

/-- R32: the fields of the STATUS word, in every state; the reserved bits read 0. -/
def Obligations.StatusWordHasItsLayout : Prop :=
  ∀ s : State,
    (statusWord s).getLsbD 0 = s.fault ∧
    (statusWord s).extractLsb' 1 3 = 0 ∧
    (statusWord s).extractLsb' 4 4 = s.fcause.code ∧
    (statusWord s).getLsbD 8 = s.enc.started ∧
    (statusWord s).getLsbD 9 = s.enc.flushed ∧
    (statusWord s).extractLsb' 10 2 = s.dec.dstate.code ∧
    (statusWord s).extractLsb' 12 4 = s.dec.dcause.code ∧
    (statusWord s).extractLsb' 16 7 = BitVec.ofNat 7 s.enc.buf.length ∧
    (statusWord s).extractLsb' 23 9 = 0

/-- R99: STATUS answers the STATUS word with OK in every state, while FAULT = 1 too, and changes nothing; the word is the sum R99 gives, for
every |BUF| that stands between commands (R19). -/
def Obligations.StatusAnswersAndChangesNothing : Prop :=
  ∀ s : State, ∃ w : Word, exec .status s = .next (answered w s) ∧
    (s.enc.buf.length ≤ 63 →
      w.toNat = s.fault.toNat + s.fcause.code.toNat * 2 ^ 4 + s.enc.started.toNat * 2 ^ 8 + s.enc.flushed.toNat * 2 ^ 9 +
        s.dec.dstate.code.toNat * 2 ^ 10 + s.dec.dcause.code.toNat * 2 ^ 12 + s.enc.buf.length * 2 ^ 16)

/-- R104: while FAULT = 1, every instruction other than STATUS does nothing and answers FAULT with the stored cause, and so does
an illegal command word; only hardware reset clears FAULT. R104 says so of commands; that a wire symbol is halted too is the model's choice
(notes/assumptions/8.md). -/
def Obligations.HaltedBlockDoesNothing : Prop :=
  ∀ s : State, s.fault = true →
    (∀ i : Instr, i ≠ .status → exec i s = .next { s with resp := some ⟨.fault, 0, s.fcause.code⟩ }) ∧
    (∀ cmd d0 d1, (∀ i, decodeCommand cmd d0 d1 ≠ .ok i) →
      runCommand cmd d0 d1 s = .next { s with resp := some ⟨.fault, 0, s.fcause.code⟩ }) ∧
    ∀ t, step s = .next t → (t.fault = false ↔ ∃ rest, s.host = .reset :: rest)

/-- R52: a CMD word is illegal if its OP is reserved or `CMD[31:4] != 0`; it is not executed, and with FAULT = 0 it raises
ILLEGAL_CMD. Every other CMD word is a command. -/
def Obligations.IllegalCommandsFault : Prop :=
  ∀ (cmd d0 d1 : Word) (s : State), s.fault = false →
    if cmd.extractLsb' 4 28 ≠ 0 ∨ (cmd.extractLsb' 0 4).toNat ∈ [0x0, 0x5, 0x6, 0x7, 0xB, 0xC, 0xD, 0xE] then
      runCommand cmd d0 d1 s = .next (faulted .illegalCmd s)
    else ∃ i, decodeCommand cmd d0 d1 = .ok i ∧ runCommand cmd d0 d1 s = exec i s

/-- R50: D0 of ENC_WRITE is the sample, D0 and D1 of DEC_INIT are BASE and LEN, and every other operand word is ignored. -/
def Obligations.OperandWordsAreTheSpecs : Prop :=
  ∀ d0 d1 : Word,
    decodeCommand 0x1 d0 d1 = .ok .encInit ∧ decodeCommand 0x2 d0 d1 = .ok (.encWrite d0) ∧
    decodeCommand 0x3 d0 d1 = .ok .encFlush ∧ decodeCommand 0x4 d0 d1 = .ok .encCode ∧
    decodeCommand 0x8 d0 d1 = .ok (.decInit d0 d1) ∧ decodeCommand 0x9 d0 d1 = .ok .decRead ∧
    decodeCommand 0xA d0 d1 = .ok .decNextCode ∧ decodeCommand 0xF d0 d1 = .ok .status

/-- R17, R45, R49, R98: when the host's next event is a command whose words decode to i, a step is exec of i in the state where that event has
been taken off the host's sequence, and does nothing else. -/
def Obligations.StepRunsTheDecodedCommand : Prop :=
  ∀ (s : State) (cmd d0 d1 : Word) (rest : List HostEvent) (i : Instr),
    s.host = .command cmd d0 d1 :: rest → decodeCommand cmd d0 d1 = .ok i → step s = exec i { s with host := rest }

/-- R35, R36, R114: with nothing asked a step keeps all state. A host write of IN changes that byte of IN alone. A host read of OUT
returns the byte of the finished stream below OUT_LEN once FLUSHED = 1, and elsewhere a byte that nothing here constrains (it is
unspecified, notes/assumptions/10.md), and changes nothing the spec gives the machine. An address that the memory does not have stops
the model (its own choice, notes/assumptions/7.md). -/
def Obligations.HostAccessesOneByte : Prop :=
  (∀ s : State, s.host = [] → step s = .next s) ∧
  (∀ (s : State) (a : Nat) (b : Byte) (rest : List HostEvent), s.host = .writeIn a b :: rest →
    if a < s.cfg.inSize then
      ∃ t, step s = .next t ∧ t.inByte a = b ∧ (∀ a', a' ≠ a → t.inByte a' = s.inByte a') ∧
        t = { s with host := rest, inMem := t.inMem }
    else step s = .fault (.noSuchInAddress a)) ∧
  ∀ (s : State) (a : Nat) (rest : List HostEvent), s.host = .readOut a :: rest →
    if ∀ cap, s.cfg.outCap = some cap → a < cap then
      ∃ t b, step s = .next t ∧ t = { s with host := rest, outData := some b, free := t.free } ∧
        (EncInv s.cfg.outCap s.enc → s.enc.flushed = true → a < s.enc.outLen → b = streamByte s.enc.ebits a)
    else step s = .fault (.noSuchOutAddress a)

/-! ## Faults (R18, R100, R102, R105) -/

/-- R100, R102, R105: the precondition faults, each with the condition that raises it, in the order of the checks; FAULT, FCAUSE and the response
change and nothing else. -/
def Obligations.PreconditionFaultsArePrecise : Prop :=
  ∀ s : State, s.fault = false →
    (s.enc.flushed = true → ∀ v, exec (.encWrite v) s = .next (faulted .encWriteAfterFlush s)) ∧
    (s.enc.flushed = true → exec .encFlush s = .next (faulted .encDoubleFlush s)) ∧
    (s.enc.flushed = false → s.enc.buf = [] → exec .encFlush s = .next (faulted .encFlushBeforeWrite s)) ∧
    (s.enc.flushed = false → exec .encCode s = .next (faulted .encCodeBeforeFlush s)) ∧
    (∀ b l : Word, l = 0 → exec (.decInit b l) s = .next (faulted .decEmptySpan s)) ∧
    (∀ b l : Word, l ≠ 0 → s.cfg.inSize < b.toNat + l.toNat → exec (.decInit b l) s = .next (faulted .decSpanRange s)) ∧
    (s.dec.dstate = .uninit → exec .decRead s = .next (faulted .decNotInit s)) ∧
    (s.dec.dstate = .uninit → exec .decNextCode s = .next (faulted .decNotInit s))

/-- R102: an encoder operation that fails midway raises ENC_RUN_OVERFLOW or ENC_SINK_FULL and no other cause; the block halts with that
cause, the decoder and IN are untouched, and nothing is said of the encoder (it is unspecified). -/
def Obligations.MidOperationFaultsHalt : Prop :=
  ∀ (s : State) (c : FCause) (i : Instr), s.fault = false → s.enc.flushed = false →
    ((∃ v, i = .encWrite v ∧ writeValue s.cfg.outCap v s.enc = .error c) ∨
      (i = .encFlush ∧ s.enc.buf ≠ [] ∧ flushStream s.cfg.outCap s.enc = .error c)) →
    (c = .encRunOverflow ∨ c = .encSinkFull) ∧
      ∃ t, exec i s = .next t ∧ t.fault = true ∧ t.fcause = c ∧ t.resp = some ⟨.fault, 0, c.code⟩ ∧ t.dec = s.dec ∧
        t.inMem = s.inMem ∧ t.cfg = s.cfg ∧ t.host = s.host ∧ t.outData = s.outData

/-- R18, R104: once FAULT is 1, a step that is not a hardware reset keeps FAULT, FCAUSE, the encoder and the decoder. -/
def Obligations.FaultStaysUntilReset : Prop :=
  ∀ s t : State, step s = .next t → s.fault = true → (∀ rest, s.host ≠ .reset :: rest) →
    t.fault = true ∧ t.fcause = s.fcause ∧ t.enc = s.enc ∧ t.dec = s.dec

/-! ## The two units (R15, R35, R112) -/

/-- R15, R35, R102: no instruction writes IN, the parameters, the host's sequence or what the host has read of OUT; an encoder command
keeps the whole decoder, and a decoder command or a wire symbol keeps the whole encoder with every byte of OUT; STATUS keeps both;
only a fault changes FAULT or FCAUSE. (Wire symbols as instructions: notes/assumptions/8.md.) -/
def Obligations.InstructionsKeepTheOtherUnit : Prop :=
  ∀ (i : Instr) (s t : State), exec i s = .next t →
    t.inMem = s.inMem ∧ t.cfg = s.cfg ∧ t.host = s.host ∧ t.outData = s.outData ∧
    (i.isEncoder = true → t.dec = s.dec) ∧
    (i.isDecoder = true → t.enc = s.enc) ∧
    (i = .status → t.enc = s.enc ∧ t.dec = s.dec) ∧
    ((∀ r, t.resp = some r → r.rstat ≠ .fault) → t.fault = s.fault ∧ t.fcause = s.fcause)

/-- R15, R112: what a decoder instruction does and answers does not depend on the encoder's state. (Wire symbols as instructions:
notes/assumptions/8.md.) -/
def Obligations.DecoderIgnoresTheEncoder : Prop :=
  ∀ (i : Instr) (s : State) (e : Enc), i.isDecoder = true → exec i { s with enc := e } = withEnc e (exec i s)

/-- R15, R112: what an encoder command does and answers does not depend on the decoder's state. -/
def Obligations.EncoderIgnoresTheDecoder : Prop :=
  ∀ (i : Instr) (s : State) (d : Dec), i.isEncoder = true → exec i { s with dec := d } = withDec d (exec i s)

/-- R35, R42: DEC_READ sees IN only inside its span. -/
def Obligations.DecReadSeesOnlyItsSpan : Prop :=
  ∀ (s : State) (m : Memory), Ready s →
    (∀ a, s.dec.base.toNat ≤ a → a < s.dec.base.toNat + s.dec.len.toNat → ({ s with inMem := m } : State).inByte a = s.inByte a) →
    exec .decRead { s with inMem := m } = withIn m (exec .decRead s)

/-! ## The encoder's commands (R73, R74, R82, R83) -/

/-- R73: ENC_INIT starts a new stream; OUT becomes unspecified, and the decoder and FAULT are untouched. -/
def Obligations.EncInitStartsAStream : Prop :=
  ∀ s : State, s.fault = false → ∃ t, exec .encInit s = .next t ∧
    t.enc.buf = [] ∧ t.enc.mrw = 0 ∧ t.enc.started = false ∧ t.enc.flushed = false ∧ t.enc.nz = 0 ∧ t.enc.ebits = [] ∧
    t.enc.outLen = 0 ∧ (∀ a, t.enc.out.read a = none) ∧ t = answered 0 { s with enc := t.enc }

/-- R74: an ENC_WRITE that does not bring BUF to 64 values appends its value to BUF, answers 0, and changes nothing else. -/
def Obligations.EncWriteBuffersTheValue : Prop :=
  ∀ (s : State) (v : Word), s.fault = false → s.enc.flushed = false → s.enc.buf.length ≠ 63 →
    exec (.encWrite v) s = .next (answered 0 { s with enc := { s.enc with buf := s.enc.buf ++ [v] } })

/-- R74, R75, R77: the ENC_WRITE that brings BUF to 64 values commits the oldest 32 with the widths of the whole window. It completes whenever
the bits it writes fit OUT_CAP and the run counter has room. -/
def Obligations.EncWriteFlushesAtSixtyFour : Prop :=
  ∀ (s : State) (v : Word), s.fault = false → s.enc.flushed = false → s.enc.buf.length = 63 → s.enc.mrw ≤ 32 →
    let B := s.enc.buf ++ [v]
    let W := profile B s.enc.mrw false
    let bits := flushBits s.enc (B.take 32) W
    s.enc.nz.toNat + 32 < 2 ^ 32 → sinkFull s.cfg.outCap (s.enc.ebits.length + bits.length) = false →
    ∃ t, exec (.encWrite v) s = .next t ∧ t = answered 0 { s with enc := t.enc } ∧
      t.enc.buf = B.drop 32 ∧ t.enc.mrw = W.getD 31 0 ∧ t.enc.started = true ∧ t.enc.flushed = false ∧
      t.enc.nz.toNat = (sampleSymbols s.enc.mrw s.enc.nz.toNat (B.take 32) W).2 ∧
      t.enc.ebits = s.enc.ebits ++ bits ∧ t.enc.outLen = s.enc.outLen

/-- R82: ENC_FLUSH commits every pending value, closes a run still open, pads the stream and answers its length in bytes. It completes whenever
the bits it writes fit OUT_CAP and the run counter has room. -/
def Obligations.EncFlushFinishesTheStream : Prop :=
  ∀ s : State, s.fault = false → s.enc.flushed = false → s.enc.buf ≠ [] → s.enc.mrw ≤ 32 →
    let B := s.enc.buf
    let W := profile B s.enc.mrw true
    let run := (sampleSymbols s.enc.mrw s.enc.nz.toNat B W).2
    let bits := flushBits s.enc B W ++ symbolBits (runSymbols run)
    s.enc.nz.toNat + B.length < 2 ^ 32 → sinkFull s.cfg.outCap (s.enc.ebits.length + bits.length) = false →
    ∃ t, exec .encFlush s = .next t ∧ t = answered (BitVec.ofNat 32 t.enc.outLen) { s with enc := t.enc } ∧
      t.enc.buf = [] ∧ t.enc.mrw = W.getD (B.length - 1) 0 ∧ t.enc.started = true ∧ t.enc.flushed = true ∧ t.enc.nz = 0 ∧
      t.enc.ebits = s.enc.ebits ++ bits ∧ t.enc.outLen = ceil8 t.enc.ebits.length

/-- R83: ENC_CODE answers `OUT_LEN mod 2^32` once FLUSHED = 1 and changes nothing; before that it faults ENC_CODE_BEFORE_FLUSH. -/
def Obligations.EncCodeAnswersTheLength : Prop :=
  ∀ s : State, s.fault = false →
    exec .encCode s = .next
      (if s.enc.flushed then answered (BitVec.ofNat 32 (s.enc.outLen % 2 ^ 32)) s else faulted .encCodeBeforeFlush s)

/-- R24, R36, R40, R41: the bytes of OUT that an ENC_WRITE or ENC_FLUSH stores are those its bits complete, and ENC_FLUSH the padded
last one: they hold the stream's bytes, and every other byte of OUT reads as before. -/
def Obligations.EncoderStoresTheStreamsBytes : Prop :=
  ∀ (i : Instr) (s t : State), ((∃ v, i = .encWrite v) ∨ i = .encFlush) → s.fault = false → s.enc.mrw ≤ 32 →
    exec i s = .next t → t.fault = false →
    ∀ a, t.enc.out.read a =
      if s.enc.ebits.length / 8 ≤ a ∧ a < t.enc.outBytes then some (streamByte t.enc.ebits a) else s.enc.out.read a

/-- R127: how many stream bits one ENC_WRITE or ENC_FLUSH writes at most. -/
def Obligations.EncoderWorkIsBounded : Prop :=
  ∀ (s t : State), s.fault = false → s.enc.mrw ≤ 32 → s.enc.buf.length ≤ 63 → t.fault = false →
    (∀ v, exec (.encWrite v) s = .next t → t.enc.ebits.length ≤ s.enc.ebits.length + (6 + 32 * (63 + 2 + 32))) ∧
    (exec .encFlush s = .next t → t.enc.ebits.length ≤ s.enc.ebits.length + (6 + 63 * (63 + 2 + 32) + 63))

/-! ## The encoder's operations and the wire format (R40, R41, R56 to R59, R76 to R81) -/

/-- R40: SinkWrite faults ENC_SINK_FULL before any bit is appended when the bits would pass OUT_CAP, and else appends v[0], ..., v[c-1] and nothing
else; OUT is written at the bytes that are now complete. -/
def Obligations.SinkWriteAppendsLsbFirst : Prop :=
  ∀ (cap : Option Nat) (c v : Nat) (e : Enc), c ≤ 32 → v < 2 ^ c →
    if ∃ n, cap = some n ∧ n < ceil8 (e.ebits.length + c) then sinkWrite cap c v e = .error .encSinkFull
    else ∃ e', sinkWrite cap c v e = .ok e' ∧ e' = { e with ebits := e'.ebits, out := e'.out } ∧
      e'.ebits.length = e.ebits.length + c ∧ (∀ j, j < e.ebits.length → e'.ebits[j]? = e.ebits[j]?) ∧
      (∀ i, i < c → e'.ebits[e.ebits.length + i]? = some (v.testBit i)) ∧
      ∀ j, e'.out.read j =
        if e.ebits.length / 8 ≤ j ∧ j < e'.ebits.length / 8 then some (streamByte e'.ebits j) else e.out.read j

/-- R38, R41: SinkFlush sets OUT_LEN, keeps EBITS, and completes the last byte with zeros. -/
def Obligations.SinkFlushPadsWithZeros : Prop :=
  ∀ e : Enc, (sinkFlush e).outLen = ceil8 e.ebits.length ∧ (sinkFlush e).ebits = e.ebits ∧
    (∀ j, j < e.ebits.length / 8 → (sinkFlush e).out.read j = e.out.read j) ∧
    (e.ebits.length % 8 ≠ 0 → ∃ b, (sinkFlush e).out.read (ceil8 e.ebits.length - 1) = some b ∧
      ∀ i, i < 8 → b.getLsbD i =
        if i < e.ebits.length % 8 then e.ebits.getD (8 * (e.ebits.length / 8) + i) false else false)

/-- R56, R76: the header's bits for every width 0..32. -/
def Obligations.HeaderBitsAreTheSpecs : Prop :=
  ∀ (w : Nat) (e : Enc), w ≤ 32 → ∃ e', emitHeader none w e = .ok e' ∧ e'.ebits = e.ebits ++
    (if w = 31 then [true, true, true, true, true, false]
    else if w = 32 then [true, true, true, true, true, true]
    else [w.testBit 0, w.testBit 1, w.testBit 2, w.testBit 3, w.testBit 4])

/-- R58, R81: the code of a zero run of n samples is k zeros, a one and the k-bit field `x = n - 2^k`, with `2^k <= n < 2^(k+1)`. -/
def Obligations.ZeroRunCodeIsTheSpecs : Prop :=
  ∀ (n : Nat) (e : Enc), 1 ≤ n → n ≤ 2 ^ 32 - 1 → ∃ k x e', k ≤ 31 ∧ 2 ^ k ≤ n ∧ n < 2 ^ (k + 1) ∧ x = n - 2 ^ k ∧
    emitZeroRun none n e = .ok e' ∧
    e'.ebits = e.ebits ++ (List.replicate k false ++ [true] ++ (List.range k).map x.testBit)

/-- R57, R59, R77 to R80: EncodeSample counts a zero-width sample and writes nothing, with ENC_RUN_OVERFLOW at 2^32 - 1; another sample writes the
pending run's code, its transition code and its value field, with the top bit left out where both neighbours are no wider. -/
def Obligations.EncodeSampleWritesItsSymbols : Prop :=
  ∀ (p c n v : Nat) (e : Enc),
    if c = 0 then
      encodeSample none p c n v e =
        if e.nz.toNat = 2 ^ 32 - 1 then .error .encRunOverflow else .ok { e with nz := e.nz + 1 }
    else n = c ∨ n = c + 1 ∨ n + 1 = c → ∃ e', encodeSample none p c n v e = .ok e' ∧ e'.nz = 0 ∧
      e' = { e with nz := 0, ebits := e'.ebits, out := e'.out } ∧
      e'.ebits = e.ebits ++ symbolBits (runSymbols e.nz.toNat) ++
        (if n = c then [false] else if n = c + 1 then [true, true] else [true, false]) ++
        (if p ≤ c ∧ n ≤ c then fieldBits (c - 1) (v - 2 ^ (c - 1)) else fieldBits c v)

/-! ## The width smoother (R62, R68 to R72) -/

/-- R62: `bitwidth(0) = 0`, and for v > 0 it is the least c with `v < 2^c`; its range is 0..32. -/
def Obligations.BitwidthIsTheLeastWidth : Prop :=
  bitwidth 0 = 0 ∧ ∀ v : Word, bitwidth v.toNat ≤ 32 ∧
    (v ≠ 0 → v.toNat < 2 ^ bitwidth v.toNat ∧ ∀ c, v.toNat < 2 ^ c → bitwidth v.toNat ≤ c)

/-- R68: the properties of a profile; it is the smallest sequence that has the first three. -/
def Obligations.ProfileIsTheSmallestSmoothOne : Prop :=
  ∀ (B : List Word) (p : Nat) (final : Bool), B ≠ [] →
    let W := profile B p final
    W.length = B.length + 1 ∧
    (∀ i, i < B.length → bitwidth (B.getD i 0).toNat ≤ W.getD i 0) ∧
    (∀ i, i + 1 < B.length ∨ (final = true ∧ i + 1 = B.length) →
      W.getD (i + 1) 0 ≤ W.getD i 0 + 1 ∧ W.getD i 0 ≤ W.getD (i + 1) 0 + 1) ∧
    p ≤ W.getD 0 0 + 1 ∧
    (p ≤ 32 → ∀ i, i ≤ B.length → W.getD i 0 ≤ 32) ∧
    ∀ U : Nat → Nat, (∀ i, i < B.length → bitwidth (B.getD i 0).toNat ≤ U i) →
      (∀ i, i + 1 < B.length → U (i + 1) ≤ U i + 1 ∧ U i ≤ U (i + 1) + 1) → p ≤ U 0 + 1 →
      ∀ i, i < B.length → W.getD i 0 ≤ U i

/-- R69: the closed form of a profile, as the least upper bound it names. -/
def Obligations.ProfileHasItsClosedForm : Prop :=
  ∀ (B : List Word) (p : Nat) (final : Bool) (i : Nat), i < B.length →
    (profile B p final).getD i 0 =
      max (((List.range B.length).map fun j => bitwidth (B.getD j 0).toNat - ((i - j) + (j - i))).foldr max 0) (p - (i + 1))

/-- R70: chunk invariance. The widths a window commits are those of the whole stream, for a partial flush of 32 of 64 values and for the final
flush, with the next width of every committed sample. -/
def Obligations.WindowsCommitTheStreamsWidths : Prop :=
  ∀ (vs : List Word) (g : Nat), g < vs.length →
    let p := if g = 0 then 0 else streamWidth vs (g - 1)
    (g + 64 ≤ vs.length → ∀ i, i ≤ 32 →
      (profile ((vs.drop g).take 64) p false).getD i 0 = streamWidth vs (g + i)) ∧
    ∀ i, i ≤ vs.length - g → (profile (vs.drop g) p true).getD i 0 = streamWidth vs (g + i)

/-- R72: where the top bit is left out it is provably 1. -/
def Obligations.ElidedTopBitIsOne : Prop :=
  ∀ (vs : List Word) (i : Nat), i < vs.length → 0 < streamWidth vs i →
    (if i = 0 then 0 else streamWidth vs (i - 1)) ≤ streamWidth vs i → streamWidth vs (i + 1) ≤ streamWidth vs i →
    bitwidth (vs.getD i 0).toNat = streamWidth vs i ∧ (vs.getD i 0).getLsbD (streamWidth vs i - 1) = true

/-! ## The decoder's commands (R42, R86 to R94, R103) -/

/-- R42: SrcRead's contract, for a span inside IN: a zero-count read never fails, a read past the span fails DEC_TRUNCATED, and else the next c bits
of the span are the value, LSB first. -/
def Obligations.SrcReadTakesTheNextBits : Prop :=
  ∀ (s : State) (pos c : Nat), c ≤ 32 → s.dec.base.toNat + s.dec.len.toNat ≤ s.cfg.inSize →
    if c = 0 then srcRead s pos c = .ok (0, pos)
    else if 8 * s.dec.len.toNat < pos + c then srcRead s pos c = .error (.fail .truncated)
    else ∃ v, srcRead s pos c = .ok (v, pos + c) ∧ v < 2 ^ c ∧
      ∀ i, i < c → v.testBit i = (s.inByte (s.dec.base.toNat + (pos + i) / 8)).getLsbD ((pos + i) % 8)

/-- R86: DEC_INIT. An empty span faults, then a span past IN_SIZE; else the header is read from the first byte, both widths are it, no run is tracked,
and the decoder is READY. -/
def Obligations.DecInitReadsTheHeader : Prop :=
  ∀ (s : State) (b l : Word), s.fault = false →
    if l = 0 then exec (.decInit b l) s = .next (faulted .decEmptySpan s)
    else if s.cfg.inSize < b.toNat + l.toNat then exec (.decInit b l) s = .next (faulted .decSpanRange s)
    else
      let h := (s.inByte b.toNat).toNat % 32
      let w := if h = 31 then 31 + ((s.inByte b.toNat).getLsbD 5).toNat else h
      exec (.decInit b l) s = .next
        (headerRead w (if h = 31 then 6 else 5) { s with dec := { s.dec with base := b, len := l } })

/-- R88, R91, R92: DEC_READ before a sample of width 1..32. The transition code at the cursor gives the next width; the value field follows; the
widths move on and ZC stays. -/
def Obligations.DecReadTakesTransitionAndValue : Prop :=
  ∀ (s : State) (n m : Nat), Ready s → 1 ≤ s.dec.cw → s.dec.cw ≤ 32 →
    ((s.inBit s.dec.pos = false ∧ m = 1 ∧ n = s.dec.cw) ∨
      (s.inBit s.dec.pos = true ∧ s.inBit (s.dec.pos + 1) = true ∧ m = 2 ∧ n = s.dec.cw + 1 ∧ n ≤ 32) ∨
      (s.inBit s.dec.pos = true ∧ s.inBit (s.dec.pos + 1) = false ∧ m = 2 ∧ n + 1 = s.dec.cw)) →
    let elided := s.dec.pw ≤ s.dec.cw ∧ n ≤ s.dec.cw
    let f := if elided then s.dec.cw - 1 else s.dec.cw
    s.dec.pos + m + f ≤ 8 * s.dec.len.toNat →
    exec .decRead s = .next (sampleRead
      (fieldVal (s.inBits (s.dec.pos + m) f) + if elided then 2 ^ (s.dec.cw - 1) else 0) n s.dec.zc (s.dec.pos + m + f) s)

/-- R89, R91, R92: DEC_READ inside a zero run of known length reads no bits and answers 0; the last sample of the run gives the next width 1. -/
def Obligations.DecReadCountsTheRunDown : Prop :=
  ∀ s : State, Ready s → s.dec.cw = 0 → 0 ≤ s.dec.zc →
    exec .decRead s = .next (sampleRead 0 (if s.dec.zc = 0 then 1 else 0) (s.dec.zc - 1) s.dec.pos s)

/-- R90, R91, R92: DEC_READ at the first sample of a zero run takes its code, k zeros, a one and k suffix bits, and answers 0. -/
def Obligations.DecReadTakesTheRunCode : Prop :=
  ∀ (s : State) (k : Nat), Ready s → s.dec.cw = 0 → s.dec.zc = -1 → k ≤ 31 →
    (∀ j, j < k → s.inBit (s.dec.pos + j) = false) → s.inBit (s.dec.pos + k) = true →
    s.dec.pos + (2 * k + 1) ≤ 8 * s.dec.len.toNat →
    let r := 2 ^ k + fieldVal (s.inBits (s.dec.pos + k + 1) k)
    exec .decRead s = .next (sampleRead 0 (if r = 1 then 1 else 0) ((r : Int) - 2) (s.dec.pos + (2 * k + 1)) s)

/-- R61, R88, R90, R101, R105: DEC_READ fails with the first condition met in stream order. The code `11` at width 32 is DEC_WIDTH_OVERFLOW, a 32nd prefix
zero is DEC_RUN_PREFIX, and a symbol the span cuts short is DEC_TRUNCATED. -/
def Obligations.DecReadFailsByCause : Prop :=
  ∀ s : State, Ready s →
    (s.dec.cw = 32 → s.dec.pos + 2 ≤ 8 * s.dec.len.toNat → s.inBit s.dec.pos = true → s.inBit (s.dec.pos + 1) = true →
      ∃ t, exec .decRead s = .next t ∧ FailedWith .widthOverflow s t) ∧
    (s.dec.cw = 0 → s.dec.zc = -1 → s.dec.pos + 32 ≤ 8 * s.dec.len.toNat → (∀ j, j < 32 → s.inBit (s.dec.pos + j) = false) →
      ∃ t, exec .decRead s = .next t ∧ FailedWith .runPrefix s t) ∧
    (s.dec.cw = 0 → s.dec.zc = -1 → ∀ k, k < 32 → (∀ j, j < k → s.inBit (s.dec.pos + j) = false) →
      ((8 * s.dec.len.toNat = s.dec.pos + k) ∨
        (s.inBit (s.dec.pos + k) = true ∧ s.dec.pos + k < 8 * s.dec.len.toNat ∧ 8 * s.dec.len.toNat < s.dec.pos + (2 * k + 1))) →
      ∃ t, exec .decRead s = .next t ∧ FailedWith .truncated s t) ∧
    (1 ≤ s.dec.cw → s.dec.cw ≤ 32 → 8 * s.dec.len.toNat ≤ s.dec.pos →
      ∃ t, exec .decRead s = .next t ∧ FailedWith .truncated s t)

/-- R92, R103: whenever a DEC_READ turns a READY decoder FAILED, it writes none of PW, CW and ZC, answers FAIL with one of the three causes, and
changes neither FAULT nor the encoder. -/
def Obligations.FailureKeepsTheWidths : Prop :=
  ∀ s t : State, s.fault = false → s.dec.dstate = .ready → exec .decRead s = .next t → t.dec.dstate = .failed →
    FailedWith t.dec.dcause s t ∧
      (t.dec.dcause = .truncated ∨ t.dec.dcause = .widthOverflow ∨ t.dec.dcause = .runPrefix)

/-- R93: in FAILED, DEC_READ and DEC_NEXT_CODE change nothing and answer FAIL with the stored cause. -/
def Obligations.FailedDecoderRepeatsItsCause : Prop :=
  ∀ s : State, s.fault = false → s.dec.dstate = .failed →
    exec .decRead s = .next { s with resp := some ⟨.fail, 0, s.dec.dcause.code⟩ } ∧
    exec .decNextCode s = .next { s with resp := some ⟨.fail, 0, s.dec.dcause.code⟩ }

/-- R25, R93: only DEC_INIT and hardware reset leave FAILED, or change anything in a FAILED decoder. -/
def Obligations.OnlyInitAndResetLeaveFailed : Prop :=
  ∀ s t : State, step s = .next t → s.dec.dstate = .failed →
    t.dec = s.dec ∨ (∃ rest, s.host = .reset :: rest) ∨
      ∃ cmd b l rest, s.host = .command cmd b l :: rest ∧ decodeCommand cmd b l = .ok (.decInit b l)

/-- R94: DEC_NEXT_CODE answers the IN address after the last consumed byte and changes nothing. Where that address does not fit 32 bits the spec
states no RDATA: the command completes, and this says nothing of the value (the model's choice, notes/assumptions/5.md). -/
def Obligations.DecNextCodeAnswersTheAddress : Prop :=
  ∀ s : State, s.fault = false → s.dec.dstate = .ready →
    (s.dec.base.toNat + ceil8 s.dec.pos < 2 ^ 32 →
      exec .decNextCode s = .next (answered (BitVec.ofNat 32 (s.dec.base.toNat + ceil8 s.dec.pos)) s)) ∧
    (2 ^ 32 ≤ s.dec.base.toNat + ceil8 s.dec.pos →
      ∃ d n, exec .decNextCode s = .next (answered d { s with free := n }))

/-- R87, R127: a successful DEC_READ moves the cursor forward by at most 34 bits when CW is 1..32 and at most 63 when CW = 0, and stays
inside the span. -/
def Obligations.DecReadWorkIsBounded : Prop :=
  ∀ s t : State, Ready s → s.dec.cw ≤ 32 → exec .decRead s = .next t → t.dec.dstate = .ready →
    s.dec.pos ≤ t.dec.pos ∧ t.dec.pos ≤ s.dec.pos + (if s.dec.cw = 0 then 63 else 34) ∧
      (s.dec.pos ≤ 8 * s.dec.len.toNat → t.dec.pos ≤ 8 * s.dec.len.toNat)

/-! ## The wire symbols as instructions (R55 to R61; notes/assumptions/8.md) -/

/-- R56, R86: the header symbols HDR_5 (of a width 0..30), HDR_31 and HDR_32 at the start of an open span: both widths are the header's, no run is tracked, the
cursor moves past the symbol, and the decoder is READY. -/
def Obligations.HeaderSymbolsComplete : Prop :=
  ∀ s : State, s.fault = false → s.dec.phase = .header →
    (s.dec.pos + 5 ≤ 8 * s.dec.len.toNat → ∀ h : BitVec 5, h ≠ 31 →
      exec (.hdr5 h) s = .next (headerRead h.toNat (s.dec.pos + 5) s)) ∧
    (s.dec.pos + 6 ≤ 8 * s.dec.len.toNat →
      exec .hdr31 s = .next (headerRead 31 (s.dec.pos + 6) s) ∧ exec .hdr32 s = .next (headerRead 32 (s.dec.pos + 6) s))

/-- R57, R88: the transition symbols TR_SAME, TR_UP and TR_DOWN before a sample of width > 0: the cursor moves past the symbol, and the value field is next with
the next width the symbol gives; TR_UP at width 32 fails DEC_WIDTH_OVERFLOW. -/
def Obligations.TransitionSymbolsComplete : Prop :=
  ∀ s : State, s.fault = false → s.dec.dstate = .ready → s.dec.phase = .idle → 1 ≤ s.dec.cw → s.dec.cw ≤ 32 →
    let after (n m : Nat) : Host.Outcome State Fault Refusal :=
      .next { s with dec := { s.dec with pos := s.dec.pos + m, phase := .value n s.dec.zc } }
    (s.dec.pos + 1 ≤ 8 * s.dec.len.toNat → exec .trSame s = after s.dec.cw 1) ∧
    (s.dec.pos + 2 ≤ 8 * s.dec.len.toNat →
      (s.dec.cw < 32 → exec .trUp s = after (s.dec.cw + 1) 2) ∧
      (s.dec.cw = 32 → ∃ t, exec .trUp s = .next t ∧ FailedWith .widthOverflow s t) ∧
      exec .trDown s = after (s.dec.cw - 1) 2)

/-- R58, R90, R92: the zero-run symbols ZR_0 to ZR_31 before a sample of width 0 outside a run: the run has length 2^k + x, its first sample 0 is read, and
the cursor moves past the 2k+1 bits. -/
def Obligations.ZeroRunSymbolsComplete : Prop :=
  ∀ s : State, s.fault = false → s.dec.dstate = .ready → s.dec.phase = .idle → s.dec.cw = 0 → s.dec.zc = -1 →
    let fits (k : Nat) : Prop := s.dec.pos + (2 * k + 1) ≤ 8 * s.dec.len.toNat
    let after (k x : Nat) : Host.Outcome State Fault Refusal :=
      .next (sampleRead 0 (if 2 ^ k + x = 1 then 1 else 0) (((2 ^ k + x : Nat) : Int) - 2) (s.dec.pos + (2 * k + 1)) s)
    (fits 0 → exec .zr0 s = after 0 0) ∧
    (∀ x : BitVec 1, fits 1 → exec (.zr1 x) s = after 1 x.toNat) ∧
    (∀ x : BitVec 2, fits 2 → exec (.zr2 x) s = after 2 x.toNat) ∧
    (∀ x : BitVec 3, fits 3 → exec (.zr3 x) s = after 3 x.toNat) ∧
    (∀ x : BitVec 4, fits 4 → exec (.zr4 x) s = after 4 x.toNat) ∧
    (∀ x : BitVec 5, fits 5 → exec (.zr5 x) s = after 5 x.toNat) ∧
    (∀ x : BitVec 6, fits 6 → exec (.zr6 x) s = after 6 x.toNat) ∧
    (∀ x : BitVec 7, fits 7 → exec (.zr7 x) s = after 7 x.toNat) ∧
    (∀ x : BitVec 8, fits 8 → exec (.zr8 x) s = after 8 x.toNat) ∧
    (∀ x : BitVec 9, fits 9 → exec (.zr9 x) s = after 9 x.toNat) ∧
    (∀ x : BitVec 10, fits 10 → exec (.zr10 x) s = after 10 x.toNat) ∧
    (∀ x : BitVec 11, fits 11 → exec (.zr11 x) s = after 11 x.toNat) ∧
    (∀ x : BitVec 12, fits 12 → exec (.zr12 x) s = after 12 x.toNat) ∧
    (∀ x : BitVec 13, fits 13 → exec (.zr13 x) s = after 13 x.toNat) ∧
    (∀ x : BitVec 14, fits 14 → exec (.zr14 x) s = after 14 x.toNat) ∧
    (∀ x : BitVec 15, fits 15 → exec (.zr15 x) s = after 15 x.toNat) ∧
    (∀ x : BitVec 16, fits 16 → exec (.zr16 x) s = after 16 x.toNat) ∧
    (∀ x : BitVec 17, fits 17 → exec (.zr17 x) s = after 17 x.toNat) ∧
    (∀ x : BitVec 18, fits 18 → exec (.zr18 x) s = after 18 x.toNat) ∧
    (∀ x : BitVec 19, fits 19 → exec (.zr19 x) s = after 19 x.toNat) ∧
    (∀ x : BitVec 20, fits 20 → exec (.zr20 x) s = after 20 x.toNat) ∧
    (∀ x : BitVec 21, fits 21 → exec (.zr21 x) s = after 21 x.toNat) ∧
    (∀ x : BitVec 22, fits 22 → exec (.zr22 x) s = after 22 x.toNat) ∧
    (∀ x : BitVec 23, fits 23 → exec (.zr23 x) s = after 23 x.toNat) ∧
    (∀ x : BitVec 24, fits 24 → exec (.zr24 x) s = after 24 x.toNat) ∧
    (∀ x : BitVec 25, fits 25 → exec (.zr25 x) s = after 25 x.toNat) ∧
    (∀ x : BitVec 26, fits 26 → exec (.zr26 x) s = after 26 x.toNat) ∧
    (∀ x : BitVec 27, fits 27 → exec (.zr27 x) s = after 27 x.toNat) ∧
    (∀ x : BitVec 28, fits 28 → exec (.zr28 x) s = after 28 x.toNat) ∧
    (∀ x : BitVec 29, fits 29 → exec (.zr29 x) s = after 29 x.toNat) ∧
    (∀ x : BitVec 30, fits 30 → exec (.zr30 x) s = after 30 x.toNat) ∧
    (∀ x : BitVec 31, fits 31 → exec (.zr31 x) s = after 31 x.toNat)

/-- R59, R91, R92: the full value fields VAL_FULL_1 to VAL_FULL_32 of a sample of width c whose next width is n: the sample is the field's value, and the
cursor moves past the c bits. -/
def Obligations.FullValueSymbolsComplete : Prop :=
  ∀ (s : State) (n : Nat) (z : Int), s.fault = false → s.dec.dstate = .ready → s.dec.phase = .value n z →
    let fits (c m : Nat) : Prop := s.dec.cw = c ∧ s.dec.pos + m ≤ 8 * s.dec.len.toNat
    let after (v m : Nat) : Host.Outcome State Fault Refusal := .next (sampleRead v n z (s.dec.pos + m) s)
    (∀ v : BitVec 1, fits 1 1 → exec (.valFull1 v) s = after v.toNat 1) ∧
    (∀ v : BitVec 2, fits 2 2 → exec (.valFull2 v) s = after v.toNat 2) ∧
    (∀ v : BitVec 3, fits 3 3 → exec (.valFull3 v) s = after v.toNat 3) ∧
    (∀ v : BitVec 4, fits 4 4 → exec (.valFull4 v) s = after v.toNat 4) ∧
    (∀ v : BitVec 5, fits 5 5 → exec (.valFull5 v) s = after v.toNat 5) ∧
    (∀ v : BitVec 6, fits 6 6 → exec (.valFull6 v) s = after v.toNat 6) ∧
    (∀ v : BitVec 7, fits 7 7 → exec (.valFull7 v) s = after v.toNat 7) ∧
    (∀ v : BitVec 8, fits 8 8 → exec (.valFull8 v) s = after v.toNat 8) ∧
    (∀ v : BitVec 9, fits 9 9 → exec (.valFull9 v) s = after v.toNat 9) ∧
    (∀ v : BitVec 10, fits 10 10 → exec (.valFull10 v) s = after v.toNat 10) ∧
    (∀ v : BitVec 11, fits 11 11 → exec (.valFull11 v) s = after v.toNat 11) ∧
    (∀ v : BitVec 12, fits 12 12 → exec (.valFull12 v) s = after v.toNat 12) ∧
    (∀ v : BitVec 13, fits 13 13 → exec (.valFull13 v) s = after v.toNat 13) ∧
    (∀ v : BitVec 14, fits 14 14 → exec (.valFull14 v) s = after v.toNat 14) ∧
    (∀ v : BitVec 15, fits 15 15 → exec (.valFull15 v) s = after v.toNat 15) ∧
    (∀ v : BitVec 16, fits 16 16 → exec (.valFull16 v) s = after v.toNat 16) ∧
    (∀ v : BitVec 17, fits 17 17 → exec (.valFull17 v) s = after v.toNat 17) ∧
    (∀ v : BitVec 18, fits 18 18 → exec (.valFull18 v) s = after v.toNat 18) ∧
    (∀ v : BitVec 19, fits 19 19 → exec (.valFull19 v) s = after v.toNat 19) ∧
    (∀ v : BitVec 20, fits 20 20 → exec (.valFull20 v) s = after v.toNat 20) ∧
    (∀ v : BitVec 21, fits 21 21 → exec (.valFull21 v) s = after v.toNat 21) ∧
    (∀ v : BitVec 22, fits 22 22 → exec (.valFull22 v) s = after v.toNat 22) ∧
    (∀ v : BitVec 23, fits 23 23 → exec (.valFull23 v) s = after v.toNat 23) ∧
    (∀ v : BitVec 24, fits 24 24 → exec (.valFull24 v) s = after v.toNat 24) ∧
    (∀ v : BitVec 25, fits 25 25 → exec (.valFull25 v) s = after v.toNat 25) ∧
    (∀ v : BitVec 26, fits 26 26 → exec (.valFull26 v) s = after v.toNat 26) ∧
    (∀ v : BitVec 27, fits 27 27 → exec (.valFull27 v) s = after v.toNat 27) ∧
    (∀ v : BitVec 28, fits 28 28 → exec (.valFull28 v) s = after v.toNat 28) ∧
    (∀ v : BitVec 29, fits 29 29 → exec (.valFull29 v) s = after v.toNat 29) ∧
    (∀ v : BitVec 30, fits 30 30 → exec (.valFull30 v) s = after v.toNat 30) ∧
    (∀ v : BitVec 31, fits 31 31 → exec (.valFull31 v) s = after v.toNat 31) ∧
    (∀ v : BitVec 32, fits 32 32 → exec (.valFull32 v) s = after v.toNat 32)

/-- R59, R91, R92: the elided value fields VAL_ELIDED_1 to VAL_ELIDED_32 of a sample of width c whose next width is n: bit c-1 of the sample is an implied 1,
and the cursor moves past the c-1 bits. -/
def Obligations.ElidedValueSymbolsComplete : Prop :=
  ∀ (s : State) (n : Nat) (z : Int), s.fault = false → s.dec.dstate = .ready → s.dec.phase = .value n z →
    let fits (c m : Nat) : Prop := s.dec.cw = c ∧ (0 < m → s.dec.pos + m ≤ 8 * s.dec.len.toNat)
    let after (v m : Nat) : Host.Outcome State Fault Refusal := .next (sampleRead v n z (s.dec.pos + m) s)
    (fits 1 0 → exec .valElided1 s = after 1 0) ∧
    (∀ v : BitVec 1, fits 2 1 → exec (.valElided2 v) s = after (v.toNat + 2 ^ 1) 1) ∧
    (∀ v : BitVec 2, fits 3 2 → exec (.valElided3 v) s = after (v.toNat + 2 ^ 2) 2) ∧
    (∀ v : BitVec 3, fits 4 3 → exec (.valElided4 v) s = after (v.toNat + 2 ^ 3) 3) ∧
    (∀ v : BitVec 4, fits 5 4 → exec (.valElided5 v) s = after (v.toNat + 2 ^ 4) 4) ∧
    (∀ v : BitVec 5, fits 6 5 → exec (.valElided6 v) s = after (v.toNat + 2 ^ 5) 5) ∧
    (∀ v : BitVec 6, fits 7 6 → exec (.valElided7 v) s = after (v.toNat + 2 ^ 6) 6) ∧
    (∀ v : BitVec 7, fits 8 7 → exec (.valElided8 v) s = after (v.toNat + 2 ^ 7) 7) ∧
    (∀ v : BitVec 8, fits 9 8 → exec (.valElided9 v) s = after (v.toNat + 2 ^ 8) 8) ∧
    (∀ v : BitVec 9, fits 10 9 → exec (.valElided10 v) s = after (v.toNat + 2 ^ 9) 9) ∧
    (∀ v : BitVec 10, fits 11 10 → exec (.valElided11 v) s = after (v.toNat + 2 ^ 10) 10) ∧
    (∀ v : BitVec 11, fits 12 11 → exec (.valElided12 v) s = after (v.toNat + 2 ^ 11) 11) ∧
    (∀ v : BitVec 12, fits 13 12 → exec (.valElided13 v) s = after (v.toNat + 2 ^ 12) 12) ∧
    (∀ v : BitVec 13, fits 14 13 → exec (.valElided14 v) s = after (v.toNat + 2 ^ 13) 13) ∧
    (∀ v : BitVec 14, fits 15 14 → exec (.valElided15 v) s = after (v.toNat + 2 ^ 14) 14) ∧
    (∀ v : BitVec 15, fits 16 15 → exec (.valElided16 v) s = after (v.toNat + 2 ^ 15) 15) ∧
    (∀ v : BitVec 16, fits 17 16 → exec (.valElided17 v) s = after (v.toNat + 2 ^ 16) 16) ∧
    (∀ v : BitVec 17, fits 18 17 → exec (.valElided18 v) s = after (v.toNat + 2 ^ 17) 17) ∧
    (∀ v : BitVec 18, fits 19 18 → exec (.valElided19 v) s = after (v.toNat + 2 ^ 18) 18) ∧
    (∀ v : BitVec 19, fits 20 19 → exec (.valElided20 v) s = after (v.toNat + 2 ^ 19) 19) ∧
    (∀ v : BitVec 20, fits 21 20 → exec (.valElided21 v) s = after (v.toNat + 2 ^ 20) 20) ∧
    (∀ v : BitVec 21, fits 22 21 → exec (.valElided22 v) s = after (v.toNat + 2 ^ 21) 21) ∧
    (∀ v : BitVec 22, fits 23 22 → exec (.valElided23 v) s = after (v.toNat + 2 ^ 22) 22) ∧
    (∀ v : BitVec 23, fits 24 23 → exec (.valElided24 v) s = after (v.toNat + 2 ^ 23) 23) ∧
    (∀ v : BitVec 24, fits 25 24 → exec (.valElided25 v) s = after (v.toNat + 2 ^ 24) 24) ∧
    (∀ v : BitVec 25, fits 26 25 → exec (.valElided26 v) s = after (v.toNat + 2 ^ 25) 25) ∧
    (∀ v : BitVec 26, fits 27 26 → exec (.valElided27 v) s = after (v.toNat + 2 ^ 26) 26) ∧
    (∀ v : BitVec 27, fits 28 27 → exec (.valElided28 v) s = after (v.toNat + 2 ^ 27) 27) ∧
    (∀ v : BitVec 28, fits 29 28 → exec (.valElided29 v) s = after (v.toNat + 2 ^ 28) 28) ∧
    (∀ v : BitVec 29, fits 30 29 → exec (.valElided30 v) s = after (v.toNat + 2 ^ 29) 29) ∧
    (∀ v : BitVec 30, fits 31 30 → exec (.valElided31 v) s = after (v.toNat + 2 ^ 30) 30) ∧
    (∀ v : BitVec 31, fits 32 31 → exec (.valElided32 v) s = after (v.toNat + 2 ^ 31) 31)

/-- R86: DEC_INIT is the header symbol at the start of its span: whatever the wire decoder reads there, running it in the opened span is what DEC_INIT
does. (Wire symbols as instructions: notes/assumptions/8.md.) -/
def Obligations.DecInitRunsItsHeaderSymbol : Prop :=
  ∀ (s : State) (b l : Word), s.fault = false → l ≠ 0 → b.toNat + l.toNat ≤ s.cfg.inSize →
    ∃ i rest, decodeWire .header (restBits (openSpan b l s)) = .ok (i, rest) ∧ exec (.decInit b l) s = exec i (openSpan b l s)

/-- R87: DEC_READ is the wire symbols of its sample, one after the other: with CW > 0 the transition symbol the wire decoder reads at the cursor and then
the value symbol it reads after it (or the failure of `11` at width 32); with CW = 0 outside a run the zero-run symbol alone.
(Wire symbols as instructions: notes/assumptions/8.md.) -/
def Obligations.DecReadRunsItsSymbols : Prop :=
  ∀ (s : State) (i : Instr) (rest : List Bool), Ready s → s.dec.cw ≤ 32 →
    (s.dec.cw = 0 → s.dec.zc = -1 → decodeWire .run (restBits s) = .ok (i, rest) → exec .decRead s = exec i s) ∧
    (s.dec.cw ≠ 0 → decodeWire .trans (restBits s) = .ok (i, rest) →
      (i = .trUp ∧ s.dec.cw = 32 ∧ exec .decRead s = exec i s) ∨
      ∃ s1 n, exec i s = .next s1 ∧ s1.dec.phase = .value n s.dec.zc ∧ restBits s1 = rest ∧
        ∀ j rest', decodeWire (.value s.dec.pw s.dec.cw n) rest = .ok (j, rest') → exec .decRead s = exec j s1)

/-- R60, R61: DEC_READ fails where the wire decoder finds no symbol, with the cause of the rejection; at the value field too.
(Wire symbols as instructions: notes/assumptions/8.md.) -/
def Obligations.DecReadFailsWhereNoSymbolStands : Prop :=
  ∀ s : State, Ready s → s.dec.cw ≤ 32 →
    (s.dec.cw ≠ 0 → decodeWire .trans (restBits s) = .error .truncated →
      ∃ t, exec .decRead s = .next t ∧ FailedWith .truncated s t) ∧
    (s.dec.cw = 0 → s.dec.zc = -1 → decodeWire .run (restBits s) = .error .truncated →
      ∃ t, exec .decRead s = .next t ∧ FailedWith .truncated s t) ∧
    (s.dec.cw = 0 → s.dec.zc = -1 → decodeWire .run (restBits s) = .error .runPrefix →
      ∃ t, exec .decRead s = .next t ∧ FailedWith .runPrefix s t) ∧
    (s.dec.cw ≠ 0 → ∀ i rest s1 n, decodeWire .trans (restBits s) = .ok (i, rest) → exec i s = .next s1 →
      s1.dec.phase = .value n s.dec.zc → decodeWire (.value s.dec.pw s.dec.cw n) rest = .error .truncated →
      ∃ t, exec .decRead s = .next t ∧ FailedWith .truncated s t)

/-! ## Encoding (R49 to R61) -/

/-- Decode and encode agree on every well-formed instruction, with every operand: a command's words decode to it, and a symbol's bits decode to it wherever in
a stream the symbol can stand, with whatever bits follow (R49, R51, R55 to R60). -/
def Obligations.InstructionsDecodeAsEncoded : Prop :=
  ∀ i : Instr, i.wf = true →
    (∀ ctx cmd d0 d1, encode i = .command cmd d0 d1 → decodeCommand cmd d0 d1 = .ok i ∧ decode ctx (encode i) = some i) ∧
    ∀ σ ctx, i.symbol? = some σ → σ.fits ctx = true →
      encode i = .wire σ.bits ∧ ∀ rest, decodeWire ctx (σ.bits ++ rest) = .ok (i, rest)

/-- R60: each symbol set is prefix-free and no bit is lost: the bits the wire decoder takes are the symbol's own, the symbol is well formed, and it
can stand there. -/
def Obligations.DecodedSymbolsHaveTheirBits : Prop :=
  ∀ (ctx : Context) (bits rest : List Bool) (i : Instr), decodeWire ctx bits = .ok (i, rest) →
    ∃ σ, i.symbol? = some σ ∧ i.wf = true ∧ σ.fits ctx = true ∧ bits = σ.bits ++ rest

/-- R49, R51, R54, R56 to R59: words and bits written out from the spec's tables decode to the instruction they stand for. -/
def Obligations.WrittenOutWordsDecode : Prop :=
  decodeTableWord 32 0x00000001 = some .encInit ∧
  decodeTableWord 96 0x000000000000000500000002 = some (.encWrite 5) ∧
  decodeTableWord 96 0x000000040000000000000008 = some (.decInit 0 4) ∧
  decodeTableWord 32 0x0000001F = none ∧
  decodeWire .header [true, true, false, false, false] = .ok (.hdr5 3, []) ∧
  decodeWire .header [true, true, true, true, true, false] = .ok (.hdr31, []) ∧
  decodeWire .trans [true, false] = .ok (.trDown, []) ∧
  decodeWire .run [false, false, true, true, false] = .ok (.zr2 1, []) ∧
  decodeWire (.value 3 3 2) [true, false] = .ok (.valElided3 1, []) ∧
  decodeWire (.value 3 3 4) [true, false, true] = .ok (.valFull3 5, [])

/-! ## Invariants and whole streams (R33, R34, R84, R95, R126) -/

/-- R115: the reset state is sound, for every choice of the parameters. -/
def Obligations.ResetStateIsSound : Prop := ∀ p, Inv (State.resetWith p)

/-- R33, R34 (with R17, R18, R20, R24 to R30, R36): from every sound state a step leads to a sound state. -/
def Obligations.StepsKeepStatesSound : Prop := ∀ s t : State, Inv s → step s = .next t → Inv t

/-- R126: every command terminates. From every sound state a step answers a next state, unless the host writes an address that IN does not have or reads
one that OUT does not have (notes/assumptions/7.md). -/
def Obligations.SoundStatesStepOn : Prop := ∀ s : State, Inv s → hostSafe s → StepsOn s

/-- R55, R84: `ENC_STREAM` of any values runs through, and what it writes is the stream's layout with the widths SP, whatever the partial flushes. -/
def Obligations.StreamsHaveTheirLayout : Prop :=
  ∀ (vs : List Word) (s : State), vs ≠ [] → vs.length < 2 ^ 32 → s.fault = false → s.cfg.outCap = none →
    ∃ rs t, runInstrs (encStream vs) s = some (rs, t) ∧ t.fault = false ∧ t.enc.flushed = true ∧
      t.enc.ebits = symbolBits (streamSymbols vs)

/-- R95: round trip. Where IN holds, from b on, the bytes that `ENC_STREAM` of the values left in OUT, DEC_INIT answers the first width, the DEC_READs answer
the values in order, and DEC_NEXT_CODE answers the address after the stream. -/
def Obligations.StreamsRoundTrip : Prop :=
  ∀ (vs : List Word) (s t u : State) (rs : List Response) (b : Word), vs ≠ [] → vs.length < 2 ^ 32 →
    s.fault = false → s.cfg.outCap = none → runInstrs (encStream vs) s = some (rs, t) →
    u.fault = false → b.toNat + t.enc.outLen ≤ u.cfg.inSize → b.toNat + t.enc.outLen < 2 ^ 32 →
    (∀ j, j < t.enc.outLen → u.inByte (b.toNat + j) = t.readOut j) →
    ∃ u', runInstrs (.decInit b (BitVec.ofNat 32 t.enc.outLen) :: (List.replicate vs.length .decRead ++ [.decNextCode])) u =
      some ((streamWidth vs 0 :: (vs.map BitVec.toNat ++ [b.toNat + t.enc.outLen])).map fun d => ⟨.ok, BitVec.ofNat 32 d, 0⟩, u')

/-- R96: truncation. Where the span holds all but the last byte of such a stream, one of the N DEC_READs answers FAIL with DEC_TRUNCATED, and every
answer before it is right; a stream of one byte leaves an empty span, and DEC_INIT faults. -/
def Obligations.TruncatedStreamsFail : Prop :=
  ∀ (vs : List Word) (s t u : State) (rs : List Response) (b l : Word), vs ≠ [] → vs.length < 2 ^ 32 →
    s.fault = false → s.cfg.outCap = none → runInstrs (encStream vs) s = some (rs, t) →
    u.fault = false → t.enc.outLen = l.toNat + 1 → t.enc.outLen < 2 ^ 32 → b.toNat + l.toNat ≤ u.cfg.inSize →
    (∀ j, j < l.toNat → u.inByte (b.toNat + j) = t.readOut j) →
    (l = 0 → exec (.decInit b l) u = .next (faulted .decEmptySpan u)) ∧
    (l ≠ 0 → ∃ k v w, k < vs.length ∧
      runInstrs (.decInit b l :: List.replicate k .decRead) u =
        some ((streamWidth vs 0 :: (vs.take k).map BitVec.toNat).map fun d => ⟨.ok, BitVec.ofNat 32 d, 0⟩, v) ∧
      exec .decRead v = .next w ∧ FailedWith .truncated v w)
end

