-- ==== Sys2Proof/Laws/State.lean ====
section
/-! SUPPORT. What each shared update of the state leaves in each field: one lemma per field per update, all by rfl, so that no
proof unfolds a record update. -/

namespace Sys2Proof.Machine

/-! ## respondOk -/

@[simp] theorem respondOk_fault (d : Word) (s : State) : (respondOk d s).fault = s.fault := rfl
@[simp] theorem respondOk_fcause (d : Word) (s : State) : (respondOk d s).fcause = s.fcause := rfl
@[simp] theorem respondOk_enc (d : Word) (s : State) : (respondOk d s).enc = s.enc := rfl
@[simp] theorem respondOk_dec (d : Word) (s : State) : (respondOk d s).dec = s.dec := rfl
@[simp] theorem respondOk_inMem (d : Word) (s : State) : (respondOk d s).inMem = s.inMem := rfl
@[simp] theorem respondOk_cfg (d : Word) (s : State) : (respondOk d s).cfg = s.cfg := rfl
@[simp] theorem respondOk_host (d : Word) (s : State) : (respondOk d s).host = s.host := rfl
@[simp] theorem respondOk_resp (d : Word) (s : State) : (respondOk d s).resp = some ⟨.ok, d, 0⟩ := rfl
@[simp] theorem respondOk_free (d : Word) (s : State) : (respondOk d s).free = s.free := rfl
@[simp] theorem respondOk_outData (d : Word) (s : State) : (respondOk d s).outData = s.outData := rfl

/-! ## respondFault -/

@[simp] theorem respondFault_fault (c : FCause) (s : State) : (respondFault c s).fault = s.fault := rfl
@[simp] theorem respondFault_fcause (c : FCause) (s : State) : (respondFault c s).fcause = s.fcause := rfl
@[simp] theorem respondFault_enc (c : FCause) (s : State) : (respondFault c s).enc = s.enc := rfl
@[simp] theorem respondFault_dec (c : FCause) (s : State) : (respondFault c s).dec = s.dec := rfl
@[simp] theorem respondFault_inMem (c : FCause) (s : State) : (respondFault c s).inMem = s.inMem := rfl
@[simp] theorem respondFault_cfg (c : FCause) (s : State) : (respondFault c s).cfg = s.cfg := rfl
@[simp] theorem respondFault_host (c : FCause) (s : State) : (respondFault c s).host = s.host := rfl
@[simp] theorem respondFault_resp (c : FCause) (s : State) : (respondFault c s).resp = some ⟨.fault, 0, c.code⟩ := rfl
@[simp] theorem respondFault_free (c : FCause) (s : State) : (respondFault c s).free = s.free := rfl
@[simp] theorem respondFault_outData (c : FCause) (s : State) : (respondFault c s).outData = s.outData := rfl

/-! ## respondFail -/

@[simp] theorem respondFail_fault (c : DCause) (s : State) : (respondFail c s).fault = s.fault := rfl
@[simp] theorem respondFail_fcause (c : DCause) (s : State) : (respondFail c s).fcause = s.fcause := rfl
@[simp] theorem respondFail_enc (c : DCause) (s : State) : (respondFail c s).enc = s.enc := rfl
@[simp] theorem respondFail_dec (c : DCause) (s : State) : (respondFail c s).dec = s.dec := rfl
@[simp] theorem respondFail_inMem (c : DCause) (s : State) : (respondFail c s).inMem = s.inMem := rfl
@[simp] theorem respondFail_cfg (c : DCause) (s : State) : (respondFail c s).cfg = s.cfg := rfl
@[simp] theorem respondFail_host (c : DCause) (s : State) : (respondFail c s).host = s.host := rfl
@[simp] theorem respondFail_resp (c : DCause) (s : State) : (respondFail c s).resp = some ⟨.fail, 0, c.code⟩ := rfl
@[simp] theorem respondFail_free (c : DCause) (s : State) : (respondFail c s).free = s.free := rfl
@[simp] theorem respondFail_outData (c : DCause) (s : State) : (respondFail c s).outData = s.outData := rfl

/-! ## raiseFault -/

@[simp] theorem raiseFault_fault (c : FCause) (s : State) : (raiseFault c s).fault = true := rfl
@[simp] theorem raiseFault_fcause (c : FCause) (s : State) : (raiseFault c s).fcause = c := rfl
@[simp] theorem raiseFault_enc (c : FCause) (s : State) : (raiseFault c s).enc = s.enc := rfl
@[simp] theorem raiseFault_dec (c : FCause) (s : State) : (raiseFault c s).dec = s.dec := rfl
@[simp] theorem raiseFault_inMem (c : FCause) (s : State) : (raiseFault c s).inMem = s.inMem := rfl
@[simp] theorem raiseFault_cfg (c : FCause) (s : State) : (raiseFault c s).cfg = s.cfg := rfl
@[simp] theorem raiseFault_host (c : FCause) (s : State) : (raiseFault c s).host = s.host := rfl
@[simp] theorem raiseFault_resp (c : FCause) (s : State) : (raiseFault c s).resp = some ⟨.fault, 0, c.code⟩ := rfl
@[simp] theorem raiseFault_free (c : FCause) (s : State) : (raiseFault c s).free = s.free := rfl
@[simp] theorem raiseFault_outData (c : FCause) (s : State) : (raiseFault c s).outData = s.outData := rfl

/-! ## raiseMidFault -/

@[simp] theorem raiseMidFault_fault (c : FCause) (s : State) : (raiseMidFault c s).fault = true := rfl
@[simp] theorem raiseMidFault_fcause (c : FCause) (s : State) : (raiseMidFault c s).fcause = c := rfl
@[simp] theorem raiseMidFault_enc (c : FCause) (s : State) : (raiseMidFault c s).enc = Enc.unspecified s.free := rfl
@[simp] theorem raiseMidFault_dec (c : FCause) (s : State) : (raiseMidFault c s).dec = s.dec := rfl
@[simp] theorem raiseMidFault_inMem (c : FCause) (s : State) : (raiseMidFault c s).inMem = s.inMem := rfl
@[simp] theorem raiseMidFault_cfg (c : FCause) (s : State) : (raiseMidFault c s).cfg = s.cfg := rfl
@[simp] theorem raiseMidFault_host (c : FCause) (s : State) : (raiseMidFault c s).host = s.host := rfl
@[simp] theorem raiseMidFault_resp (c : FCause) (s : State) : (raiseMidFault c s).resp = some ⟨.fault, 0, c.code⟩ := rfl
@[simp] theorem raiseMidFault_free (c : FCause) (s : State) : (raiseMidFault c s).free = s.free + 1 := rfl
@[simp] theorem raiseMidFault_outData (c : FCause) (s : State) : (raiseMidFault c s).outData = s.outData := rfl

/-! ## halted -/

@[simp] theorem halted_fault (s : State) : (halted s).fault = s.fault := rfl
@[simp] theorem halted_fcause (s : State) : (halted s).fcause = s.fcause := rfl
@[simp] theorem halted_enc (s : State) : (halted s).enc = s.enc := rfl
@[simp] theorem halted_dec (s : State) : (halted s).dec = s.dec := rfl
@[simp] theorem halted_inMem (s : State) : (halted s).inMem = s.inMem := rfl
@[simp] theorem halted_cfg (s : State) : (halted s).cfg = s.cfg := rfl
@[simp] theorem halted_host (s : State) : (halted s).host = s.host := rfl
@[simp] theorem halted_resp (s : State) : (halted s).resp = some ⟨.fault, 0, s.fcause.code⟩ := rfl
@[simp] theorem halted_free (s : State) : (halted s).free = s.free := rfl
@[simp] theorem halted_outData (s : State) : (halted s).outData = s.outData := rfl

/-! ## failedAgain -/

@[simp] theorem failedAgain_fault (s : State) : (failedAgain s).fault = s.fault := rfl
@[simp] theorem failedAgain_fcause (s : State) : (failedAgain s).fcause = s.fcause := rfl
@[simp] theorem failedAgain_enc (s : State) : (failedAgain s).enc = s.enc := rfl
@[simp] theorem failedAgain_dec (s : State) : (failedAgain s).dec = s.dec := rfl
@[simp] theorem failedAgain_inMem (s : State) : (failedAgain s).inMem = s.inMem := rfl
@[simp] theorem failedAgain_cfg (s : State) : (failedAgain s).cfg = s.cfg := rfl
@[simp] theorem failedAgain_host (s : State) : (failedAgain s).host = s.host := rfl
@[simp] theorem failedAgain_resp (s : State) : (failedAgain s).resp = some ⟨.fail, 0, s.dec.dcause.code⟩ := rfl
@[simp] theorem failedAgain_free (s : State) : (failedAgain s).free = s.free := rfl
@[simp] theorem failedAgain_outData (s : State) : (failedAgain s).outData = s.outData := rfl

/-! ## failDecoder -/

@[simp] theorem failDecoder_fault (c : DCause) (s : State) : (failDecoder c s).fault = s.fault := rfl
@[simp] theorem failDecoder_fcause (c : DCause) (s : State) : (failDecoder c s).fcause = s.fcause := rfl
@[simp] theorem failDecoder_enc (c : DCause) (s : State) : (failDecoder c s).enc = s.enc := rfl
@[simp] theorem failDecoder_dec (c : DCause) (s : State) : (failDecoder c s).dec =
    { s.dec with dstate := .failed, dcause := c, pos := Config.freePos s.free, phase := .idle } := rfl
@[simp] theorem failDecoder_inMem (c : DCause) (s : State) : (failDecoder c s).inMem = s.inMem := rfl
@[simp] theorem failDecoder_cfg (c : DCause) (s : State) : (failDecoder c s).cfg = s.cfg := rfl
@[simp] theorem failDecoder_host (c : DCause) (s : State) : (failDecoder c s).host = s.host := rfl
@[simp] theorem failDecoder_resp (c : DCause) (s : State) : (failDecoder c s).resp = some ⟨.fail, 0, c.code⟩ := rfl
@[simp] theorem failDecoder_free (c : DCause) (s : State) : (failDecoder c s).free = s.free + 1 := rfl
@[simp] theorem failDecoder_outData (c : DCause) (s : State) : (failDecoder c s).outData = s.outData := rfl

/-! ## openSpan -/

@[simp] theorem openSpan_fault (b l : Word) (s : State) : (openSpan b l s).fault = s.fault := rfl
@[simp] theorem openSpan_fcause (b l : Word) (s : State) : (openSpan b l s).fcause = s.fcause := rfl
@[simp] theorem openSpan_enc (b l : Word) (s : State) : (openSpan b l s).enc = s.enc := rfl
@[simp] theorem openSpan_dec (b l : Word) (s : State) : (openSpan b l s).dec = { s.dec with base := b, len := l, pos := 0, phase := .header } := rfl
@[simp] theorem openSpan_inMem (b l : Word) (s : State) : (openSpan b l s).inMem = s.inMem := rfl
@[simp] theorem openSpan_cfg (b l : Word) (s : State) : (openSpan b l s).cfg = s.cfg := rfl
@[simp] theorem openSpan_host (b l : Word) (s : State) : (openSpan b l s).host = s.host := rfl
@[simp] theorem openSpan_resp (b l : Word) (s : State) : (openSpan b l s).resp = s.resp := rfl
@[simp] theorem openSpan_free (b l : Word) (s : State) : (openSpan b l s).free = s.free := rfl
@[simp] theorem openSpan_outData (b l : Word) (s : State) : (openSpan b l s).outData = s.outData := rfl

/-! ## startStream -/

@[simp] theorem startStream_fault (w pos : Nat) (s : State) : (startStream w pos s).fault = s.fault := rfl
@[simp] theorem startStream_fcause (w pos : Nat) (s : State) : (startStream w pos s).fcause = s.fcause := rfl
@[simp] theorem startStream_enc (w pos : Nat) (s : State) : (startStream w pos s).enc = s.enc := rfl
@[simp] theorem startStream_dec (w pos : Nat) (s : State) : (startStream w pos s).dec =
    { s.dec with pw := w, cw := w, zc := -1, dstate := .ready, dcause := .none, pos := pos, phase := .idle } := rfl
@[simp] theorem startStream_inMem (w pos : Nat) (s : State) : (startStream w pos s).inMem = s.inMem := rfl
@[simp] theorem startStream_cfg (w pos : Nat) (s : State) : (startStream w pos s).cfg = s.cfg := rfl
@[simp] theorem startStream_host (w pos : Nat) (s : State) : (startStream w pos s).host = s.host := rfl
@[simp] theorem startStream_resp (w pos : Nat) (s : State) : (startStream w pos s).resp = some ⟨.ok, BitVec.ofNat 32 w, 0⟩ := rfl
@[simp] theorem startStream_free (w pos : Nat) (s : State) : (startStream w pos s).free = s.free := rfl
@[simp] theorem startStream_outData (w pos : Nat) (s : State) : (startStream w pos s).outData = s.outData := rfl

/-! ## commitSample -/

@[simp] theorem commitSample_fault (v n : Nat) (z : Int) (pos : Nat) (s : State) : (commitSample v n z pos s).fault = s.fault := rfl
@[simp] theorem commitSample_fcause (v n : Nat) (z : Int) (pos : Nat) (s : State) : (commitSample v n z pos s).fcause = s.fcause := rfl
@[simp] theorem commitSample_enc (v n : Nat) (z : Int) (pos : Nat) (s : State) : (commitSample v n z pos s).enc = s.enc := rfl
@[simp] theorem commitSample_dec (v n : Nat) (z : Int) (pos : Nat) (s : State) : (commitSample v n z pos s).dec =
    { s.dec with pw := s.dec.cw, cw := n, zc := z, pos := pos, phase := .idle } := rfl
@[simp] theorem commitSample_inMem (v n : Nat) (z : Int) (pos : Nat) (s : State) : (commitSample v n z pos s).inMem = s.inMem := rfl
@[simp] theorem commitSample_cfg (v n : Nat) (z : Int) (pos : Nat) (s : State) : (commitSample v n z pos s).cfg = s.cfg := rfl
@[simp] theorem commitSample_host (v n : Nat) (z : Int) (pos : Nat) (s : State) : (commitSample v n z pos s).host = s.host := rfl
@[simp] theorem commitSample_resp (v n : Nat) (z : Int) (pos : Nat) (s : State) : (commitSample v n z pos s).resp = some
    ⟨.ok, BitVec.ofNat 32 v, 0⟩ := rfl
@[simp] theorem commitSample_free (v n : Nat) (z : Int) (pos : Nat) (s : State) : (commitSample v n z pos s).free = s.free := rfl
@[simp] theorem commitSample_outData (v n : Nat) (z : Int) (pos : Nat) (s : State) : (commitSample v n z pos s).outData = s.outData := rfl

/-! ## hardwareReset -/

@[simp] theorem hardwareReset_fault (s : State) : (hardwareReset s).fault = false := rfl
@[simp] theorem hardwareReset_fcause (s : State) : (hardwareReset s).fcause = .none := rfl
@[simp] theorem hardwareReset_enc (s : State) : (hardwareReset s).enc = .fresh := rfl
@[simp] theorem hardwareReset_dec (s : State) : (hardwareReset s).dec = .reset := rfl
@[simp] theorem hardwareReset_inMem (s : State) : (hardwareReset s).inMem = s.inMem := rfl
@[simp] theorem hardwareReset_cfg (s : State) : (hardwareReset s).cfg = s.cfg := rfl
@[simp] theorem hardwareReset_host (s : State) : (hardwareReset s).host = s.host := rfl
@[simp] theorem hardwareReset_resp (s : State) : (hardwareReset s).resp = none := rfl
@[simp] theorem hardwareReset_free (s : State) : (hardwareReset s).free = s.free := rfl
@[simp] theorem hardwareReset_outData (s : State) : (hardwareReset s).outData = none := rfl

/-! ## The result of an encoder operation -/

@[simp] theorem encResult_error (c : FCause) (f : Enc → Word) (s : State) : encResult (.error c) f s = raiseMidFault c s := rfl

@[simp] theorem encResult_ok (e : Enc) (f : Enc → Word) (s : State) :
    encResult (.ok e) f s = respondOk (f e) { s with enc := e } := rfl

/-! ## The halt and the decoder's modes -/

@[simp] theorem whenRunning_running {s : State} (h : s.fault = false) (body : Host.Outcome State Fault Refusal) :
    whenRunning s body = body := by simp [whenRunning, h]

@[simp] theorem whenRunning_halted {s : State} (h : s.fault = true) (body : Host.Outcome State Fault Refusal) :
    whenRunning s body = .next (halted s) := by simp [whenRunning, h]

/-- All that `whenRunning` can do: the halt while FAULT = 1, else the body. -/
theorem whenRunning_cases (s : State) (body : Host.Outcome State Fault Refusal) :
    (s.fault = true ∧ whenRunning s body = .next (halted s)) ∨ (s.fault = false ∧ whenRunning s body = body) := by
  cases h : s.fault <;> simp [h]

@[simp] theorem whenReady_ready {s : State} (h : s.dec.dstate = .ready) (body : Host.Outcome State Fault Refusal) :
    whenReady s body = body := by simp [whenReady, h]

@[simp] theorem whenReady_failed {s : State} (h : s.dec.dstate = .failed) (body : Host.Outcome State Fault Refusal) :
    whenReady s body = .next (failedAgain s) := by simp [whenReady, h]

@[simp] theorem whenReady_uninit {s : State} (h : s.dec.dstate = .uninit) (body : Host.Outcome State Fault Refusal) :
    whenReady s body = .next (raiseFault .decNotInit s) := by simp [whenReady, h]

/-- All that `whenReady` can do, by DSTATE. -/
theorem whenReady_cases (s : State) (body : Host.Outcome State Fault Refusal) :
    (s.dec.dstate = .uninit ∧ whenReady s body = .next (raiseFault .decNotInit s)) ∨
    (s.dec.dstate = .failed ∧ whenReady s body = .next (failedAgain s)) ∨
    (s.dec.dstate = .ready ∧ whenReady s body = body) := by
  cases h : s.dec.dstate <;> simp [h]

/-! ## Sequences of operations that can fail -/

/-- From a failing sequence of two operations, one of them failed. -/
theorem bind_error {α β ε : Type} {x : Except ε α} {f : α → Except ε β} {r : ε} (h : (x >>= f) = .error r) :
    x = .error r ∨ ∃ a, x = .ok a ∧ f a = .error r := by
  cases x with
  | error r' => left; simpa [Bind.bind, Except.bind] using h
  | ok a => exact .inr ⟨a, rfl, h⟩

/-- From a succeeding sequence of two operations, both succeeded. -/
theorem bind_ok {α β ε : Type} {x : Except ε α} {f : α → Except ε β} {b : β} (h : (x >>= f) = .ok b) :
    ∃ a, x = .ok a ∧ f a = .ok b := by
  cases x with
  | error r' => simp [Bind.bind, Except.bind] at h
  | ok a => exact ⟨a, rfl, h⟩

end Sys2Proof.Machine
end

