-- ==== Sys2Proof/Laws/Memory.lean ====
section
/-! SUPPORT. The laws of a byte memory: a write is read back, it leaves every other address alone, and it keeps the canonical
form. Equal memories are equal data (`Memory.ext`). -/

namespace Sys2Proof.Machine

@[simp] theorem Memory.read_nil (a : Nat) : Memory.read [] a = none := rfl

@[simp] theorem Memory.wf_nil : Memory.wf [] = true := rfl

/-- Reading the address just written gives the byte written, in every memory. -/
@[simp] theorem Memory.read_write_same (m : Memory) (a : Nat) (b : Byte) : (m.write a b).read a = some b := by
  induction m with
  | nil => simp [Memory.write, Memory.read]
  | cons c m ih =>
    simp only [Memory.write]
    split_ifs with h1 h2
    · simp [Memory.read]
    · simp [Memory.read]
    · simp only [Memory.read]; rw [if_neg (fun h => h2 h.symm), ih]

/-- A write leaves every other address alone. -/
theorem Memory.read_write_other (m : Memory) {a a' : Nat} (b : Byte) (h : a' ≠ a) : (m.write a b).read a' = m.read a' := by
  induction m with
  | nil => simp [Memory.write, Memory.read, Ne.symm h]
  | cons c m ih =>
    simp only [Memory.write]
    split_ifs with h1 h2
    · simp [Memory.read, Ne.symm h]
    · subst h2; simp [Memory.read, Ne.symm h]
    · simp only [Memory.read, ih]

/-- A write, read at any address. -/
theorem Memory.read_write (m : Memory) (a a' : Nat) (b : Byte) :
    (m.write a b).read a' = if a' = a then some b else m.read a' := by
  split_ifs with h
  · subst h; simp
  · exact Memory.read_write_other m b h

/-- The canonical form, by its head. -/
theorem Memory.wf_cons (c : Host.Cell) (m : Memory) :
    Memory.wf (c :: m) = true ↔ (∀ d ∈ m.head?, c.1 < d.1) ∧ Memory.wf m = true := by
  cases m <;> simp [Memory.wf]

/-- In a canonical memory no entry lies below the head. -/
theorem Memory.read_below (c : Host.Cell) (m : Memory) (h : Memory.wf (c :: m) = true) {a : Nat} (ha : a < c.1) :
    Memory.read (c :: m) a = none := by
  induction m generalizing c with
  | nil => simp [Memory.read, Nat.ne_of_gt ha]
  | cons d m ih =>
    rw [Memory.wf_cons] at h
    have hd : c.1 < d.1 := h.1 d (by simp)
    have hr := ih d h.2 (Nat.lt_trans ha hd)
    simp only [Memory.read, Nat.ne_of_gt ha, if_false] at hr ⊢
    exact hr

/-- The head of a memory after a write. -/
theorem Memory.head_write (m : Memory) (a : Nat) (b : Byte) : ∀ d ∈ (m.write a b).head?, d.1 = a ∨ ∃ c ∈ m.head?, d.1 = c.1 := by
  cases m with
  | nil => simp [Memory.write]
  | cons c m =>
    simp only [Memory.write]
    split_ifs with h1 h2 <;> simp

/-- Every write keeps the canonical form. -/
theorem Memory.wf_write (m : Memory) (a : Nat) (b : Byte) (h : m.wf = true) : (m.write a b).wf = true := by
  induction m with
  | nil => rfl
  | cons c m ih =>
    rw [Memory.wf_cons] at h
    simp only [Memory.write]
    split_ifs with h1 h2
    · simp only [Memory.wf_cons]
      exact ⟨by simpa using h1, h⟩
    · subst h2
      rw [Memory.wf_cons]
      exact h
    · rw [Memory.wf_cons]
      refine ⟨fun d hd => ?_, ih h.2⟩
      rcases Memory.head_write m a b d hd with hd | ⟨e, he, hd⟩
      · omega
      · rw [hd]; exact h.1 e he

/-- Canonical memories that read the same everywhere are the same data. -/
theorem Memory.ext (m n : Memory) (hm : m.wf = true) (hn : n.wf = true) (h : ∀ a, m.read a = n.read a) : m = n := by
  induction m generalizing n with
  | nil =>
    cases n with
    | nil => rfl
    | cons d n => have := h d.1; simp [Memory.read] at this
  | cons c m ih =>
    cases n with
    | nil => have := h c.1; simp [Memory.read] at this
    | cons d n =>
      have hcd : c.1 = d.1 := by
        rcases Nat.lt_trichotomy c.1 d.1 with hlt | heq | hgt
        · have := h c.1; rw [Memory.read_below d n hn hlt] at this; simp [Memory.read] at this
        · exact heq
        · have := h d.1; rw [Memory.read_below c m hm hgt] at this; simp [Memory.read] at this
      have hc2 : c.2 = d.2 := by have := h c.1; simpa [Memory.read, hcd] using this
      have hcd' : c = d := Prod.ext hcd hc2
      subst hcd'
      have hm' := (Memory.wf_cons c m).1 hm
      have hn' := (Memory.wf_cons c n).1 hn
      have below (l : Memory) (hl : (∀ d ∈ l.head?, c.1 < d.1) ∧ Memory.wf l = true) : Memory.read l c.1 = none := by
        cases l with
        | nil => rfl
        | cons e l => exact Memory.read_below e l hl.2 (hl.1 e (by simp))
      rw [ih n hm'.2 hn'.2 fun a => ?_]
      by_cases ha : a = c.1
      · subst ha; rw [below m hm', below n hn']
      · have := h a; simpa [Memory.read, Ne.symm ha] using this

/-! ## The host's view of OUT (R36) -/

theorem outHas_iff (cap : Option Nat) (a : Nat) : outHas cap a = true ↔ ∀ n, cap = some n → a < n := by
  cases cap <;> simp [outHas]

/-- A byte that OUT holds below OUT_LEN of a finished stream is what the host reads. -/
theorem readOut_finished {s : State} {a : Nat} {b : Byte} (hf : s.enc.flushed = true) (ha : a < s.enc.outLen)
    (h : s.enc.out.read a = some b) : s.readOut a = b := by
  simp [State.readOut, State.finishedByte, hf, ha, h]

end Sys2Proof.Machine
end

