-- ==== Sys2Proof/Laws/Bits.lean ====
section
/-! SUPPORT. Fields of stream bits (R13, R39), bit-widths (R62) and `ceil8`. -/

namespace Sys2Proof

@[simp] theorem fieldBits_zero (v : Nat) : fieldBits 0 v = [] := rfl

@[simp] theorem fieldBits_length (c v : Nat) : (fieldBits c v).length = c := by
  induction c generalizing v with
  | zero => rfl
  | succ c ih => simp [fieldBits, ih]

/-- Bit i of a field is v[i] (R39). -/
theorem fieldBits_getElem? (c v i : Nat) (h : i < c) : (fieldBits c v)[i]? = some (v.testBit i) := by
  induction c generalizing v i with
  | zero => omega
  | succ c ih =>
    cases i with
    | zero => simp [fieldBits, Nat.testBit_zero]; rfl
    | succ i => simp [fieldBits, ih (v / 2) i (by omega), Nat.testBit_succ]

/-- A field holds the low c bits of its value. -/
theorem fieldVal_fieldBits (c v : Nat) : fieldVal (fieldBits c v) = v % 2 ^ c := by
  induction c generalizing v with
  | zero => simp [fieldVal, Nat.mod_one]
  | succ c ih =>
    have h2 : (v % 2 == 1).toNat = v % 2 := by rcases Nat.mod_two_eq_zero_or_one v with h | h <;> simp [h]
    rw [fieldBits, fieldVal, ih, h2, pow_succ, Nat.mul_comm (2 ^ c) 2, Nat.mod_mul]

theorem fieldVal_fieldBits_of_lt {c v : Nat} (h : v < 2 ^ c) : fieldVal (fieldBits c v) = v := by
  rw [fieldVal_fieldBits, Nat.mod_eq_of_lt h]

theorem fieldVal_lt (bits : List Bool) : fieldVal bits < 2 ^ bits.length := by
  induction bits with
  | nil => simp [fieldVal]
  | cons b bits ih => cases b <;> (simp only [fieldVal, List.length_cons, pow_succ, Bool.toNat_true, Bool.toNat_false]; omega)

/-- Bits are the field of their value. -/
theorem fieldBits_fieldVal (bits : List Bool) : fieldBits bits.length (fieldVal bits) = bits := by
  induction bits with
  | nil => rfl
  | cons b bits ih =>
    have h1 : (b.toNat + 2 * fieldVal bits) % 2 = b.toNat := by cases b <;> simp
    have h2 : (b.toNat + 2 * fieldVal bits) / 2 = fieldVal bits := by cases b <;> simp only [Bool.toNat_true, Bool.toNat_false] <;> omega
    simp only [List.length_cons, fieldBits, fieldVal, h1, h2, ih]
    cases b <;> rfl

theorem fieldVal_append (xs ys : List Bool) : fieldVal (xs ++ ys) = fieldVal xs + 2 ^ xs.length * fieldVal ys := by
  induction xs with
  | nil => simp [fieldVal]
  | cons b xs ih => simp [fieldVal, ih, pow_succ]; ring

namespace Machine

@[simp] theorem bitwidth_zero : bitwidth 0 = 0 := rfl

/-- `bitwidth(v) <= c` says that v fits c bits (R62). -/
theorem bitwidth_le_iff (v c : Nat) : bitwidth v ≤ c ↔ v < 2 ^ c := by
  unfold bitwidth
  split_ifs with h
  · subst h; simp
  · rw [Nat.succ_le_iff, Nat.log2_lt h]

theorem bitwidth_word_le (v : Word) : bitwidth v.toNat ≤ 32 := (bitwidth_le_iff _ _).2 v.isLt

theorem bitwidth_pos {v : Nat} (h : v ≠ 0) : 0 < bitwidth v := by simp [bitwidth, h]

/-- The top bit of a value stands at `bitwidth(v) - 1` (R58, R62). -/
theorem pow_bitwidth_le {v : Nat} (h : v ≠ 0) : 2 ^ (bitwidth v - 1) ≤ v := by
  have := bitwidth_pos h
  by_contra hc
  have := (bitwidth_le_iff v (bitwidth v - 1)).2 (by omega)
  omega

theorem lt_pow_bitwidth (v : Nat) : v < 2 ^ bitwidth v := (bitwidth_le_iff v _).1 le_rfl

/-- A bit-width is known from its two bounds. -/
theorem bitwidth_eq {v k : Nat} (h1 : 2 ^ k ≤ v) (h2 : v < 2 ^ (k + 1)) : bitwidth v = k + 1 := by
  have h3 := (bitwidth_le_iff v (k + 1)).2 h2
  have h4 : ¬ bitwidth v ≤ k := fun h => absurd ((bitwidth_le_iff v k).1 h) (by omega)
  omega

@[simp] theorem ceil8_zero : ceil8 0 = 0 := rfl

/-- `ceil8` in terms of the complete bytes. -/
theorem ceil8_eq (n : Nat) : ceil8 n = if n % 8 = 0 then n / 8 else n / 8 + 1 := by
  unfold ceil8; split_ifs <;> omega

theorem ceil8_le_iff (n k : Nat) : ceil8 n ≤ k ↔ n ≤ 8 * k := by unfold ceil8; omega

theorem ceil8_mono {m n : Nat} (h : m ≤ n) : ceil8 m ≤ ceil8 n := by unfold ceil8; omega

end Machine

end Sys2Proof
end

