-- ==== Sys2Proof/Laws/Decode.lean ====
section
/-! SUPPORT. The wire decoder and the symbols' bits (R56 to R61): what it reads is what was written, and nothing else. -/

namespace Sys2Proof

theorem takeField_append {c : Nat} (xs rest : List Bool) (h : xs.length = c) :
    takeField c (xs ++ rest) = .ok (fieldVal xs, rest) := by
  subst h; simp [takeField]

/-- A field written and read back, where its value fits it. -/
theorem takeField_fieldBits {c v : Nat} (h : v < 2 ^ c) (rest : List Bool) :
    takeField c (fieldBits c v ++ rest) = .ok (v, rest) := by
  rw [takeField_append _ _ (fieldBits_length c v), fieldVal_fieldBits_of_lt h]

/-- All that taking a field can do when it succeeds. -/
theorem takeField_ok {c v : Nat} {bits rest : List Bool} (h : takeField c bits = .ok (v, rest)) :
    v < 2 ^ c ∧ bits = fieldBits c v ++ rest := by
  unfold takeField at h
  split_ifs at h with hl
  cases h
  have hlen : (bits.take c).length = c := by simp; omega
  have h1 := fieldVal_lt (bits.take c)
  have h2 := fieldBits_fieldVal (bits.take c)
  rw [hlen] at h1 h2
  exact ⟨h1, by rw [h2, List.take_append_drop]⟩

/-- A field fails in one way only. -/
theorem takeField_error {c : Nat} {bits : List Bool} {r : WireReject} (h : takeField c bits = .error r) :
    r = .truncated ∧ bits.length < c := by
  unfold takeField at h
  split_ifs at h with hl
  cases h
  exact ⟨rfl, hl⟩

/-- A run code is read back after its k prefix zeros. -/
theorem decodeRun_bits (j k x : Nat) (hk : j + k ≤ 31) (hx : x < 2 ^ (j + k)) (rest : List Bool) :
    decodeRun j (List.replicate k false ++ true :: fieldBits (j + k) x ++ rest) = .ok (.zr (j + k) x, rest) := by
  induction k generalizing j with
  | zero =>
    simp only [List.replicate_zero, List.nil_append, List.cons_append, decodeRun, Nat.add_zero] at hx ⊢
    rw [takeField_fieldBits hx]
  | succ k ih =>
    simp only [List.replicate_succ, List.cons_append, decodeRun]
    rw [if_neg (by simp [Config.maxRunPrefix]; omega)]
    have := ih (j + 1) (by omega) (by rwa [show j + 1 + k = j + (k + 1) by omega])
    rw [show j + 1 + k = j + (k + 1) by omega] at this
    exact this

/-- What the run decoder takes is a run code's bits. -/
theorem decodeRun_ok {j : Nat} {bits rest : List Bool} {σ : Symbol} (hj : j ≤ 31) (h : decodeRun j bits = .ok (σ, rest)) :
    ∃ k x, σ = .zr (j + k) x ∧ j + k ≤ 31 ∧ x < 2 ^ (j + k) ∧
      bits = List.replicate k false ++ true :: fieldBits (j + k) x ++ rest := by
  induction bits generalizing j with
  | nil => cases h
  | cons b bits ih =>
    cases b with
    | true =>
      simp only [decodeRun] at h
      split at h
      · cases h
      · rename_i x rest' hx
        cases h
        obtain ⟨h1, h2⟩ := takeField_ok hx
        exact ⟨0, x, rfl, hj, h1, by simp [h2]⟩
    | false =>
      simp only [decodeRun] at h
      split_ifs at h with hp
      obtain ⟨k, x, h1, h2, h3, h4⟩ := ih (j := j + 1) (by simp [Config.maxRunPrefix] at hp; omega) h
      rw [show j + 1 + k = j + (k + 1) by omega] at h1 h2 h3 h4
      exact ⟨k + 1, x, h1, h2, h3, by simp [h4, List.replicate_succ]⟩

/-- A well-formed symbol is read back wherever it can stand (R60). -/
theorem decodeSymbol_bits {σ : Symbol} {ctx : Context} (hw : σ.wf = true) (hf : σ.fits ctx = true) (rest : List Bool) :
    decodeSymbol ctx (σ.bits ++ rest) = .ok (σ, rest) := by
  cases σ with
  | hdr5 h =>
    cases ctx <;> simp [Symbol.fits] at hf
    have hlt : h < 31 := by simpa [Symbol.wf, Config.headerEscape] using hw
    simp only [decodeSymbol, decodeHeader, Symbol.bits]
    rw [takeField_fieldBits (by omega)]
    simp [Config.headerEscape]; omega
  | hdr31 => cases ctx <;> simp [Symbol.fits] at hf; rfl
  | hdr32 => cases ctx <;> simp [Symbol.fits] at hf; rfl
  | trSame => cases ctx <;> simp [Symbol.fits] at hf; rfl
  | trUp => cases ctx <;> simp [Symbol.fits] at hf; rfl
  | trDown => cases ctx <;> simp [Symbol.fits] at hf; rfl
  | zr k x =>
    cases ctx <;> simp [Symbol.fits] at hf
    have hw' : k ≤ 31 ∧ x < 2 ^ k := by simpa [Symbol.wf, Config.maxRunPrefix] using hw
    have := decodeRun_bits 0 k x (by omega) (by simpa using hw'.2) rest
    rw [Nat.zero_add] at this
    exact this
  | valFull c v =>
    cases ctx <;> simp [Symbol.fits] at hf
    rename_i p c' n
    obtain ⟨rfl, hf⟩ := hf
    have hw' : (1 ≤ c' ∧ c' ≤ 32) ∧ v < 2 ^ c' := by simpa [Symbol.wf, Config.maxWidth] using hw
    simp only [decodeSymbol, decodeValue, Symbol.bits]
    rw [if_neg (by omega), if_neg (by omega), takeField_fieldBits hw'.2]
  | valElided c v =>
    cases ctx <;> simp [Symbol.fits] at hf
    rename_i p c' n
    obtain ⟨rfl, hf⟩ := hf
    have hw' : (1 ≤ c' ∧ c' ≤ 32) ∧ v < 2 ^ (c' - 1) := by simpa [Symbol.wf, Config.maxWidth] using hw
    simp only [decodeSymbol, decodeValue, Symbol.bits]
    rw [if_neg (by omega), if_pos hf, takeField_fieldBits hw'.2]

/-- What the wire decoder takes is the bits of a symbol that can stand there; the value context names the width (R60). -/
theorem decodeSymbol_ok {ctx : Context} {bits rest : List Bool} {σ : Symbol} (h : decodeSymbol ctx bits = .ok (σ, rest))
    (hc : ∀ p c n, ctx = .value p c n → c ≤ 32) : σ.wf = true ∧ σ.fits ctx = true ∧ bits = σ.bits ++ rest := by
  cases ctx with
  | header =>
    simp only [decodeSymbol, decodeHeader] at h
    split at h
    · cases h
    · rename_i w r hw
      obtain ⟨h1, h2⟩ := takeField_ok hw
      split_ifs at h with he
      · subst he
        split at h
        · cases h
        · cases h; exact ⟨rfl, rfl, by simp [h2, Symbol.bits, Config.headerEscape]⟩
        · cases h; exact ⟨rfl, rfl, by simp [h2, Symbol.bits, Config.headerEscape]⟩
      · cases h
        exact ⟨by simp [Symbol.wf, Config.headerEscape] at he ⊢; omega, rfl, h2⟩
  | trans =>
    simp only [decodeSymbol] at h
    unfold decodeTrans at h
    split at h <;> cases h <;> exact ⟨rfl, rfl, rfl⟩
  | run =>
    obtain ⟨k, x, rfl, h2, h3, h4⟩ := decodeRun_ok (by omega) h
    simp only [Nat.zero_add] at h2 h3 h4 ⊢
    exact ⟨by simp [Symbol.wf, Config.maxRunPrefix, h2, h3], rfl, h4⟩
  | value p c n =>
    have hc' := hc p c n rfl
    simp only [decodeSymbol, decodeValue] at h
    split_ifs at h with h0 he
    · split at h
      · cases h
      · rename_i v r hv
        cases h
        obtain ⟨h1, h2⟩ := takeField_ok hv
        exact ⟨by simp [Symbol.wf, Config.maxWidth, h1]; omega, by simp [Symbol.fits, he], h2⟩
    · split at h
      · cases h
      · rename_i v r hv
        cases h
        obtain ⟨h1, h2⟩ := takeField_ok hv
        exact ⟨by simp [Symbol.wf, Config.maxWidth, h1]; omega, by simp [Symbol.fits]; omega, h2⟩

/-- The wire decoder names a row of the opcode table for every symbol it reads. -/
theorem decodeWire_ok {ctx : Context} {bits rest : List Bool} {i : Instr} (h : decodeWire ctx bits = .ok (i, rest)) :
    ∃ σ, decodeSymbol ctx bits = .ok (σ, rest) ∧ σ.instr? = some i := by
  unfold decodeWire at h
  split at h
  · cases h
  · rename_i σ r hs
    split at h
    · cases h
    · rename_i i' hi
      cases h
      exact ⟨σ, hs, hi⟩

/-! ## Symbols and the rows of the opcode table -/

/-- A well-formed instruction has a well-formed symbol. -/
theorem symbol?_wf {i : Instr} {σ} (hw : i.wf = true) (h : i.symbol? = some σ) : σ.wf = true := by
  have key : ∀ {k : Nat} (x : BitVec k), k ≤ 31 → (Symbol.zr k x.toNat).wf = true := fun {k} x hk => by
    simp [Symbol.wf, Config.maxRunPrefix, x.isLt, hk]
  have key2 : ∀ {c : Nat} (v : BitVec c), 1 ≤ c → c ≤ 32 → (Symbol.valFull c v.toNat).wf = true := fun {c} v h1 hc => by
    simp [Symbol.wf, Config.maxWidth, v.isLt, h1, hc]
  have key3 : ∀ {c : Nat} (v : BitVec (c-1)), 1 ≤ c → c ≤ 32 → (Symbol.valElided c v.toNat).wf = true := fun {c} v h1 hc => by
    simp [Symbol.wf, Config.maxWidth, v.isLt, h1, hc]
  cases i
  case hdr5 x =>
    cases h
    have h1 : x.toNat ≠ 31 := by simpa [Instr.wf, Config.headerEscape] using hw
    have := x.isLt
    simp [Symbol.wf, Config.headerEscape]; omega
  case zr0 => cases h; rfl
  case valElided1 => cases h; rfl
  all_goals cases h
  all_goals first
    | rfl
    | exact key _ (by decide)
    | exact key2 _ (by decide) (by decide)
    | exact key3 (c := _ + 1) _ (by decide) (by decide)

theorem toNat_ofNat_of_lt {k x : Nat} (h : x < 2 ^ k) : (BitVec.ofNat k x).toNat = x := by simp [Nat.mod_eq_of_lt h]

/-- The row of a well-formed symbol is a well-formed instruction that has the symbol. -/
theorem instr?_symbol? {i : Instr} {σ : Symbol} (hw : σ.wf = true) (h : σ.instr? = some i) :
    i.symbol? = some σ ∧ i.wf = true := by
  cases σ with
  | hdr5 w =>
    cases h
    have : w < 31 := by simpa [Symbol.wf, Config.headerEscape] using hw
    have h2 : (BitVec.ofNat 5 w).toNat = w := toNat_ofNat_of_lt (by omega)
    simp only [Instr.symbol?, Instr.wf, h2, Config.headerEscape]; simp; omega
  | hdr31 => cases h; exact ⟨rfl, rfl⟩
  | hdr32 => cases h; exact ⟨rfl, rfl⟩
  | trSame => cases h; exact ⟨rfl, rfl⟩
  | trUp => cases h; exact ⟨rfl, rfl⟩
  | trDown => cases h; exact ⟨rfl, rfl⟩
  | zr k x =>
    obtain ⟨h1, h2⟩ : k ≤ 31 ∧ x < 2 ^ k := by simpa [Symbol.wf, Config.maxRunPrefix] using hw
    have h3 := toNat_ofNat_of_lt h2
    interval_cases k
    · cases h; have : x = 0 := by omega
      subst this; exact ⟨rfl, rfl⟩
    all_goals (cases h; exact ⟨congrArg (fun y => some (Symbol.zr _ y)) h3, rfl⟩)
  | valFull c x =>
    obtain ⟨⟨h0, h1⟩, h2⟩ : (1 ≤ c ∧ c ≤ 32) ∧ x < 2 ^ c := by simpa [Symbol.wf, Config.maxWidth] using hw
    have h3 := toNat_ofNat_of_lt h2
    interval_cases c
    all_goals (cases h; exact ⟨congrArg (fun y => some (Symbol.valFull _ y)) h3, rfl⟩)
  | valElided c x =>
    obtain ⟨⟨h0, h1⟩, h2⟩ : (1 ≤ c ∧ c ≤ 32) ∧ x < 2 ^ (c-1) := by simpa [Symbol.wf, Config.maxWidth] using hw
    have h3 := toNat_ofNat_of_lt h2
    interval_cases c
    · cases h; have : x = 0 := by omega
      subst this; exact ⟨rfl, rfl⟩
    all_goals (cases h; exact ⟨congrArg (fun y => some (Symbol.valElided _ y)) h3, rfl⟩)

/-- No row stands for a width above 32. -/
theorem instr?_none {c v : Nat} (h : 32 < c) : (Symbol.valFull c v).instr? = none ∧ (Symbol.valElided c v).instr? = none := by
  constructor
  · show Symbol.fullInstr? c v = none
    unfold Symbol.fullInstr?
    split <;> first | rfl | omega
  · show Symbol.elidedInstr? c v = none
    unfold Symbol.elidedInstr?
    split <;> first | rfl | omega

/-- All that the wire decoder can answer when it finds an instruction (R60). -/
theorem decodeWire_symbol {ctx : Context} {bits rest : List Bool} {i : Instr} (h : decodeWire ctx bits = .ok (i, rest)) :
    ∃ σ, decodeSymbol ctx bits = .ok (σ, rest) ∧ i.symbol? = some σ ∧ i.wf = true ∧ σ.wf = true ∧
      σ.fits ctx = true ∧ bits = σ.bits ++ rest := by
  obtain ⟨σ, h1, h2⟩ := decodeWire_ok h
  have hc : ∀ p c n, ctx = .value p c n → c ≤ 32 := by
    rintro p c n rfl
    by_contra hc
    simp only [decodeSymbol, decodeValue] at h1
    split_ifs at h1
    · cases hh : takeField (c-1) bits <;> rw [hh] at h1 <;> cases h1
      rw [(instr?_none (by omega)).2] at h2; cases h2
    · cases hh : takeField (c) bits <;> rw [hh] at h1 <;> cases h1
      rw [(instr?_none (by omega)).1] at h2; cases h2
  obtain ⟨a, b, c⟩ := decodeSymbol_ok h1 hc
  obtain ⟨d, e⟩ := instr?_symbol? a h2
  exact ⟨σ, h1, d, e, a, b, c⟩

end Sys2Proof
end

