-- ==== Sys2Proof/Laws/Decoder.lean ====
section
/-! SUPPORT. The decoder's steps, each said once: they read the span's bits as the wire decoder does, move the cursor past the
symbol, and fail where the wire decoder finds none (R42, R86 to R91). -/

namespace Sys2Proof.Machine

/-! ## The bits of the span -/

@[simp] theorem inBits_length (s : State) (b c : Nat) : (s.inBits b c).length = c := by
  induction c generalizing b with
  | zero => rfl
  | succ c ih => simp [State.inBits, ih]

theorem inBits_append (s : State) (b c d : Nat) : s.inBits b (c + d) = s.inBits b c ++ s.inBits (b + c) d := by
  induction c generalizing b with
  | zero => simp [State.inBits]
  | succ c ih =>
    rw [show c + 1 + d = (c + d) + 1 by omega, State.inBits, State.inBits, ih (b + 1)]
    simp [Nat.add_comm 1 c, Nat.add_assoc]

theorem inBits_getElem? (s : State) (b c i : Nat) (h : i < c) : (s.inBits b c)[i]? = some (s.inBit (b + i)) := by
  induction c generalizing b i with
  | zero => omega
  | succ c ih =>
    cases i with
    | zero => simp [State.inBits]
    | succ i => simp only [State.inBits, List.getElem?_cons_succ]; rw [ih (b + 1) i (by omega)]; congr 2; omega

/-- The bits depend on the span's base and IN alone. -/
theorem inBits_congr (s t : State) (b c : Nat) (h : ∀ i, i < c → s.inBit (b + i) = t.inBit (b + i)) :
    s.inBits b c = t.inBits b c := by
  induction c generalizing b with
  | zero => rfl
  | succ c ih =>
    have h0 : s.inBit b = t.inBit b := by simpa using h 0 (by omega)
    rw [State.inBits, State.inBits, h0, ih (b + 1) fun i hi => by have := h (i + 1) (by omega); rwa [← Nat.add_assoc, Nat.add_right_comm] at this]

/-- The span lies inside IN (R86). -/
def InSpan (s : State) : Prop := s.dec.base.toNat + s.dec.len.toNat ≤ s.cfg.inSize

/-- The span's bits from the cursor `pos` on. -/
def bitsFrom (s : State) (pos : Nat) : List Bool := s.inBits pos (8 * s.dec.len.toNat - pos)

theorem restBits_eq (s : State) : restBits s = bitsFrom s s.dec.pos := rfl

/-- The span's bits depend on BASE, LEN and IN alone. -/
theorem bitsFrom_congr {s t : State} (hb : t.dec.base = s.dec.base) (hl : t.dec.len = s.dec.len) (hm : t.inMem = s.inMem) (pos : Nat) :
    bitsFrom t pos = bitsFrom s pos := by
  unfold bitsFrom
  rw [hl]
  exact inBits_congr _ _ _ _ fun i _ => by simp only [State.inBit, State.inByte, hb, hm]

theorem bitsFrom_split (s : State) {pos c : Nat} (h : pos + c ≤ 8 * s.dec.len.toNat) :
    bitsFrom s pos = s.inBits pos c ++ bitsFrom s (pos + c) := by
  unfold bitsFrom
  rw [← inBits_append]; congr 1; omega

theorem bitsFrom_length (s : State) (pos : Nat) : (bitsFrom s pos).length = 8 * s.dec.len.toNat - pos := inBits_length _ _ _

/-! ## SrcRead (R42) -/

theorem srcRead_ok {s : State} (hs : InSpan s) {pos c : Nat} (h : pos + c ≤ 8 * s.dec.len.toNat) :
    srcRead s pos c = .ok (fieldVal (s.inBits pos c), pos + c) := by
  unfold srcRead
  unfold InSpan at hs
  by_cases hc : c = 0
  · subst hc; simp [State.inBits, fieldVal]
  · rw [if_neg hc, if_neg (by omega), if_neg (by omega)]

theorem srcRead_truncated {s : State} {pos c : Nat} (hc : c ≠ 0) (h : 8 * s.dec.len.toNat < pos + c) :
    srcRead s pos c = .error (.fail .truncated) := by
  unfold srcRead; rw [if_neg hc, if_pos h]

/-- A decoder step that reads bits, as the wire decoder reads them. -/
theorem srcRead_eq {s : State} (hs : InSpan s) (pos c : Nat) :
    srcRead s pos c = match takeField c (bitsFrom s pos) with
      | .error _ => .error (.fail .truncated)
      | .ok (v, _) => .ok (v, pos + c) := by
  unfold takeField
  rw [bitsFrom_length]
  by_cases h : 8 * s.dec.len.toNat - pos < c
  · rw [if_pos h, srcRead_truncated (by omega) (by omega)]
  · rw [if_neg h]
    by_cases hp : pos + c ≤ 8 * s.dec.len.toNat
    · rw [srcRead_ok hs hp, bitsFrom_split s hp, List.take_left' (inBits_length _ _ _)]
    · have hc : c = 0 := by omega
      subst hc; simp [srcRead, fieldVal]

/-- What taking a field leaves is the span from the cursor it moved to. -/
theorem takeField_bitsFrom {s : State} {pos c v : Nat} {rest : List Bool} (h : takeField c (bitsFrom s pos) = .ok (v, rest)) :
    rest = bitsFrom s (pos + c) ∧ (c ≠ 0 → pos + c ≤ 8 * s.dec.len.toNat) := by
  unfold takeField at h
  rw [bitsFrom_length] at h
  split_ifs at h with hc
  cases h
  by_cases hp : pos + c ≤ 8 * s.dec.len.toNat
  · exact ⟨by rw [bitsFrom_split s hp, List.drop_left' (inBits_length _ _ _)], fun _ => hp⟩
  · have hc : c = 0 := by omega
    subst hc; simp

theorem bitsFrom_nil {s : State} {pos : Nat} (h : bitsFrom s pos = []) : 8 * s.dec.len.toNat ≤ pos := by
  have := bitsFrom_length s pos; rw [h] at this; simp at this; omega

/-- The next bit of the span, when there is one. -/
theorem bitsFrom_cons {s : State} {pos : Nat} {b : Bool} {rest : List Bool} (h : bitsFrom s pos = b :: rest) :
    pos + 1 ≤ 8 * s.dec.len.toNat ∧ b = s.inBit pos ∧ rest = bitsFrom s (pos + 1) := by
  have hl := bitsFrom_length s pos
  rw [h] at hl
  have hp : pos + 1 ≤ 8 * s.dec.len.toNat := by simp at hl; omega
  have hs := bitsFrom_split s hp
  rw [h] at hs
  simp [State.inBits] at hs
  exact ⟨hp, hs.1, hs.2⟩

theorem srcRead_one {s : State} (hs : InSpan s) {pos : Nat} (h : pos + 1 ≤ 8 * s.dec.len.toNat) :
    srcRead s pos 1 = .ok ((s.inBit pos).toNat, pos + 1) := by
  rw [srcRead_ok hs h]; simp [State.inBits, fieldVal]

/-! ## The steps (R86 to R91) -/

/-- How a decoder operation ends where the wire decoder finds no symbol (R61). -/
def rejectStop : WireReject → DecStop
  | .truncated => .fail .truncated
  | .runPrefix => .fail .runPrefix
  | .noSymbol => .fail .truncated

/-- TransStep, by the transition symbol at the cursor (R88). -/
theorem transStep_eq {s : State} (hs : InSpan s) (c pos : Nat) :
    transStep s c pos = match decodeTrans (bitsFrom s pos) with
      | .error _ => .error (.fail .truncated)
      | .ok (.trSame, _) => .ok (c, pos + 1)
      | .ok (.trUp, _) => if 32 < c + 1 then .error (.fail .widthOverflow) else .ok (c + 1, pos + 2)
      | .ok (_, _) => .ok (c - 1, pos + 2) := by
  unfold transStep
  cases hb : bitsFrom s pos with
  | nil =>
    rw [srcRead_truncated (by omega) (by have := bitsFrom_nil hb; omega)]; rfl
  | cons b rest =>
    obtain ⟨h1, h2, h3⟩ := bitsFrom_cons hb
    rw [srcRead_one hs h1, ← h2]
    cases b with
    | false => rfl
    | true =>
      simp only [Bind.bind, Except.bind, Bool.toNat_true, Nat.one_ne_zero, if_false]
      cases hr : rest with
      | nil =>
        rw [hr] at h3
        rw [srcRead_truncated (by omega) (by have := bitsFrom_nil h3.symm; omega)]; rfl
      | cons b' rest' =>
        rw [hr] at h3
        obtain ⟨h4, h5, h6⟩ := bitsFrom_cons h3.symm
        rw [srcRead_one hs h4, ← h5]
        cases b' <;> rfl

/-- The prefix loop and the suffix of RunStep, by the zero-run symbol at the cursor, after k prefix zeros (R90). -/
theorem runPrefix_eq {s : State} (hs : InSpan s) (fuel k pos : Nat) (hf : fuel + k = 32) (hk : k ≤ 31) :
    (runPrefix s fuel k pos >>= fun r => srcRead s r.2 r.1 >>= fun x => .ok (runStart (2 ^ r.1 + x.1), x.2)) =
      match decodeRun k (bitsFrom s pos) with
      | .error r => .error (rejectStop r)
      | .ok (.zr k' x, _) => .ok (runStart (2 ^ k' + x), pos + (k' - k) + 1 + k')
      | .ok (_, _) => .error (.fail .truncated) := by
  induction fuel generalizing k pos with
  | zero => omega
  | succ fuel ih =>
    rw [runPrefix]
    cases hb : bitsFrom s pos with
    | nil =>
      rw [srcRead_truncated (by omega) (by have := bitsFrom_nil hb; omega)]; rfl
    | cons b rest =>
      obtain ⟨h1, h2, h3⟩ := bitsFrom_cons hb
      rw [srcRead_one hs h1, ← h2]
      cases b with
      | true =>
        simp only [Bind.bind, Except.bind, Bool.toNat_true, Nat.one_ne_zero, if_false, decodeRun]
        rw [srcRead_eq hs, ← h3]
        cases hx : takeField k rest with
        | error r => rw [(takeField_error hx).1]; rfl
        | ok p => simp
      | false =>
        simp only [Bind.bind, Except.bind, Bool.toNat_false, if_true, decodeRun, Config.maxRunPrefix]
        by_cases hp : 31 < k + 1
        · simp [hp, rejectStop]
        · rw [if_neg hp, if_neg hp]
          have := ih (k + 1) (pos + 1) (by omega) (by omega)
          simp only [Bind.bind, Except.bind] at this
          rw [this, ← h3]
          cases hd : decodeRun (k + 1) rest with
          | error r => rfl
          | ok p =>
            obtain ⟨σ, r⟩ := p
            obtain ⟨k', x, rfl, -, -, -⟩ := decodeRun_ok (by omega) hd
            simp; omega

/-- RunStep, by the zero-run symbol at the cursor (R90). -/
theorem runStep_eq {s : State} (hs : InSpan s) (pos : Nat) :
    runStep s pos = match decodeRun 0 (bitsFrom s pos) with
      | .error r => .error (rejectStop r)
      | .ok (.zr k x, _) => .ok (runStart (2 ^ k + x), pos + (2 * k + 1))
      | .ok (_, _) => .error (.fail .truncated) := by
  have := runPrefix_eq hs 32 0 pos (by omega) (by omega)
  unfold runStep
  refine Eq.trans this ?_
  cases hd : decodeRun 0 (bitsFrom s pos) with
  | error r => rfl
  | ok p =>
    obtain ⟨σ, r⟩ := p
    obtain ⟨k', x, rfl, -, -, -⟩ := decodeRun_ok (by omega) hd
    simp; omega

/-- ValueStep of a sample of width > 0, by the value symbol at the cursor (R91). -/
theorem valueStep_eq {s : State} (hs : InSpan s) (p c n pos : Nat) (hc : c ≠ 0) :
    valueStep s p c n pos = match decodeValue p c n (bitsFrom s pos) with
      | .error _ => .error (.fail .truncated)
      | .ok (.valElided _ v, _) => .ok (v + 2 ^ (c - 1), pos + (c - 1))
      | .ok (.valFull _ v, _) => .ok (v, pos + c)
      | .ok (_, _) => .error (.fail .truncated) := by
  unfold valueStep decodeValue
  rw [if_neg hc]
  by_cases he : p ≤ c ∧ n ≤ c
  · rw [if_pos ⟨by omega, he⟩, if_pos he, srcRead_eq hs]
    cases takeField (c - 1) (bitsFrom s pos) <;> rfl
  · rw [if_neg (by tauto), if_neg he, srcRead_eq hs]
    cases takeField c (bitsFrom s pos) <;> rfl

/-- A sample of width 0 reads no value bits (R91). -/
theorem valueStep_zero (s : State) (p n pos : Nat) : valueStep s p 0 n pos = .ok (0, pos) := by
  simp [valueStep, srcRead]

/-- The header, by the header symbol at the start of the span (R86). -/
theorem readHeader_eq {s : State} (hs : InSpan s) :
    readHeader s = match decodeHeader (bitsFrom s s.dec.pos) with
      | .error _ => .error (.fail .truncated)
      | .ok (.hdr5 h, _) => .ok (h, s.dec.pos + 5)
      | .ok (.hdr31, _) => .ok (31, s.dec.pos + 6)
      | .ok (_, _) => .ok (32, s.dec.pos + 6) := by
  unfold readHeader decodeHeader
  rw [srcRead_eq hs]
  cases hf : takeField 5 (bitsFrom s s.dec.pos) with
  | error r => rfl
  | ok p =>
    obtain ⟨h, rest⟩ := p
    obtain ⟨hr, -⟩ := takeField_bitsFrom hf
    simp only [Bind.bind, Except.bind]
    by_cases he : h = Config.headerEscape
    · rw [if_pos he, if_pos he]
      cases hb : rest with
      | nil =>
        rw [hb] at hr
        rw [srcRead_truncated (by omega) (by have := bitsFrom_nil hr.symm; omega)]
      | cons b rest' =>
        rw [hb] at hr
        obtain ⟨h4, h5, h6⟩ := bitsFrom_cons hr.symm
        rw [srcRead_one hs h4, ← h5]
        cases b <;> rfl
    · rw [if_neg he, if_neg he]

theorem inBits_one (s : State) (pos : Nat) : s.inBits pos 1 = [s.inBit pos] := rfl

/-- A run code that stands at the cursor, after j prefix zeros, is what the wire decoder reads. -/
theorem decodeRun_code {s : State} (k pos : Nat) (j : Nat) (hk : j + k ≤ 31) (h0 : ∀ i, i < k → s.inBit (pos + i) = false)
    (h1 : s.inBit (pos + k) = true)
    (hl : pos + k + 1 + (j+k) ≤ 8 * s.dec.len.toNat) : 
    decodeRun j (bitsFrom s pos) = .ok (.zr (j+k) (fieldVal (s.inBits (pos + k + 1) (j+k))), bitsFrom s (pos + k + 1 + (j+k))) := by
  induction k generalizing j pos with
  | zero =>
    rw [bitsFrom_split s (c := 1) (by omega)]
    have h1' : s.inBit pos = true := h1
    simp only [State.inBits, h1', List.cons_append, List.nil_append, decodeRun, Nat.add_zero]
    rw [bitsFrom_split s (c := j) (by omega), takeField_append _ _ (inBits_length _ _ _)]
  | succ k ih =>
    rw [bitsFrom_split s (c := 1) (by omega)]
    have h0' : s.inBit pos = false := h0 0 (by omega)
    rw [show s.inBits pos 1 = [s.inBit pos] from rfl]
    simp only [h0', List.cons_append, List.nil_append, decodeRun]
    rw [if_neg (by simp [Config.maxRunPrefix]; omega)]
    rw [ih (pos+1) (j+1) (by omega) (fun i hi => by have := h0 (i+1) (by omega); rwa
        [show pos + (i+1) = pos + 1 + i by omega] at this) (by rwa [show pos + (k+1) = pos + 1 + k by omega] at h1) (by omega)]
    rw [show pos + 1 + k = pos + (k+1) by omega, show j + 1 + k = j + (k+1) by omega]

/-- Prefix zeros at the cursor: the 32nd is rejected (R90). -/
theorem decodeRun_zeros {s : State} (k pos j : Nat) (hk : j + k ≤ 32) (hj : j ≤ 31) (h0 : ∀ i, i < k → s.inBit (pos + i) = false)
    (hl : pos + k ≤ 8 * s.dec.len.toNat) : 
    decodeRun j (bitsFrom s pos) = if j + k = 32 then .error .runPrefix else decodeRun (j+k) (bitsFrom s (pos+k)) := by
  induction k generalizing j pos with
  | zero => rw [if_neg (by omega)]; rfl
  | succ k ih =>
    rw [bitsFrom_split s (c := 1) (by omega)]
    have h0' : s.inBit pos = false := h0 0 (by omega)
    simp only [State.inBits, h0', List.cons_append, List.nil_append, decodeRun, Config.maxRunPrefix]
    by_cases hj' : 31 < j + 1
    · rw [if_pos hj', if_pos (by omega)]
    rw [if_neg hj', ih (pos+1) (j+1) (by omega) (by omega) (fun i hi => by have := h0 (i+1) (by omega); rwa
        [show pos + (i+1) = pos + 1 + i by omega] at this) (by omega)]
    rw [show pos + 1 + k = pos + (k+1) by omega, show j + 1 + k = j + (k+1) by omega]

/-! ## One sample (R87 to R91) -/

/-- The first sample of a zero run. -/
theorem readSample_run {s : State} (hs : InSpan s) (hc : s.dec.cw = 0) (hz : s.dec.zc < 0) : readSample s =
   match decodeRun 0 (restBits s) with
      | .error r => .error (rejectStop r)
      | .ok (.zr k x, _) => .ok (0, runStart (2 ^ k + x), s.dec.pos + (2 * k + 1))
      | .ok (_, _) => .error (.fail .truncated) := by
  unfold readSample widthStep
  rw [if_neg (by simp [hc]), if_neg (by omega), runStep_eq hs, restBits_eq]
  cases hd : decodeRun 0 (bitsFrom s s.dec.pos) with
  | error r => rfl
  | ok p =>
    obtain ⟨σ, r⟩ := p
    obtain ⟨k', x, rfl, -, -, -⟩ := decodeRun_ok (by omega) hd
    simp [Bind.bind, Except.bind, hc, valueStep_zero]

/-- A later sample of a zero run. -/
theorem readSample_count {s : State} (hc : s.dec.cw = 0) (hz : 0 ≤ s.dec.zc) : readSample s =
   .ok (0, countdownStep s.dec.zc, s.dec.pos) := by
  unfold readSample widthStep
  rw [if_neg (by simp [hc]), if_pos hz]
  simp [Bind.bind, Except.bind, hc, valueStep_zero, countdownStep]

/-- A sample of width > 0. -/
theorem readSample_trans {s : State} (hc : s.dec.cw ≠ 0) : readSample s =
   (transStep s s.dec.cw s.dec.pos >>= fun r => valueStep s s.dec.pw s.dec.cw r.1 r.2 >>= fun q => .ok (q.1, (r.1, s.dec.zc), q.2)) := by
  unfold readSample widthStep
  rw [if_pos hc]
  cases transStep s s.dec.cw s.dec.pos <;> rfl

/-! ## How a decoder command ends early -/

/-- What a failure leaves (R103). -/
theorem failedWith (c s) : FailedWith c s (failDecoder c s) := ⟨rfl,rfl,rfl,rfl,rfl,rfl,rfl,rfl,rfl,rfl,rfl,rfl,rfl,rfl,rfl,rfl⟩

/-- Every decoder operation inside the span ends early by a failure of one of the three causes, never at a hole of IN. -/
def decoderStop (r : DecStop) : Prop := r = .fail .truncated ∨ r = .fail .widthOverflow ∨ r = .fail .runPrefix

theorem rejectStop_decoderStop (r : WireReject) : decoderStop (rejectStop r) := by cases r <;> simp [decoderStop, rejectStop]

theorem stop_of_srcRead {s : State} (hs : InSpan s) {pos c r} (h : srcRead s pos c = .error r) : decoderStop r := by
  rw [srcRead_eq hs] at h
  split at h <;> cases h; simp [decoderStop]

/-- Every way a sample inside the span can end early. -/
theorem stop_of_readSample {s : State} (hs : InSpan s) {r : DecStop} (h : readSample s = .error r) : decoderStop r := by
  by_cases hc : s.dec.cw = 0
  · by_cases hz : 0 ≤ s.dec.zc
    · rw [readSample_count hc hz] at h; cases h
    · rw [readSample_run hs hc (by omega)] at h
      split at h <;> cases h
      · exact rejectStop_decoderStop _
      · simp [decoderStop]
  · rw [readSample_trans hc] at h
    rcases bind_error h with h | ⟨q, -, h⟩
    · rw [transStep_eq hs] at h
      split at h
      · cases h; simp [decoderStop]
      · cases h
      · split_ifs at h; cases h; simp [decoderStop]
      · cases h
    · rcases bind_error h with h | ⟨q, -, h⟩
      · rw [valueStep_eq hs _ _ _ _ hc] at h
        split at h <;> cases h <;> simp [decoderStop]
      · cases h

/-- Every way a header inside the span can end early. -/
theorem stop_of_readHeader {s : State} (hs : InSpan s) {r : DecStop} (h : readHeader s = .error r) : decoderStop r := by
  rw [readHeader_eq hs] at h
  split at h <;> cases h
  simp [decoderStop]

/-! In every state, inside IN or not, a failure has one of the three causes. -/

theorem fail_of_srcRead {s : State} {pos k : Nat} {c : DCause} (h : srcRead s pos k = .error (.fail c)) : decoderStop (.fail c) := by
  unfold srcRead at h
  split_ifs at h
  · cases h; simp [decoderStop]
  · cases h

theorem fail_of_transStep {s : State} {w pos : Nat} {c : DCause} (h : transStep s w pos = .error (.fail c)) :
    decoderStop (.fail c) := by
  unfold transStep at h
  rcases bind_error h with h | ⟨q, -, h⟩
  · exact fail_of_srcRead h
  · dsimp only at h
    by_cases h0 : q.1 = 0
    · rw [if_pos h0] at h; cases h
    rw [if_neg h0] at h
    rcases bind_error h with h | ⟨q, -, h⟩
    · exact fail_of_srcRead h
    · by_cases h1 : q.1 = 1
      · rw [if_pos h1] at h
        split_ifs at h
        cases h; simp [decoderStop]
      · rw [if_neg h1] at h; cases h

theorem fail_of_runPrefix {s : State} {fuel k pos : Nat} {c : DCause} (h : runPrefix s fuel k pos = .error (.fail c)) :
    decoderStop (.fail c) := by
  induction fuel generalizing k pos with
  | zero => cases h; simp [decoderStop]
  | succ fuel ih =>
    rw [runPrefix] at h
    rcases bind_error h with h | ⟨q, -, h⟩
    · exact fail_of_srcRead h
    · dsimp only at h
      split_ifs at h
      · cases h; simp [decoderStop]
      · exact ih h

theorem fail_of_readSample {s : State} {c : DCause} (h : readSample s = .error (.fail c)) : decoderStop (.fail c) := by
  unfold readSample at h
  rcases bind_error h with h | ⟨q, -, h⟩
  · unfold widthStep at h
    split_ifs at h
    · rcases bind_error h with h | ⟨q, -, h⟩
      · exact fail_of_transStep h
      · cases h
    · unfold runStep at h
      rcases bind_error h with h | ⟨q, -, h⟩
      · exact fail_of_runPrefix h
      · rcases bind_error h with h | ⟨q, -, h⟩
        · exact fail_of_srcRead h
        · cases h
  · dsimp only at h
    rcases bind_error h with h | ⟨q, -, h⟩
    · unfold valueStep at h
      split_ifs at h
      · rcases bind_error h with h | ⟨q, -, h⟩
        · exact fail_of_srcRead h
        · cases h
      · exact fail_of_srcRead h
    · cases h

theorem fail_of_readHeader {s : State} {c : DCause} (h : readHeader s = .error (.fail c)) : decoderStop (.fail c) := by
  unfold readHeader at h
  rcases bind_error h with h | ⟨q, -, h⟩
  · exact fail_of_srcRead h
  · by_cases h0 : q.1 = Config.headerEscape
    · simp only [if_pos h0] at h
      rcases bind_error h with h | ⟨q, -, h⟩
      · exact fail_of_srcRead h
      · cases h
    · simp only [if_neg h0] at h; cases h

/-- A decoder operation's early end is a failure. -/
theorem decoderStop.next {r : DecStop} (h : decoderStop r) (s : State) :
    ∃ c, r = .fail c ∧ stopDecoder r s = .next (failDecoder c s) ∧ c ≠ .none ∧ c ≠ .widthUnderflow := by
  rcases h with rfl | rfl | rfl <;> exact ⟨_, rfl, rfl, by decide, by decide⟩

/-! ## What the decoder's steps depend on: DEC, IN_SIZE and the span's bytes of IN (R15, R35, R42) -/

/-- t has the decoder of s, its parameters, and its bytes of the span. -/
structure SameSource (s t : State) : Prop where
  dec : t.dec = s.dec
  cfg : t.cfg = s.cfg
  inByte : ∀ a, s.dec.base.toNat ≤ a → a < s.dec.base.toNat + s.dec.len.toNat → t.inByte a = s.inByte a

theorem srcRead_congr {s t : State} (h : SameSource s t) (pos c : Nat) : srcRead t pos c = srcRead s pos c := by
  unfold srcRead
  rw [h.dec, h.cfg]
  split_ifs with h0 h1 h2
  · rfl
  · rfl
  · rfl
  · rw [inBits_congr t s pos c fun i hi => ?_]
    unfold State.inBit
    rw [h.dec, h.inByte _ (by omega) (by omega)]

theorem transStep_congr {s t : State} (h : SameSource s t) (c pos : Nat) : transStep t c pos = transStep s c pos := by
  simp only [transStep, srcRead_congr h]

theorem runPrefix_congr {s t : State} (h : SameSource s t) (fuel k pos : Nat) :
    runPrefix t fuel k pos = runPrefix s fuel k pos := by
  induction fuel generalizing k pos with
  | zero => rfl
  | succ fuel ih => simp only [runPrefix, srcRead_congr h, ih]

theorem readSample_congr {s t : State} (h : SameSource s t) : readSample t = readSample s := by
  simp only [readSample, widthStep, runStep, valueStep, srcRead_congr h, transStep_congr h, runPrefix_congr h, h.dec]

theorem readHeader_congr {s t : State} (h : SameSource s t) : readHeader t = readHeader s := by
  simp only [readHeader, srcRead_congr h, h.dec]

/-! ## The wire symbols (R56 to R59) -/

/-- Every wire symbol's meaning is the shared one. -/
theorem exec_symbol {i : Instr} {σ} (h : i.symbol? = some σ) (s : State) : exec i s = takeSymbol σ s := by
  cases i <;> cases h <;> rfl

end Sys2Proof.Machine
end

