-- ==== Sys2Proof/Laws/Smoother.lean ====
section
/-! SUPPORT. The width smoother: what `Profile` computes, as bounds (R64 to R66, R69), and that windows agree with the whole
stream (R70).

A width is known from the bounds it meets (`W[i] <= x`), so every fact here is stated as an equivalence of such bounds. -/

namespace Sys2Proof.Machine

/-- The bit-width of the value at index j. -/
abbrev widthAt (B : List Word) (j : Nat) : Nat := bitwidth (B.getD j 0).toNat

theorem widthAt_le (B : List Word) (j : Nat) : widthAt B j ≤ 32 := bitwidth_word_le _

@[simp] theorem forwardPass_length (p : Nat) (B : List Word) : (forwardPass p B).length = B.length := by
  induction B generalizing p with
  | nil => rfl
  | cons v B ih => simp [forwardPass, ih]

@[simp] theorem backwardPass_length (r : Nat) (f : List Nat) : (backwardPass r f).length = f.length + 1 := by
  induction f with
  | nil => rfl
  | cons a f ih => simp [backwardPass, ih]

@[simp] theorem profile_length (B : List Word) (p : Nat) (final : Bool) : (profile B p final).length = B.length + 1 := by
  simp [profile]

/-- The forward pass (R64), as bounds. -/
theorem forwardPass_le_iff (B : List Word) (p i x : Nat) (hi : i < B.length) :
    (forwardPass p B).getD i 0 ≤ x ↔ p ≤ x + (i + 1) ∧ ∀ j, j ≤ i → widthAt B j ≤ x + (i - j) := by
  induction B generalizing p i with
  | nil => simp at hi
  | cons v B ih =>
    cases i with
    | zero =>
      simp only [forwardPass, List.getD_cons_zero, Nat.le_zero_eq, forall_eq, max_le_iff, Nat.sub_self, widthAt]
      constructor <;> (rintro ⟨h1, h2⟩; constructor <;> omega)
    | succ i =>
      simp only [forwardPass, List.getD_cons_succ]
      rw [ih _ i (by simpa using hi)]
      constructor
      · rintro ⟨h1, h2⟩
        refine ⟨by omega, fun j hj => ?_⟩
        cases j with
        | zero => simp only [widthAt, List.getD_cons_zero]; omega
        | succ j =>
          have := h2 j (by omega)
          simp only [widthAt, List.getD_cons_succ] at this ⊢
          omega
      · rintro ⟨h1, h2⟩
        refine ⟨?_, fun j hj => ?_⟩
        · have := h2 0 (by omega)
          simp only [widthAt, List.getD_cons_zero] at this
          omega
        · have := h2 (j + 1) (by omega)
          simp only [widthAt, List.getD_cons_succ] at this ⊢
          omega

/-- The backward pass (R66), as bounds. -/
theorem backwardPass_le_iff (r : Nat) (f : List Nat) (i x : Nat) (hi : i ≤ f.length) :
    (backwardPass r f).getD i 0 ≤ x ↔
      r ≤ x + (f.length - i) ∧ ∀ k, i ≤ k → k < f.length → f.getD k 0 ≤ x + (k - i) := by
  induction f generalizing i x with
  | nil => simp at hi; subst hi; simp [backwardPass]
  | cons a f ih =>
    have hhead (y : Nat) : (backwardPass r f).headD 0 ≤ y ↔ (backwardPass r f).getD 0 0 ≤ y := by
      cases h : backwardPass r f <;> simp
    cases i with
    | zero =>
      simp only [backwardPass, List.getD_cons_zero, max_le_iff]
      have h1 : (backwardPass r f).headD 0 - 1 ≤ x ↔ (backwardPass r f).headD 0 ≤ x + 1 := by omega
      rw [h1, hhead, ih 0 (x + 1) (by omega)]
      constructor
      · rintro ⟨ha, hr, hf⟩
        refine ⟨by simp only [List.length_cons]; omega, fun k _ hk => ?_⟩
        cases k with
        | zero => simpa using ha
        | succ k =>
          have := hf k (by omega) (by simpa using hk)
          simp only [List.getD_cons_succ]; omega
      · rintro ⟨hr, hf⟩
        refine ⟨by simpa using hf 0 le_rfl (by simp), by simp only [List.length_cons] at hr; omega, fun k _ hk => ?_⟩
        have := hf (k + 1) (by omega) (by simpa using hk)
        simp only [List.getD_cons_succ] at this; omega
    | succ i =>
      simp only [backwardPass, List.getD_cons_succ, List.length_cons]
      rw [ih i x (by simpa using hi)]
      constructor
      · rintro ⟨hr, hf⟩
        refine ⟨by omega, fun k hk hk' => ?_⟩
        obtain ⟨k, rfl⟩ : ∃ m, k = m + 1 := ⟨k - 1, by omega⟩
        have := hf k (by omega) (by omega)
        simp only [List.getD_cons_succ]; omega
      · rintro ⟨hr, hf⟩
        refine ⟨by omega, fun k hk hk' => ?_⟩
        have := hf (k + 1) (by omega) (by omega)
        simp only [List.getD_cons_succ] at this; omega

theorem rightBoundary_final (f : List Nat) : rightBoundary f true = f.getD (f.length - 1) 0 := by
  simp [rightBoundary, List.getLastD_eq_getLast?, List.getLast?_eq_getElem?, List.getD_eq_getElem?_getD]

/-- The closed form of a width of a window (R69), as bounds: it holds for a final and for a partial flush. -/
theorem profile_le_iff (B : List Word) (p : Nat) (final : Bool) (i x : Nat) (hi : i < B.length) :
    (profile B p final).getD i 0 ≤ x ↔
      p ≤ x + (i + 1) ∧ ∀ j, j < B.length → widthAt B j ≤ x + ((i - j) + (j - i)) := by
  have hlen : 0 < B.length := by omega
  unfold profile
  rw [backwardPass_le_iff _ _ _ _ (by simp; omega)]
  simp only [forwardPass_length]
  have hr (hf : ∀ k, i ≤ k → k < B.length → (forwardPass p B).getD k 0 ≤ x + (k - i)) :
      rightBoundary (forwardPass p B) final ≤ x + (B.length - i) := by
    cases final with
    | false => simp [rightBoundary]
    | true =>
      rw [rightBoundary_final, forwardPass_length]
      have := hf (B.length - 1) (by omega) (by omega)
      omega
  constructor
  · rintro ⟨_, hf⟩
    refine ⟨((forwardPass_le_iff B p i _ hi).1 (by simpa using hf i le_rfl hi)).1, fun j hj => ?_⟩
    by_cases hij : i ≤ j
    · have := ((forwardPass_le_iff B p j _ hj).1 (hf j hij hj)).2 j le_rfl
      omega
    · have := ((forwardPass_le_iff B p i _ hi).1 (by simpa using hf i le_rfl hi)).2 j (by omega)
      omega
  · rintro ⟨hp, hw⟩
    have hf : ∀ k, i ≤ k → k < B.length → (forwardPass p B).getD k 0 ≤ x + (k - i) := by
      intro k hik hk
      rw [forwardPass_le_iff B p k _ hk]
      refine ⟨by omega, fun j hj => ?_⟩
      have := hw j (by omega)
      omega
    exact ⟨hr hf, hf⟩

/-- The sentinel of the final flush is the last width (R65). -/
theorem profile_sentinel (B : List Word) (p : Nat) (h : 0 < B.length) :
    (profile B p true).getD B.length 0 = (profile B p true).getD (B.length - 1) 0 := by
  have key (y : Nat) : (profile B p true).getD B.length 0 ≤ y ↔ (profile B p true).getD (B.length - 1) 0 ≤ y := by
    rw [profile_le_iff B p true (B.length - 1) y (by omega)]
    unfold profile
    rw [backwardPass_le_iff _ _ _ _ (by simp)]
    simp only [forwardPass_length, Nat.sub_self, Nat.add_zero]
    rw [rightBoundary_final, forwardPass_length, forwardPass_le_iff B p _ y (by omega)]
    constructor
    · rintro ⟨⟨h1, h2⟩, _⟩
      exact ⟨h1, fun j hj => by have := h2 j (by omega); omega⟩
    · rintro ⟨h1, h2⟩
      exact ⟨⟨h1, fun j hj => by have := h2 j (by omega); omega⟩, fun k hk hk' => by omega⟩
  exact le_antisymm ((key _).2 le_rfl) ((key _).1 le_rfl)

/-- The whole stream's widths (R69), as bounds. -/
theorem streamWidth_le_iff (vs : List Word) (i x : Nat) (hi : i < vs.length) :
    streamWidth vs i ≤ x ↔ ∀ j, j < vs.length → widthAt vs j ≤ x + ((i - j) + (j - i)) := by
  have hk : min i (vs.length - 1) = i := by omega
  have fold (l : List Nat) : l.foldr max 0 ≤ x ↔ ∀ a ∈ l, a ≤ x := by
    induction l with
    | nil => simp
    | cons a l ih => simp [ih]
  unfold streamWidth
  rw [hk]
  simp only [fold, List.mem_map, List.mem_range, forall_exists_index, and_imp, forall_apply_eq_imp_iff₂]
  refine forall₂_congr fun j _ => ?_
  unfold widthAt
  omega

theorem streamWidth_sentinel (vs : List Word) (i : Nat) (h : vs.length - 1 ≤ i) :
    streamWidth vs i = streamWidth vs (vs.length - 1) := by
  have h1 : min i (vs.length - 1) = min (vs.length - 1) (vs.length - 1) := by omega
  unfold streamWidth; rw [h1]

/-- The width carried into the window that starts at sample g (R63, R70). -/
def carriedWidth (vs : List Word) (g : Nat) : Nat := if g = 0 then 0 else streamWidth vs (g - 1)

/-- Chunk invariance (R70): the widths of a window that starts at sample g are the widths of the whole stream, as far as no
sample after the window can reach. -/
theorem profile_window (vs : List Word) (g s i : Nat) (final : Bool) (hs : g + s ≤ vs.length) (hi : i < s)
    (hfar : vs.length = g + s ∨ i + 32 ≤ s) :
    (profile ((vs.drop g).take s) (carriedWidth vs g) final).getD i 0 = streamWidth vs (g + i) := by
  have hlen : ((vs.drop g).take s).length = s := by simp; omega
  have hget (j : Nat) (hj : j < s) : widthAt ((vs.drop g).take s) j = widthAt vs (g + j) := by
    simp [widthAt, List.getD_eq_getElem?_getD, hj]
  have key (x : Nat) :
      (profile ((vs.drop g).take s) (carriedWidth vs g) final).getD i 0 ≤ x ↔ streamWidth vs (g + i) ≤ x := by
    rw [profile_le_iff _ _ _ _ _ (by omega), streamWidth_le_iff _ _ _ (by omega), hlen]
    constructor
    · rintro ⟨hp, hw⟩ j hj
      by_cases hjg : j < g
      · have hg : carriedWidth vs g = streamWidth vs (g - 1) := by simp [carriedWidth]; omega
        have := (streamWidth_le_iff vs (g - 1) _ (by omega)).1 (hg ▸ hp) j hj
        omega
      · by_cases hjs : j < g + s
        · have := hw (j - g) (by omega)
          rw [hget _ (by omega), show g + (j - g) = j by omega] at this
          omega
        · have := widthAt_le vs j
          omega
    · intro hw
      refine ⟨?_, fun j hj => ?_⟩
      · unfold carriedWidth
        split_ifs with hg
        · omega
        · rw [streamWidth_le_iff _ _ _ (by omega)]
          intro j hj
          have := hw j hj
          omega
      · rw [hget j hj]
        have := hw (g + j) (by omega)
        omega
  exact le_antisymm ((key _).2 le_rfl) ((key _).1 le_rfl)

end Sys2Proof.Machine
end

