-- ==== Sys2Proof/Laws/Encoder.lean ====
section
/-! SUPPORT. The encoder's operations, each said once.

Every write is `Enc.put` of some bits, guarded once by the capacity of the last of them (`sinkBits`); the internal operations are
`sinkBits` of the bits of the wire symbols they stand for (R55 to R59), and the loop of FlushSome is `sampleSymbols`. -/

namespace Sys2Proof.Machine

/-! ## Appending bits (R24, R40) -/

/-- Append bits, in order. -/
def Enc.put (e : Enc) (bits : List Bool) : Enc := bits.foldl appendBit e

@[simp] theorem put_nil (e : Enc) : e.put [] = e := rfl

theorem put_cons (e : Enc) (b : Bool) (bits : List Bool) : e.put (b :: bits) = (appendBit e b).put bits := rfl

@[simp] theorem put_put (e : Enc) (xs ys : List Bool) : (e.put xs).put ys = e.put (xs ++ ys) := by
  simp [Enc.put, List.foldl_append]

@[simp] theorem put_ebits (e : Enc) (bits : List Bool) : (e.put bits).ebits = e.ebits ++ bits := by
  induction bits generalizing e with
  | nil => simp
  | cons b bits ih => rw [put_cons, ih]; simp [appendBit]

/-- Appending bits changes EBITS and OUT only. -/
theorem put_eq (e : Enc) (bits : List Bool) :
    e.put bits = { e with ebits := e.ebits ++ bits, out := (e.put bits).out } := by
  induction bits generalizing e with
  | nil => simp
  | cons b bits ih => rw [put_cons, ih]; simp [appendBit]

@[simp] theorem put_buf (e : Enc) (bits : List Bool) : (e.put bits).buf = e.buf := by rw [put_eq]
@[simp] theorem put_mrw (e : Enc) (bits : List Bool) : (e.put bits).mrw = e.mrw := by rw [put_eq]
@[simp] theorem put_started (e : Enc) (bits : List Bool) : (e.put bits).started = e.started := by rw [put_eq]
@[simp] theorem put_flushed (e : Enc) (bits : List Bool) : (e.put bits).flushed = e.flushed := by rw [put_eq]
@[simp] theorem put_nz (e : Enc) (bits : List Bool) : (e.put bits).nz = e.nz := by rw [put_eq]
@[simp] theorem put_outLen (e : Enc) (bits : List Bool) : (e.put bits).outLen = e.outLen := by rw [put_eq]

/-- What is appended does not depend on the fields that are not the sink's. -/
theorem put_out_congr (e f : Enc) (bits : List Bool) (hb : e.ebits = f.ebits) (ho : e.out = f.out) :
    (e.put bits).out = (f.put bits).out := by
  induction bits generalizing e f with
  | nil => exact ho
  | cons b bits ih => rw [put_cons, put_cons]; exact ih _ _ (by simp [appendBit, hb]) (by simp [appendBit, hb, ho])

/-! ## The bytes of OUT (R24, R36, R40, R41) -/

/-- A byte of the stream depends on its own eight bits only. -/
theorem streamByte_append (xs ys : List Bool) (j : Nat) (h : j < xs.length / 8) : streamByte (xs ++ ys) j = streamByte xs j := by
  unfold streamByte
  rw [List.drop_append_of_le_length (by omega), List.take_append_of_le_length (by simp; omega)]

/-- Appending bits writes OUT exactly at the bytes they complete (R40). -/
theorem put_out_read (e : Enc) (bits : List Bool) (j : Nat) :
    (e.put bits).out.read j =
      if e.ebits.length / 8 ≤ j ∧ j < (e.ebits.length + bits.length) / 8 then some (streamByte (e.ebits ++ bits) j)
      else e.out.read j := by
  induction bits generalizing e with
  | nil => rw [if_neg (by simp)]; rfl
  | cons b bits ih =>
    rw [put_cons, ih]
    have hb : (appendBit e b).ebits = e.ebits ++ [b] := rfl
    have hlen : (appendBit e b).ebits.length = e.ebits.length + 1 := by simp [hb]
    have ho : (appendBit e b).out.read j =
        if (e.ebits.length + 1) % 8 = 0 ∧ j = e.ebits.length / 8 then some (streamByte (e.ebits ++ [b]) j) else e.out.read j := by
      simp only [appendBit, List.length_append, List.length_singleton]
      by_cases h8 : (e.ebits.length + 1) % 8 = 0
      · simp only [if_pos h8, Memory.read_write]
        have h9 : (e.ebits.length + 1) / 8 - 1 = e.ebits.length / 8 := by omega
        by_cases hj : j = e.ebits.length / 8
        · rw [if_pos (by omega), if_pos ⟨h8, hj⟩]
          have hd : e.ebits.length + 1 - 8 = 8 * j := by omega
          rw [hd, streamByte, List.take_of_length_le]
          simp; omega
        · rw [if_neg (by omega), if_neg (by omega)]
      · rw [if_neg (by omega)]; simp [h8]
    rw [hlen, hb, ho]
    simp only [List.length_cons, List.append_assoc, List.singleton_append]
    by_cases h8 : (e.ebits.length + 1) % 8 = 0 ∧ j = e.ebits.length / 8
    · rw [if_neg (by omega), if_pos h8, if_pos (by omega), show b :: bits = [b] ++ bits from rfl, ← List.append_assoc,
        streamByte_append (e.ebits ++ [b]) bits j (by simp; omega)]
    · rw [if_neg h8]
      by_cases hr : (e.ebits.length + 1) / 8 ≤ j ∧ j < (e.ebits.length + 1 + bits.length) / 8
      · rw [if_pos hr, if_pos (by omega)]
      · rw [if_neg hr, if_neg (by omega)]

/-- Appending bits keeps OUT in canonical form. -/
theorem put_out_wf (e : Enc) (bits : List Bool) (h : e.out.wf = true) : (e.put bits).out.wf = true := by
  induction bits generalizing e with
  | nil => exact h
  | cons b bits ih =>
    rw [put_cons]
    refine ih _ ?_
    simp only [appendBit]
    split_ifs
    · exact Memory.wf_write _ _ _ h
    · exact h

/-- SinkFlush writes OUT exactly at an incomplete last byte (R41). -/
theorem sinkFlush_out_read (e : Enc) (j : Nat) :
    (sinkFlush e).out.read j =
      if e.ebits.length / 8 ≤ j ∧ j < ceil8 e.ebits.length then some (streamByte e.ebits j) else e.out.read j := by
  simp only [sinkFlush, ceil8_eq]
  by_cases h : e.ebits.length % 8 = 0
  · simp only [if_pos h]
    rw [if_neg (by omega)]
  · simp only [if_neg h, Memory.read_write]
    by_cases hj : j = e.ebits.length / 8
    · rw [if_pos hj, if_pos (by omega), hj, streamByte, List.take_of_length_le]
      simp; omega
    · rw [if_neg hj, if_neg (by omega)]

theorem sinkFlush_out_wf (e : Enc) (h : e.out.wf = true) : (sinkFlush e).out.wf = true := by
  simp only [sinkFlush]
  split_ifs
  · exact h
  · exact Memory.wf_write _ _ _ h

/-! ## Guarded writes (R40) -/

/-- Append bits unless the last of them passes OUT_CAP. -/
def sinkBits (cap : Option Nat) (bits : List Bool) (e : Enc) : Except FCause Enc :=
  if sinkFull cap (e.ebits.length + bits.length) then .error .encSinkFull else .ok (e.put bits)

@[simp] theorem sinkFull_none (n : Nat) : sinkFull none n = false := rfl

/-- A capacity that n bits fit, fewer fit too. -/
theorem sinkFull_mono {cap : Option Nat} {m n : Nat} (h : m ≤ n) (hn : sinkFull cap n = false) : sinkFull cap m = false := by
  cases cap with
  | none => rfl
  | some c =>
    have := ceil8_mono h
    simp only [sinkFull, decide_eq_false_iff_not, Nat.not_lt] at hn ⊢
    omega

@[simp] theorem sinkBits_none (bits : List Bool) (e : Enc) : sinkBits none bits e = .ok (e.put bits) := by simp [sinkBits]

/-- All that a guarded write can do. -/
theorem sinkBits_ok {cap : Option Nat} {bits : List Bool} {e e' : Enc} (h : sinkBits cap bits e = .ok e') :
    e' = e.put bits ∧ sinkFull cap e'.ebits.length = false := by
  unfold sinkBits at h
  split_ifs at h with hf
  cases h
  exact ⟨rfl, by simpa using hf⟩

theorem sinkBits_error {cap : Option Nat} {bits : List Bool} {e : Enc} {c : FCause} (h : sinkBits cap bits e = .error c) :
    c = .encSinkFull ∧ sinkFull cap (e.ebits.length + bits.length) = true := by
  unfold sinkBits at h
  split_ifs at h with hf
  cases h
  exact ⟨rfl, hf⟩

/-- SinkWrite is a guarded write of the field's bits. -/
theorem sinkWrite_eq (cap : Option Nat) (c v : Nat) (e : Enc) : sinkWrite cap c v e = sinkBits cap (fieldBits c v) e := by
  simp [sinkWrite, sinkBits, Enc.put]

/-- Two guarded writes are one. -/
theorem sinkBits_bind (cap : Option Nat) (xs ys : List Bool) (e : Enc) :
    (sinkBits cap xs e >>= sinkBits cap ys) = sinkBits cap (xs ++ ys) e := by
  by_cases hx : sinkFull cap (e.ebits.length + xs.length) = true
  · have hy : sinkFull cap (e.ebits.length + (xs ++ ys).length) = true := by
      by_contra hc
      have := sinkFull_mono (cap := cap) (m := e.ebits.length + xs.length) (n := e.ebits.length + (xs ++ ys).length)
        (by simp) (by simpa using hc)
      simp [this] at hx
    simp only [sinkBits, if_pos hx, if_pos hy]; rfl
  · simp only [sinkBits, if_neg hx, Bind.bind, Except.bind]
    simp [Nat.add_assoc]

/-! ## The internal operations write wire symbols (R76 to R81) -/

/-- EmitHeader writes the header symbol (R56, R76). -/
theorem emitHeader_eq (cap : Option Nat) (w : Nat) (h : w ≤ 32) (e : Enc) :
    emitHeader cap w e = sinkBits cap (headerSymbol w).bits e := by
  unfold emitHeader headerSymbol
  by_cases h30 : w ≤ 30
  · simp [h30, sinkWrite_eq, Symbol.bits]
  · have h31 : w = 31 ∨ w = 32 := by omega
    simp only [if_neg h30, sinkWrite_eq]
    rw [sinkBits_bind]
    rcases h31 with rfl | rfl <;> rfl

/-- TransitionCode writes the transition symbol (R57, R78). -/
theorem transitionCode_eq (cap : Option Nat) (c n : Nat) (h : n = c ∨ n = c + 1 ∨ n + 1 = c) (e : Enc) :
    transitionCode cap c n e = sinkBits cap (transSymbol c n).bits e := by
  unfold transitionCode transSymbol
  simp only [sinkWrite_eq]
  split_ifs with h1 h2 h3
  · rfl
  · rw [sinkBits_bind]; rfl
  · rw [sinkBits_bind]; rfl
  · omega

/-- ValueField writes the value symbol (R59, R79). -/
theorem valueField_eq (cap : Option Nat) (p c n v : Nat) (e : Enc) :
    valueField cap p c n v e = sinkBits cap (valueSymbol p c n v).bits e := by
  unfold valueField valueSymbol
  split_ifs <;> rw [sinkWrite_eq] <;> rfl

/-- A zero-run prefix with what follows it is one guarded write. -/
theorem emitZeros_bind (cap : Option Nat) (k : Nat) (b : Bool) (ys : List Bool) (e : Enc) :
    (emitZeros cap k e >>= sinkBits cap (b :: ys)) = sinkBits cap (List.replicate k false ++ b :: ys) e := by
  induction k generalizing e with
  | zero => rfl
  | succ k ih =>
    simp only [emitZeros, bind_assoc, ih, sinkWrite_eq]
    rw [sinkBits_bind]; rfl

/-- EmitZeroRun writes the zero-run symbol (R58, R81). -/
theorem emitZeroRun_eq (cap : Option Nat) (n : Nat) (e : Enc) :
    emitZeroRun cap n e =
      sinkBits cap (Symbol.bits (.zr (bitwidth n - 1) (n - 2 ^ (bitwidth n - 1)))) e := by
  unfold emitZeroRun
  simp only [sinkWrite_eq]
  have h1 : ∀ e' : Enc, (sinkBits cap (fieldBits 1 1) e' >>= fun e => sinkBits cap (fieldBits (bitwidth n - 1) (n - 2 ^ (bitwidth n - 1))) e)
      = sinkBits cap (true :: fieldBits (bitwidth n - 1) (n - 2 ^ (bitwidth n - 1))) e' := fun e' => sinkBits_bind _ _ _ _
  simp only [h1]
  exact emitZeros_bind _ _ _ _ _

/-- Closing a pending run writes its symbol and clears NZ (R77, R82). -/
theorem closeZeroRun_eq (cap : Option Nat) (e : Enc) :
    closeZeroRun cap e =
      if e.nz = 0 then .ok e
      else (sinkBits cap (symbolBits (runSymbols e.nz.toNat)) e).map fun e => { e with nz := 0 } := by
  unfold closeZeroRun
  have hz : e.nz.toNat = 0 ↔ e.nz = 0 := ⟨fun h => BitVec.eq_of_toNat_eq (by simpa using h), fun h => by simp [h]⟩
  by_cases h : e.nz = 0
  · simp [h]
  · have h' : e.nz.toNat ≠ 0 := fun hc => h (hz.1 hc)
    rw [if_pos (by omega), if_neg h, emitZeroRun_eq]
    simp only [runSymbols, if_neg h', symbolBits, List.flatMap_cons, List.flatMap_nil, List.append_nil]
    cases sinkBits cap _ e <;> rfl

/-! ## Samples and flushes (R75, R77) -/

/-- `e'` is `e` with the bits appended, as far as EBITS, OUT and the fields no flush loop touches go. -/
structure Wrote (e : Enc) (bits : List Bool) (e' : Enc) : Prop where
  ebits : e'.ebits = e.ebits ++ bits
  out : e'.out = (e.put bits).out
  buf : e'.buf = e.buf
  started : e'.started = e.started
  flushed : e'.flushed = e.flushed
  outLen : e'.outLen = e.outLen

theorem Wrote.put (e : Enc) (bits : List Bool) : Wrote e bits (e.put bits) := by constructor <;> simp

theorem Wrote.trans {e e1 e2 : Enc} {xs ys : List Bool} (h1 : Wrote e xs e1) (h2 : Wrote e1 ys e2) : Wrote e (xs ++ ys) e2 where
  ebits := by rw [h2.ebits, h1.ebits, List.append_assoc]
  out := by rw [h2.out, ← put_put]; exact put_out_congr _ _ _ (by simp [h1.ebits]) h1.out
  buf := h2.buf.trans h1.buf
  started := h2.started.trans h1.started
  flushed := h2.flushed.trans h1.flushed
  outLen := h2.outLen.trans h1.outLen

/-- All that closing a pending run can do when it succeeds (R77, R82). -/
theorem closeZeroRun_ok {cap : Option Nat} {e e' : Enc} (h : closeZeroRun cap e = .ok e') :
    Wrote e (symbolBits (runSymbols e.nz.toNat)) e' ∧ e'.nz = 0 ∧ e'.mrw = e.mrw ∧
      (sinkFull cap e.ebits.length = false → sinkFull cap e'.ebits.length = false) := by
  rw [closeZeroRun_eq] at h
  split_ifs at h with hz
  · cases h
    refine ⟨?_, hz, rfl, id⟩
    rw [hz]; exact Wrote.put e []
  · cases hb : sinkBits cap (symbolBits (runSymbols e.nz.toNat)) e with
    | error r => rw [hb] at h; cases h
    | ok e1 =>
      rw [hb] at h; cases h
      obtain ⟨rfl, hf⟩ := sinkBits_ok hb
      exact ⟨⟨by simp, rfl, by simp, by simp, by simp, by simp⟩, rfl, by simp, fun _ => hf⟩

/-- All that EncodeSample can do when it succeeds (R77 to R81): a zero-width sample is counted; another one writes its symbols
and clears NZ. -/
theorem encodeSample_ok {cap : Option Nat} {p c n v : Nat} {e e' : Enc} (hn : c ≠ 0 → n = c ∨ n = c + 1 ∨ n + 1 = c)
    (h : encodeSample cap p c n v e = .ok e') :
    (c = 0 ∧ e.nz.toNat < 2 ^ 32 - 1 ∧ e' = { e with nz := e.nz + 1 }) ∨
    (c ≠ 0 ∧ sinkFull cap e'.ebits.length = false ∧ e'.nz = 0 ∧ e'.mrw = e.mrw ∧
      Wrote e (symbolBits (runSymbols e.nz.toNat ++ [transSymbol c n, valueSymbol p c n v])) e') := by
  unfold encodeSample at h
  split_ifs at h with hc
  · left
    unfold zeroRunCount at h
    split_ifs at h with hz
    cases h
    have := e.nz.isLt
    exact ⟨hc, by omega, rfl⟩
  · right
    obtain ⟨e1, h1, h⟩ := bind_ok h
    obtain ⟨e2, h2, h⟩ := bind_ok h
    obtain ⟨hw, hz, hm, -⟩ := closeZeroRun_ok h1
    rw [transitionCode_eq cap c n (hn hc)] at h2
    rw [valueField_eq] at h
    obtain ⟨rfl, -⟩ := sinkBits_ok h2
    obtain ⟨rfl, hf⟩ := sinkBits_ok h
    refine ⟨hc, hf, by simp [hz], by simp [hm], ?_⟩
    have := (hw.trans (Wrote.put e1 (transSymbol c n).bits)).trans (Wrote.put _ (valueSymbol p c n v).bits)
    simpa [symbolBits] using this

/-- Without a capacity, EncodeSample succeeds unless the run counter is full. -/
theorem encodeSample_none (p c n v : Nat) (e : Enc) (hn : c ≠ 0 → n = c ∨ n = c + 1 ∨ n + 1 = c)
    (hz : c = 0 → e.nz.toNat < 2 ^ 32 - 1) : ∃ e', encodeSample none p c n v e = .ok e' := by
  unfold encodeSample
  split_ifs with hc
  · unfold zeroRunCount
    rw [if_neg (by have := hz hc; omega)]
    exact ⟨_, rfl⟩
  · simp only [closeZeroRun_eq, sinkBits_none]
    split_ifs <;>
      simp [Except.map, Bind.bind, Except.bind, transitionCode_eq _ _ _ (hn hc), valueField_eq]

/-- Adjacent widths of a list differ by at most one wherever the first is not 0 and a sample uses it. -/
def StepsByOne (vs : List Word) (W : List Nat) : Prop :=
  ∀ i, i < vs.length → W.getD i 0 ≠ 0 →
    W.getD (i + 1) 0 = W.getD i 0 ∨ W.getD (i + 1) 0 = W.getD i 0 + 1 ∨ W.getD (i + 1) 0 + 1 = W.getD i 0

theorem StepsByOne.tail {v : Word} {vs : List Word} {c : Nat} {W : List Nat} (h : StepsByOne (v :: vs) (c :: W)) :
    StepsByOne vs W := fun i hi => by simpa using h (i + 1) (by simpa using hi)

theorem StepsByOne.head {v : Word} {vs : List Word} {c n : Nat} {W : List Nat} (h : StepsByOne (v :: vs) (c :: n :: W)) :
    c ≠ 0 → n = c ∨ n = c + 1 ∨ n + 1 = c := by simpa using h 0 (by simp)

theorem encodeSamples_nil (cap : Option Nat) (W : List Nat) (e : Enc) : encodeSamples cap [] W e = .ok e := by
  cases W with
  | nil => rfl
  | cons a W => cases W <;> rfl

theorem sampleSymbols_nil (p nz : Nat) (W : List Nat) : sampleSymbols p nz [] W = ([], nz) := by
  cases W with
  | nil => rfl
  | cons a W => cases W <;> rfl

@[simp] theorem sampleSymbols_zero (p nz : Nat) (v : Word) (vs : List Word) (n : Nat) (W : List Nat) :
    sampleSymbols p nz (v :: vs) (0 :: n :: W) = sampleSymbols 0 (nz + 1) vs (n :: W) := by
  rw [sampleSymbols]; simp

theorem sampleSymbols_pos (p nz : Nat) (v : Word) (vs : List Word) {c : Nat} (n : Nat) (W : List Nat) (hc : c ≠ 0) :
    sampleSymbols p nz (v :: vs) (c :: n :: W) =
      (runSymbols nz ++ transSymbol c n :: valueSymbol p c n v.toNat :: (sampleSymbols c 0 vs (n :: W)).1,
        (sampleSymbols c 0 vs (n :: W)).2) := by
  rw [sampleSymbols]; simp [hc]

/-! ## The symbols of parts of a stream (R55, R77) -/

/-- The samples' symbols depend on the samples' widths and the next one only. -/
theorem sampleSymbols_congr (vs : List Word) (p nz : Nat) (W W' : List Nat) (hW : vs.length < W.length) (hW' : vs.length < W'.length)
    (h : ∀ i, i ≤ vs.length → W.getD i 0 = W'.getD i 0) : sampleSymbols p nz vs W = sampleSymbols p nz vs W' := by
  induction vs generalizing p nz W W' with
  | nil => rw [sampleSymbols_nil, sampleSymbols_nil]
  | cons v vs ih =>
    match W, W', hW, hW', h with
    | c :: n :: W, c' :: n' :: W', hW, hW', h =>
      have h0 : c = c' := by simpa using h 0 (by simp)
      have h1 : n = n' := by simpa using h 1 (by simp)
      subst h0; subst h1
      have ih' := fun p nz => ih p nz (n :: W) (n :: W') (by simpa using hW) (by simpa using hW')
        fun i hi => by simpa using h (i + 1) (by simpa using hi)
      by_cases hc : c = 0
      · subst hc; rw [sampleSymbols_zero, sampleSymbols_zero, ih']
      · rw [sampleSymbols_pos _ _ _ _ _ _ hc, sampleSymbols_pos _ _ _ _ _ _ hc, ih']

/-- The symbols of a sequence are those of its parts, with the width and the run carried over. -/
theorem sampleSymbols_append (xs ys : List Word) (p nz : Nat) (W : List Nat) (hW : xs.length < W.length) :
    sampleSymbols p nz (xs ++ ys) W =
      let p' := if xs.length = 0 then p else W.getD (xs.length - 1) 0
      ((sampleSymbols p nz xs W).1 ++ (sampleSymbols p' (sampleSymbols p nz xs W).2 ys (W.drop xs.length)).1,
        (sampleSymbols p' (sampleSymbols p nz xs W).2 ys (W.drop xs.length)).2) := by
  dsimp only
  induction xs generalizing p nz W with
  | nil => simp [sampleSymbols_nil]
  | cons v xs ih =>
    match W, hW with
    | c :: n :: W, hW =>
      have hp : ∀ c, (if xs.length = 0 then c else (n :: W).getD (xs.length - 1) 0) = (c :: n :: W).getD xs.length 0 := by
        intro c; cases xs <;> simp
      by_cases hc : c = 0
      · subst hc
        rw [List.cons_append, sampleSymbols_zero, sampleSymbols_zero, ih 0 (nz+1) (n :: W) (by simpa using hW), hp]
        simp
      · rw [List.cons_append, sampleSymbols_pos _ _ _ _ _ _ hc, sampleSymbols_pos _ _ _ _ _ _ hc, ih c 0 (n :: W) (by simpa using hW), hp]
        simp

/-- An open run has at most as many samples as there were. -/
theorem sampleSymbols_le (xs : List Word) (p nz : Nat) (W : List Nat) : (sampleSymbols p nz xs W).2 ≤ nz + xs.length := by
  induction xs generalizing p nz W with
  | nil => rw [sampleSymbols_nil]; simp
  | cons v xs ih =>
    match W with
    | [] => simp [sampleSymbols]
    | [_] => simp [sampleSymbols]
    | c :: n :: W =>
      by_cases hc : c = 0
      · subst hc; rw [sampleSymbols_zero]; have := ih 0 (nz+1) (n :: W); simp; omega
      · rw [sampleSymbols_pos _ _ _ _ _ _ hc]; have := ih c 0 (n :: W); simp; omega

/-- All that the loop of FlushSome can do when it succeeds (R75, R77): it writes the samples' symbols, MRW is the last
width, and NZ counts the samples of the run still open. -/
theorem encodeSamples_ok {cap : Option Nat} {vs : List Word} {W : List Nat} {e e' : Enc} (hW : vs.length < W.length)
    (hs : StepsByOne vs W) (h : encodeSamples cap vs W e = .ok e') :
    Wrote e (symbolBits (sampleSymbols e.mrw e.nz.toNat vs W).1) e' ∧
      e'.mrw = (if vs.length = 0 then e.mrw else W.getD (vs.length - 1) 0) ∧
      e'.nz.toNat = (sampleSymbols e.mrw e.nz.toNat vs W).2 ∧
      (sinkFull cap e.ebits.length = false → sinkFull cap e'.ebits.length = false) := by
  induction vs generalizing W e with
  | nil =>
    rw [encodeSamples_nil] at h; cases h
    rw [sampleSymbols_nil]
    exact ⟨Wrote.put _ [], by simp, rfl, id⟩
  | cons v vs ih =>
    match W, hW, hs, h with
    | c :: n :: W, hW, hs, h =>
    rw [encodeSamples] at h
    obtain ⟨e1, h1, h⟩ := bind_ok h
    obtain ⟨hw, hm, hnz, hf⟩ := ih (by simpa using hW) hs.tail h
    have hm' : e'.mrw = (c :: n :: W).getD vs.length 0 := by
      rw [hm]; cases vs <;> simp
    have hmove (bits : List Bool) (hw1 : Wrote e bits e1) : Wrote e bits { e1 with mrw := c } :=
      ⟨hw1.ebits, hw1.out, hw1.buf, hw1.started, hw1.flushed, hw1.outLen⟩
    rcases encodeSample_ok hs.head h1 with ⟨rfl, hz, rfl⟩ | ⟨hc, hf1, hz1, hm1, hw1⟩
    · have h1 : (e.nz + 1).toNat = e.nz.toNat + 1 := by rw [BitVec.toNat_add]; simp; omega
      simp only [h1] at hw hnz
      rw [sampleSymbols_zero]
      refine ⟨?_, by simpa using hm', hnz, hf⟩
      simpa using (hmove [] ⟨by simp, rfl, rfl, rfl, rfl, rfl⟩).trans hw
    · have h0 : e1.nz.toNat = 0 := by rw [hz1]; rfl
      simp only [h0] at hw hnz
      rw [sampleSymbols_pos _ _ _ _ _ _ hc]
      refine ⟨?_, by simpa using hm', hnz, fun _ => hf hf1⟩
      simpa [symbolBits] using (hmove _ hw1).trans hw

/-- Without a capacity the loop succeeds while the run counter has room. -/
theorem encodeSamples_none (vs : List Word) (W : List Nat) (e : Enc) (hs : StepsByOne vs W)
    (hz : e.nz.toNat + vs.length < 2 ^ 32) : ∃ e', encodeSamples none vs W e = .ok e' := by
  induction vs generalizing W e with
  | nil => exact ⟨_, encodeSamples_nil _ _ _⟩
  | cons v vs ih =>
    match W, hs with
    | [], _ => exact ⟨_, rfl⟩
    | [_], _ => exact ⟨_, rfl⟩
    | c :: n :: W, hs =>
      simp only [List.length_cons] at hz
      obtain ⟨e1, h1⟩ := encodeSample_none e.mrw c n v.toNat e hs.head (fun _ => by omega)
      rw [encodeSamples, h1]
      refine ih (n :: W) { e1 with mrw := c } hs.tail ?_
      rcases encodeSample_ok hs.head h1 with ⟨_, hlt, rfl⟩ | ⟨_, _, hz1, _, _⟩
      · have : (e.nz + 1).toNat = e.nz.toNat + 1 := by rw [BitVec.toNat_add]; simp; omega
        simp only [this]; omega
      · simp [hz1]; omega

/-- What starting the stream writes: the header unless it has been written (R75, R76). -/
def headerBits (w : Nat) (e : Enc) : List Bool := if e.started then [] else (headerSymbol w).bits

theorem startWith_ok {cap : Option Nat} {w : Nat} {e e' : Enc} (hw : w ≤ 32) (h : startWith cap w e = .ok e') :
    e'.ebits = e.ebits ++ headerBits w e ∧ e'.out = (e.put (headerBits w e)).out ∧ e'.started = true ∧ e'.buf = e.buf ∧
      e'.flushed = e.flushed ∧ e'.outLen = e.outLen ∧ e'.mrw = e.mrw ∧ e'.nz = e.nz ∧
      (sinkFull cap e.ebits.length = false → sinkFull cap e'.ebits.length = false) := by
  unfold startWith at h
  unfold headerBits
  split_ifs at h with hst
  · cases h; simp [hst]
  · obtain ⟨e1, h1, h⟩ := bind_ok h
    rw [emitHeader_eq _ _ hw] at h1
    obtain ⟨rfl, hf⟩ := sinkBits_ok h1
    cases h
    simp [hst]
    exact fun _ => by simpa using hf

/-- All that the body of FlushSome can do when it succeeds (R75). -/
theorem flushWith_ok {cap : Option Nat} {m : Nat} {W : List Nat} {e e' : Enc} (hw : W.headD 0 ≤ 32)
    (hW : (e.buf.take m).length < W.length) (hs : StepsByOne (e.buf.take m) W) (h : flushWith cap m W e = .ok e') :
    e'.ebits = e.ebits ++ (headerBits (W.headD 0) e ++ symbolBits (sampleSymbols e.mrw e.nz.toNat (e.buf.take m) W).1) ∧
      e'.out = (e.put (headerBits (W.headD 0) e ++ symbolBits (sampleSymbols e.mrw e.nz.toNat (e.buf.take m) W).1)).out ∧
      e'.buf = e.buf.drop m ∧ e'.started = true ∧ e'.flushed = e.flushed ∧ e'.outLen = e.outLen ∧
      e'.mrw = (if (e.buf.take m).length = 0 then e.mrw else W.getD ((e.buf.take m).length - 1) 0) ∧
      e'.nz.toNat = (sampleSymbols e.mrw e.nz.toNat (e.buf.take m) W).2 ∧
      (sinkFull cap e.ebits.length = false → sinkFull cap e'.ebits.length = false) := by
  unfold flushWith at h
  obtain ⟨e1, h1, h⟩ := bind_ok h
  obtain ⟨e2, h2, h⟩ := bind_ok h
  cases h
  obtain ⟨a1, a2, a3, a4, a5, a6, a7, a8, a9⟩ := startWith_ok hw h1
  rw [a4] at h2
  obtain ⟨b1, b2, b3, b4⟩ := encodeSamples_ok hW hs h2
  rw [a7, a8] at b1 b3
  refine ⟨?_, ?_, ?_, ?_, ?_, ?_, ?_, b3, fun hf => b4 (a9 hf)⟩
  · rw [b1.ebits, a1, List.append_assoc]
  · rw [b1.out, ← put_put]; exact put_out_congr _ _ _ (by simp [a1]) a2
  · simp [b1.buf, a4]
  · rw [b1.started, a3]
  · rw [b1.flushed, a5]
  · rw [b1.outLen, a6]
  · rw [b2, a7]

/-- Without a capacity the body of FlushSome succeeds while the run counter has room. -/
theorem flushWith_none (m : Nat) (W : List Nat) (e : Enc) (hw : W.headD 0 ≤ 32)
    (hs : StepsByOne (e.buf.take m) W) (hz : e.nz.toNat + (e.buf.take m).length < 2 ^ 32) :
    ∃ e', flushWith none m W e = .ok e' := by
  have h1 : ∃ e1, startWith none (W.headD 0) e = .ok e1 := by
    unfold startWith
    split_ifs
    · exact ⟨_, rfl⟩
    · rw [emitHeader_eq _ _ hw, sinkBits_none]; exact ⟨_, rfl⟩
  obtain ⟨e1, h1⟩ := h1
  obtain ⟨-, -, -, a4, -, -, -, a8, -⟩ := startWith_ok hw h1
  obtain ⟨e2, h2⟩ := encodeSamples_none (e1.buf.take m) W e1 (by rw [a4]; exact hs) (by rw [a4, a8]; exact hz)
  exact ⟨{ e2 with buf := e2.buf.drop m }, by rw [flushWith, h1]; simp only [Bind.bind, Except.bind, h2]⟩

/-- The widths of a window fit R9's range while MRW does (R68 item 4). -/
theorem profile_le (B : List Word) (p : Nat) (final : Bool) (hp : p ≤ 32) (i : Nat) : (profile B p final).getD i 0 ≤ 32 := by
  have inside (j : Nat) (hj : j < B.length) : (profile B p final).getD j 0 ≤ 32 :=
    (profile_le_iff B p final j 32 hj).2 ⟨by omega, fun k _ => by have := widthAt_le B k; omega⟩
  by_cases hi : i < B.length
  · exact inside i hi
  · by_cases hib : i = B.length
    · subst hib
      cases final with
      | true =>
        by_cases h0 : 0 < B.length
        · rw [profile_sentinel B p h0]; exact inside _ (by omega)
        · have : B = [] := List.length_eq_zero_iff.1 (by omega)
          subst this; simp [profile, forwardPass, backwardPass, rightBoundary]
      | false =>
        unfold profile
        rw [backwardPass_le_iff _ _ _ _ (by simp)]
        simp [rightBoundary]
        omega
    · rw [List.getD_eq_getElem?_getD, List.getElem?_eq_none (by simp; omega)]; simp

theorem profile_headD_le (B : List Word) (p : Nat) (final : Bool) (hp : p ≤ 32) : (profile B p final).headD 0 ≤ 32 := by
  have := profile_le B p final hp 0
  cases h : profile B p final with
  | nil => simp
  | cons a W => rw [h] at this; simpa using this

/-- Adjacent widths differ by at most one (R68 item 2), inside the window and, on the final flush, at its sentinel. -/
theorem profile_step (B : List Word) (p : Nat) (final : Bool) (i : Nat) (hi : i + 1 < B.length ∨ final = true ∧ i + 1 = B.length) :
    (profile B p final).getD (i + 1) 0 ≤ (profile B p final).getD i 0 + 1 ∧
      (profile B p final).getD i 0 ≤ (profile B p final).getD (i + 1) 0 + 1 := by
  rcases hi with hi | ⟨rfl, hi⟩
  · constructor
    · rw [profile_le_iff B p final (i + 1) _ hi]
      obtain ⟨h1, h2⟩ := (profile_le_iff B p final i _ (by omega)).1 le_rfl
      exact ⟨by omega, fun j hj => by have := h2 j hj; omega⟩
    · rw [profile_le_iff B p final i _ (by omega)]
      obtain ⟨h1, h2⟩ := (profile_le_iff B p final (i + 1) _ hi).1 le_rfl
      exact ⟨by omega, fun j hj => by have := h2 j hj; omega⟩
  · have := profile_sentinel B p (by omega)
    rw [show i = B.length - 1 by omega, show B.length - 1 + 1 = B.length by omega, this]
    omega

/-- The committed samples of a window step by one (R67, R68). -/
theorem profile_stepsByOne (B : List Word) (p m : Nat) (final : Bool) (hm : m < B.length ∨ final = true) :
    StepsByOne (B.take m) (profile B p final) := by
  intro i hi hc
  have hi' : i < m ∧ i < B.length := by simpa using hi
  have hin : i + 1 < B.length ∨ final = true ∧ i + 1 = B.length := by
    rcases hm with hm | hm
    · exact .inl (by omega)
    · by_cases h : i + 1 < B.length
      · exact .inl h
      · exact .inr ⟨hm, by omega⟩
  have := profile_step B p final i hin
  omega

/-! ## What fits OUT_CAP is written (R40) -/

theorem sinkBits_fits {cap : Option Nat} {bits : List Bool} {e : Enc} (h : sinkFull cap (e.ebits.length + bits.length) = false) :
    sinkBits cap bits e = .ok (e.put bits) := by simp [sinkBits, h]

/-- Closing a run succeeds with a capacity that its result fits. -/
theorem closeZeroRun_fits {cap : Option Nat} {e e' : Enc} (h : closeZeroRun none e = .ok e')
    (hf : sinkFull cap e'.ebits.length = false) : closeZeroRun cap e = .ok e' := by
  rw [closeZeroRun_eq] at h ⊢
  split_ifs at h ⊢ with hz
  · exact h
  · rw [sinkBits_none] at h
    cases h
    rw [sinkBits_fits (by simpa using hf)]; rfl

/-- EncodeSample succeeds with a capacity that its result fits. -/
theorem encodeSample_fits {cap : Option Nat} {p c n v : Nat} {e e' : Enc} (hn : c ≠ 0 → n = c ∨ n = c + 1 ∨ n + 1 = c)
    (h : encodeSample none p c n v e = .ok e') (hf : sinkFull cap e'.ebits.length = false) :
    encodeSample cap p c n v e = .ok e' := by
  unfold encodeSample at h ⊢
  by_cases hc : c = 0
  · rw [if_pos hc] at h ⊢; exact h
  · rw [if_neg hc] at h ⊢
    obtain ⟨e1, h1, h⟩ := bind_ok h
    rw [transitionCode_eq none c n (hn hc), sinkBits_none] at h
    obtain ⟨e2, h2, h⟩ := bind_ok h
    cases h2
    rw [valueField_eq, sinkBits_none] at h
    cases h
    rw [put_ebits, put_ebits, List.length_append, List.length_append] at hf
    rw [closeZeroRun_fits h1 (sinkFull_mono (by omega) hf)]
    simp only [Bind.bind, Except.bind]
    rw [transitionCode_eq cap c n (hn hc), sinkBits_fits (sinkFull_mono (by omega) hf)]
    simp only
    rw [valueField_eq, sinkBits_fits (by rw [put_ebits, List.length_append]; exact hf)]

/-- A sample only appends to EBITS. -/
theorem encodeSample_grows {cap : Option Nat} {p c n v : Nat} {e e' : Enc} (hn : c ≠ 0 → n = c ∨ n = c + 1 ∨ n + 1 = c)
    (h : encodeSample cap p c n v e = .ok e') : e.ebits.length ≤ e'.ebits.length := by
  rcases encodeSample_ok hn h with ⟨_, _, rfl⟩ | ⟨_, _, _, _, hw⟩
  · exact le_rfl
  · rw [hw.ebits]; simp

/-- The loop of FlushSome succeeds with a capacity that its result fits. -/
theorem encodeSamples_fits {cap : Option Nat} {vs : List Word} {W : List Nat} {e e' : Enc} (hW : vs.length < W.length)
    (hs : StepsByOne vs W) (h : encodeSamples none vs W e = .ok e') (hf : sinkFull cap e'.ebits.length = false) :
    encodeSamples cap vs W e = .ok e' := by
  induction vs generalizing W e with
  | nil => rw [encodeSamples_nil] at h ⊢; exact h
  | cons v vs ih =>
    match W, hW, hs, h with
    | c :: n :: W, hW, hs, h =>
      rw [encodeSamples] at h ⊢
      obtain ⟨e1, h1, h⟩ := bind_ok h
      have hg := (encodeSamples_ok (by simpa using hW) hs.tail h).1.ebits
      have h2 := encodeSample_fits hs.head h1 (cap := cap) (sinkFull_mono (by rw [hg]; simp) hf)
      rw [h2]
      exact ih (by simpa using hW) hs.tail h

/-- The body of FlushSome succeeds with a capacity that its result fits. -/
theorem flushWith_fits {cap : Option Nat} {m : Nat} {W : List Nat} {e e' : Enc} (hw : W.headD 0 ≤ 32)
    (hW : (e.buf.take m).length < W.length) (hs : StepsByOne (e.buf.take m) W) (h : flushWith none m W e = .ok e')
    (hf : sinkFull cap e'.ebits.length = false) : flushWith cap m W e = .ok e' := by
  unfold flushWith at h ⊢
  obtain ⟨e1, h1, h⟩ := bind_ok h
  obtain ⟨e2, h2, h⟩ := bind_ok h
  cases h
  have hb := (startWith_ok hw h1).2.2.2.1
  rw [hb] at h2
  have hg := (encodeSamples_ok hW hs h2).1.ebits
  have h3 : startWith cap (W.headD 0) e = .ok e1 := by
    unfold startWith at h1 ⊢
    split_ifs at h1 ⊢
    · exact h1
    · obtain ⟨e3, h3, h1⟩ := bind_ok h1
      cases h1
      rw [emitHeader_eq _ _ hw, sinkBits_none] at h3
      cases h3
      rw [emitHeader_eq _ _ hw, sinkBits_fits]
      · rfl
      · exact sinkFull_mono (by dsimp only at hg ⊢; rw [hg]; simp) hf
  rw [h3]
  simp only [Bind.bind, Except.bind, hb]
  rw [encodeSamples_fits hW hs h2 hf]

/-! ## ENC_WRITE and ENC_FLUSH after their checks (R74, R82) -/

/-- All that ENC_WRITE's operation can do when it succeeds. -/
theorem writeValue_ok {cap : Option Nat} {v : Word} {e e' : Enc} (hm : e.mrw ≤ 32) (h : writeValue cap v e = .ok e') :
    (e.buf.length ≠ 63 ∧ e' = { e with buf := e.buf ++ [v] }) ∨
    (e.buf.length = 63 ∧
      let B := e.buf ++ [v]
      let W := profile B e.mrw false
      e'.ebits = e.ebits ++ flushBits e (B.take 32) W ∧ e'.out = (e.put (flushBits e (B.take 32) W)).out ∧
        e'.buf = B.drop 32 ∧ e'.started = true ∧ e'.flushed = e.flushed ∧ e'.outLen = e.outLen ∧ e'.mrw = W.getD 31 0 ∧
        e'.nz.toNat = (sampleSymbols e.mrw e.nz.toNat (B.take 32) W).2 ∧
        (sinkFull cap e.ebits.length = false → sinkFull cap e'.ebits.length = false)) := by
  unfold writeValue at h
  by_cases hb : e.buf.length = 63
  · right
    refine ⟨hb, ?_⟩
    rw [if_pos (by simp [hb, Config.bufLimit])] at h
    have hlen : (e.buf ++ [v]).length = 64 := by simp [hb]
    have ht : ((e.buf ++ [v]).take 32).length = 32 := by rw [List.length_take, hlen]; rfl
    obtain ⟨h1, h2, h3, h4, h5, h6, h7, h8, h9⟩ := flushWith_ok (profile_headD_le (e.buf ++ [v]) e.mrw false hm)
      (by rw [profile_length, hlen]; simp only [Config.flushChunk, ht]; omega)
      (profile_stepsByOne _ _ _ _ (.inl (by rw [hlen]; simp [Config.flushChunk]))) h
    simp only [Config.flushChunk, ht] at h1 h2 h3 h7 h8
    refine ⟨h1, ?_, h3, h4, h5, h6, by simpa using h7, h8, h9⟩
    rw [h2]; exact put_out_congr _ _ _ rfl rfl
  · left
    rw [if_neg (by simp [Config.bufLimit]; omega)] at h
    cases h
    exact ⟨hb, rfl⟩

/-- ENC_WRITE's operation succeeds when the bits fit OUT_CAP and the run counter has room. -/
theorem writeValue_fits {cap : Option Nat} {v : Word} {e : Enc} (hm : e.mrw ≤ 32) (hb : e.buf.length = 63)
    (hz : e.nz.toNat + 32 < 2 ^ 32)
    (hf : sinkFull cap (e.ebits.length + (flushBits e ((e.buf ++ [v]).take 32) (profile (e.buf ++ [v]) e.mrw false)).length) = false) :
    ∃ e', writeValue cap v e = .ok e' := by
  have hlen : (e.buf ++ [v]).length = 64 := by simp [hb]
  have ht : ((e.buf ++ [v]).take 32).length = 32 := by rw [List.length_take, hlen]; rfl
  have hs : StepsByOne ((e.buf ++ [v]).take 32) (profile (e.buf ++ [v]) e.mrw false) :=
    profile_stepsByOne _ _ _ _ (.inl (by rw [hlen]; simp))
  have hW : ((e.buf ++ [v]).take 32).length < (profile (e.buf ++ [v]) e.mrw false).length := by rw [profile_length, hlen, ht]; omega
  have hh := profile_headD_le (e.buf ++ [v]) e.mrw false hm
  obtain ⟨e', h⟩ := flushWith_none 32 (profile (e.buf ++ [v]) e.mrw false) { e with buf := e.buf ++ [v] } hh hs
    (by rw [ht]; exact hz)
  have hg := (flushWith_ok hh hW hs h).1
  refine ⟨e', ?_⟩
  unfold writeValue
  rw [if_pos (by simp [hb, Config.bufLimit])]
  exact flushWith_fits hh hW hs h (by rw [hg, List.length_append]; exact hf)

/-- All that ENC_FLUSH's operation can do when it succeeds. -/
theorem flushStream_ok {cap : Option Nat} {e e' : Enc} (hm : e.mrw ≤ 32) (hb : e.buf ≠ []) (h : flushStream cap e = .ok e') :
    let W := profile e.buf e.mrw true
    let run := (sampleSymbols e.mrw e.nz.toNat e.buf W).2
    let bits := flushBits e e.buf W ++ symbolBits (runSymbols run)
    e'.ebits = e.ebits ++ bits ∧
      (∀ j, e'.out.read j = if e.ebits.length / 8 ≤ j ∧ j < ceil8 e'.ebits.length then some (streamByte e'.ebits j) else e.out.read j) ∧
      (e.out.wf = true → e'.out.wf = true) ∧
      e'.buf = [] ∧ e'.started = true ∧ e'.flushed = true ∧ e'.outLen = ceil8 e'.ebits.length ∧
      e'.mrw = W.getD (e.buf.length - 1) 0 ∧ e'.nz = 0 ∧
      (sinkFull cap e.ebits.length = false → sinkFull cap e'.ebits.length = false) := by
  unfold flushStream at h
  obtain ⟨e1, h1, h⟩ := bind_ok h
  obtain ⟨e2, h2, h⟩ := bind_ok h
  cases h
  have hb0 : e.buf.length ≠ 0 := fun hc => hb (List.length_eq_zero_iff.1 hc)
  have ht : e.buf.take e.buf.length = e.buf := List.take_length
  obtain ⟨a1, a2, a3, a4, a5, a6, a7, a8, a9⟩ := flushWith_ok (e := { e with flushed := true })
    (profile_headD_le e.buf e.mrw true hm)
    (by rw [profile_length]; simp only [ht]; omega) (profile_stepsByOne _ _ _ _ (.inr rfl)) h1
  simp only [ht] at a1 a2 a3 a7 a8
  obtain ⟨hw, b1, b2, b3⟩ := closeZeroRun_ok h2
  rw [a8] at hw
  have hbits : e2.ebits = e.ebits ++ (flushBits e e.buf (profile e.buf e.mrw true) ++
      symbolBits (runSymbols (sampleSymbols e.mrw e.nz.toNat e.buf (profile e.buf e.mrw true)).2)) := by
    rw [hw.ebits, a1, List.append_assoc]; rfl
  have hout : e2.out = (e.put (flushBits e e.buf (profile e.buf e.mrw true) ++
      symbolBits (runSymbols (sampleSymbols e.mrw e.nz.toNat e.buf (profile e.buf e.mrw true)).2))).out := by
    rw [hw.out, ← put_put]
    refine put_out_congr _ _ _ (by rw [a1, put_ebits]; rfl) ?_
    rw [a2]; exact put_out_congr _ _ _ rfl rfl
  refine ⟨hbits, fun j => ?_, fun hwf => ?_, by simp [sinkFlush, hw.buf, a3], by simp [sinkFlush, hw.started, a4],
    by simp [sinkFlush, hw.flushed, a5], rfl, ?_, by simp [sinkFlush, b1], fun hf => b3 (a9 hf)⟩
  · show _ = if e.ebits.length / 8 ≤ j ∧ j < ceil8 e2.ebits.length then some (streamByte e2.ebits j) else e.out.read j
    rw [sinkFlush_out_read, hout, put_out_read, ← hbits]
    have hlen := congrArg List.length hbits
    rw [List.length_append] at hlen
    have h8 := ceil8_eq e2.ebits.length
    rw [← hlen]
    split_ifs at h8 ⊢ <;> first | rfl | omega
  · exact sinkFlush_out_wf _ (by rw [hout]; exact put_out_wf _ _ hwf)
  · simp only [sinkFlush, b2, a7]; rw [if_neg hb0]

/-- ENC_FLUSH's operation succeeds when the bits fit OUT_CAP and the run counter has room. -/
theorem flushStream_fits {cap : Option Nat} {e : Enc} (hm : e.mrw ≤ 32) (hz : e.nz.toNat + e.buf.length < 2 ^ 32)
    (hf : sinkFull cap (e.ebits.length + (flushBits e e.buf (profile e.buf e.mrw true) ++
      symbolBits (runSymbols (sampleSymbols e.mrw e.nz.toNat e.buf (profile e.buf e.mrw true)).2)).length) = false) :
    ∃ e', flushStream cap e = .ok e' := by
  have ht : e.buf.take e.buf.length = e.buf := List.take_length
  have hs : StepsByOne (e.buf.take e.buf.length) (profile e.buf e.mrw true) := profile_stepsByOne _ _ _ _ (.inr rfl)
  have hW : (e.buf.take e.buf.length).length < (profile e.buf e.mrw true).length := by rw [profile_length, ht]; omega
  have hh := profile_headD_le e.buf e.mrw true hm
  obtain ⟨e1, h1⟩ := flushWith_none e.buf.length (profile e.buf e.mrw true) { e with flushed := true } hh hs (by rw [ht]; exact hz)
  have ho := flushWith_ok (e := { e with flushed := true }) hh hW hs h1
  obtain ⟨e2, h2⟩ : ∃ e2, closeZeroRun none e1 = .ok e2 := by
    rw [closeZeroRun_eq, sinkBits_none]; split_ifs <;> exact ⟨_, rfl⟩
  have hw := (closeZeroRun_ok h2).1
  have hlen : e2.ebits.length = e.ebits.length + (flushBits e e.buf (profile e.buf e.mrw true) ++
      symbolBits (runSymbols (sampleSymbols e.mrw e.nz.toNat e.buf (profile e.buf e.mrw true)).2)).length := by
    rw [hw.ebits, ho.1, ho.2.2.2.2.2.2.2.1, ht, List.append_assoc, List.length_append]; rfl
  refine ⟨sinkFlush e2, ?_⟩
  unfold flushStream
  have h3 : flushSome cap e.buf.length true { e with flushed := true } = .ok e1 :=
    flushWith_fits (e := { e with flushed := true }) hh hW hs h1 (sinkFull_mono (by rw [hw.ebits] at hlen; rw [← hlen]; simp) hf)
  simp only [h3, Bind.bind, Except.bind]
  rw [closeZeroRun_fits h2 (by rw [hlen]; exact hf)]

/-! ## The encoder's faults are the two mid-operation causes (R102) -/

/-- The two causes a running encoder operation can raise. -/
def midCause (c : FCause) : Prop := c = .encRunOverflow ∨ c = .encSinkFull

theorem sinkWrite_midCause {cap : Option Nat} {c v : Nat} {e : Enc} {r : FCause} (h : sinkWrite cap c v e = .error r) :
    midCause r := by
  rw [sinkWrite_eq] at h; exact .inr (sinkBits_error h).1

theorem emitHeader_midCause {cap : Option Nat} {w : Nat} {e : Enc} {r : FCause} (h : emitHeader cap w e = .error r) :
    midCause r := by
  unfold emitHeader at h
  split_ifs at h
  · exact sinkWrite_midCause h
  · rcases bind_error h with h | ⟨_, _, h⟩ <;> exact sinkWrite_midCause h

theorem closeZeroRun_midCause {cap : Option Nat} {e : Enc} {r : FCause} (h : closeZeroRun cap e = .error r) : midCause r := by
  rw [closeZeroRun_eq] at h
  split_ifs at h
  cases hb : sinkBits cap (symbolBits (runSymbols e.nz.toNat)) e with
  | error r' => rw [hb] at h; cases h; exact .inr (sinkBits_error hb).1
  | ok e' => rw [hb] at h; cases h

theorem transitionCode_midCause {cap : Option Nat} {c n : Nat} {e : Enc} {r : FCause} (h : transitionCode cap c n e = .error r) :
    midCause r := by
  unfold transitionCode at h
  split_ifs at h
  · exact sinkWrite_midCause h
  · rcases bind_error h with h | ⟨_, _, h⟩ <;> exact sinkWrite_midCause h
  · rcases bind_error h with h | ⟨_, _, h⟩ <;> exact sinkWrite_midCause h

theorem encodeSample_midCause {cap : Option Nat} {p c n v : Nat} {e : Enc} {r : FCause}
    (h : encodeSample cap p c n v e = .error r) : midCause r := by
  unfold encodeSample at h
  split_ifs at h
  · unfold zeroRunCount at h
    split_ifs at h
    cases h; exact .inl rfl
  · rcases bind_error h with h | ⟨_, _, h⟩
    · exact closeZeroRun_midCause h
    · rcases bind_error h with h | ⟨_, _, h⟩
      · exact transitionCode_midCause h
      · unfold valueField at h
        split_ifs at h <;> exact sinkWrite_midCause h

theorem encodeSamples_midCause {cap : Option Nat} {vs : List Word} {W : List Nat} {e : Enc} {r : FCause}
    (h : encodeSamples cap vs W e = .error r) : midCause r := by
  induction vs generalizing W e with
  | nil =>
    cases W with
    | nil => cases h
    | cons a W => cases W <;> cases h
  | cons v vs ih =>
    match W, h with
    | [], h => cases h
    | [_], h => cases h
    | c :: n :: W, h =>
      rw [encodeSamples] at h
      rcases bind_error h with h | ⟨_, _, h⟩
      · exact encodeSample_midCause h
      · exact ih h

theorem flushSome_midCause {cap : Option Nat} {m : Nat} {final : Bool} {e : Enc} {r : FCause}
    (h : flushSome cap m final e = .error r) : midCause r := by
  unfold flushSome flushWith at h
  rcases bind_error h with h | ⟨_, _, h⟩
  · unfold startWith at h
    split_ifs at h
    rcases bind_error h with h | ⟨_, _, h⟩
    · exact emitHeader_midCause h
    · cases h
  · rcases bind_error h with h | ⟨_, _, h⟩
    · exact encodeSamples_midCause h
    · cases h

theorem writeValue_midCause {cap : Option Nat} {v : Word} {e : Enc} {r : FCause} (h : writeValue cap v e = .error r) :
    midCause r := by
  unfold writeValue at h
  split_ifs at h
  exact flushSome_midCause h

theorem flushStream_midCause {cap : Option Nat} {e : Enc} {r : FCause} (h : flushStream cap e = .error r) : midCause r := by
  unfold flushStream at h
  rcases bind_error h with h | ⟨_, _, h⟩
  · exact flushSome_midCause h
  · rcases bind_error h with h | ⟨_, _, h⟩
    · exact closeZeroRun_midCause h
    · cases h

end Sys2Proof.Machine
end

