-- ==== Sys2Proof/Laws/Exec.lean ====
section
/-! SUPPORT. All that each command and each wire symbol can do: one inversion lemma per meaning, guards included, so that later
proofs never unfold a meaning. -/

namespace Sys2Proof.Machine

/-- From what a sequence guarded by the halt answered. -/
theorem whenRunning_next {s t : State} {body : Host.Outcome State Fault Refusal} (h : whenRunning s body = .next t) :
    (s.fault = true ∧ t = halted s) ∨ (s.fault = false ∧ body = .next t) := by
  rcases whenRunning_cases s body with ⟨hf, hw⟩ | ⟨hf, hw⟩
  · rw [hw] at h; cases h; exact .inl ⟨hf, rfl⟩
  · rw [hw] at h; exact .inr ⟨hf, h⟩

/-! ## Encoder commands -/

theorem execEncInit_cases {s t : State} (h : execEncInit s = .next t) :
    (s.fault = true ∧ t = halted s) ∨ (s.fault = false ∧ t = respondOk 0 { s with enc := .fresh }) := by
  rcases whenRunning_next h with h | ⟨hf, h⟩
  · exact .inl h
  · cases h; exact .inr ⟨hf, rfl⟩

theorem execEncWrite_cases {v : Word} {s t : State} (h : execEncWrite v s = .next t) :
    (s.fault = true ∧ t = halted s) ∨
    (s.fault = false ∧ s.enc.flushed = true ∧ t = raiseFault .encWriteAfterFlush s) ∨
    (s.fault = false ∧ s.enc.flushed = false ∧ ∃ c, writeValue s.cfg.outCap v s.enc = .error c ∧ t = raiseMidFault c s) ∨
    (s.fault = false ∧ s.enc.flushed = false ∧
      ∃ e, writeValue s.cfg.outCap v s.enc = .ok e ∧ t = respondOk 0 { s with enc := e }) := by
  rcases whenRunning_next h with h | ⟨hf, h⟩
  · exact .inl h
  · split_ifs at h with hfl
    · cases h; exact .inr (.inl ⟨hf, hfl, rfl⟩)
    · have hfl : s.enc.flushed = false := by simpa using hfl
      cases hw : writeValue s.cfg.outCap v s.enc with
      | error c => rw [hw] at h; cases h; exact .inr (.inr (.inl ⟨hf, hfl, c, rfl, rfl⟩))
      | ok e => rw [hw] at h; cases h; exact .inr (.inr (.inr ⟨hf, hfl, e, rfl, rfl⟩))

theorem execEncFlush_cases {s t : State} (h : execEncFlush s = .next t) :
    (s.fault = true ∧ t = halted s) ∨
    (s.fault = false ∧ s.enc.flushed = true ∧ t = raiseFault .encDoubleFlush s) ∨
    (s.fault = false ∧ s.enc.flushed = false ∧ s.enc.buf = [] ∧ t = raiseFault .encFlushBeforeWrite s) ∨
    (s.fault = false ∧ s.enc.flushed = false ∧ s.enc.buf ≠ [] ∧
      ∃ c, flushStream s.cfg.outCap s.enc = .error c ∧ t = raiseMidFault c s) ∨
    (s.fault = false ∧ s.enc.flushed = false ∧ s.enc.buf ≠ [] ∧
      ∃ e, flushStream s.cfg.outCap s.enc = .ok e ∧ t = respondOk (outLenWord e) { s with enc := e }) := by
  rcases whenRunning_next h with h | ⟨hf, h⟩
  · exact .inl h
  · split_ifs at h with hfl hb
    · cases h; exact .inr (.inl ⟨hf, hfl, rfl⟩)
    · cases h; exact .inr (.inr (.inl ⟨hf, by simpa using hfl, List.length_eq_zero_iff.1 hb, rfl⟩))
    · have hfl : s.enc.flushed = false := by simpa using hfl
      have hb : s.enc.buf ≠ [] := fun hc => hb (by rw [hc]; rfl)
      cases hw : flushStream s.cfg.outCap s.enc with
      | error c => rw [hw] at h; cases h; exact .inr (.inr (.inr (.inl ⟨hf, hfl, hb, c, rfl, rfl⟩)))
      | ok e => rw [hw] at h; cases h; exact .inr (.inr (.inr (.inr ⟨hf, hfl, hb, e, rfl, rfl⟩)))

theorem execEncCode_cases {s t : State} (h : execEncCode s = .next t) :
    (s.fault = true ∧ t = halted s) ∨
    (s.fault = false ∧ s.enc.flushed = true ∧ t = respondOk (outLenWord s.enc) s) ∨
    (s.fault = false ∧ s.enc.flushed = false ∧ t = raiseFault .encCodeBeforeFlush s) := by
  rcases whenRunning_next h with h | ⟨hf, h⟩
  · exact .inl h
  · split_ifs at h with hfl
    · cases h; exact .inr (.inl ⟨hf, hfl, rfl⟩)
    · cases h; exact .inr (.inr ⟨hf, by simpa using hfl, rfl⟩)

/-! ## Decoder commands -/

theorem stopDecoder_next {r : DecStop} {s t : State} (h : stopDecoder r s = .next t) :
    ∃ c, r = .fail c ∧ t = failDecoder c s := by
  cases r with
  | fail c => cases h; exact ⟨c, rfl, rfl⟩
  | hole a => cases h

theorem execDecInit_cases {b l : Word} {s t : State} (h : execDecInit b l s = .next t) :
    (s.fault = true ∧ t = halted s) ∨
    (s.fault = false ∧ l.toNat = 0 ∧ t = raiseFault .decEmptySpan s) ∨
    (s.fault = false ∧ l.toNat ≠ 0 ∧ s.cfg.inSize < b.toNat + l.toNat ∧ t = raiseFault .decSpanRange s) ∨
    (s.fault = false ∧ l.toNat ≠ 0 ∧ b.toNat + l.toNat ≤ s.cfg.inSize ∧
      ((∃ c, decoderStop (.fail c) ∧ t = failDecoder c (openSpan b l s)) ∨
        ∃ w pos, readHeader (openSpan b l s) = .ok (w, pos) ∧ t = startStream w pos (openSpan b l s))) := by
  rcases whenRunning_next h with h | ⟨hf, h⟩
  · exact .inl h
  · split_ifs at h with h0 h1
    · cases h; exact .inr (.inl ⟨hf, h0, rfl⟩)
    · cases h; exact .inr (.inr (.inl ⟨hf, h0, h1, rfl⟩))
    · refine .inr (.inr (.inr ⟨hf, h0, by omega, ?_⟩))
      cases hr : readHeader (openSpan b l s) with
      | error r =>
        rw [hr] at h
        obtain ⟨c, rfl, rfl⟩ := stopDecoder_next h
        exact .inl ⟨c, fail_of_readHeader hr, rfl⟩
      | ok q => rw [hr] at h; cases h; exact .inr ⟨q.1, q.2, rfl, rfl⟩

theorem execDecRead_cases {s t : State} (h : execDecRead s = .next t) :
    (s.fault = true ∧ t = halted s) ∨
    (s.fault = false ∧ s.dec.dstate = .uninit ∧ t = raiseFault .decNotInit s) ∨
    (s.fault = false ∧ s.dec.dstate = .failed ∧ t = failedAgain s) ∨
    (s.fault = false ∧ s.dec.dstate = .ready ∧
      ((∃ c, decoderStop (.fail c) ∧ t = failDecoder c s) ∨
        ∃ v n z pos, readSample s = .ok (v, (n, z), pos) ∧ t = commitSample v n z pos s)) := by
  rcases whenRunning_next h with h | ⟨hf, h⟩
  · exact .inl h
  · rcases whenReady_cases s _ with ⟨hd, hw⟩ | ⟨hd, hw⟩ | ⟨hd, hw⟩ <;> rw [hw] at h
    · cases h; exact .inr (.inl ⟨hf, hd, rfl⟩)
    · cases h; exact .inr (.inr (.inl ⟨hf, hd, rfl⟩))
    · refine .inr (.inr (.inr ⟨hf, hd, ?_⟩))
      cases hr : readSample s with
      | error r =>
        rw [hr] at h
        obtain ⟨c, rfl, rfl⟩ := stopDecoder_next h
        exact .inl ⟨c, fail_of_readSample hr, rfl⟩
      | ok q => rw [hr] at h; cases h; exact .inr ⟨_, _, _, _, rfl, rfl⟩

theorem execDecNextCode_cases {s t : State} (h : execDecNextCode s = .next t) :
    (s.fault = true ∧ t = halted s) ∨
    (s.fault = false ∧ s.dec.dstate = .uninit ∧ t = raiseFault .decNotInit s) ∨
    (s.fault = false ∧ s.dec.dstate = .failed ∧ t = failedAgain s) ∨
    (s.fault = false ∧ s.dec.dstate = .ready ∧
      (t = respondOk (BitVec.ofNat 32 (s.dec.base.toNat + ceil8 s.dec.pos)) s ∨
        t = respondOk (Config.freeNextCode s.free) { s with free := s.free + 1 })) := by
  rcases whenRunning_next h with h | ⟨hf, h⟩
  · exact .inl h
  · rcases whenReady_cases s _ with ⟨hd, hw⟩ | ⟨hd, hw⟩ | ⟨hd, hw⟩ <;> rw [hw] at h
    · cases h; exact .inr (.inl ⟨hf, hd, rfl⟩)
    · cases h; exact .inr (.inr (.inl ⟨hf, hd, rfl⟩))
    · refine .inr (.inr (.inr ⟨hf, hd, ?_⟩))
      split_ifs at h <;> cases h
      · exact .inl rfl
      · exact .inr rfl

/-! ## Wire symbols -/

/-- All that a wire symbol can do when it answers a state. -/
theorem takeSymbol_cases {σ : Symbol} {s t : State} (h : takeSymbol σ s = .next t) :
    (s.fault = true ∧ t = halted s) ∨
    (s.fault = false ∧
      ((∃ c, decoderStop (.fail c) ∧ t = failDecoder c s) ∨
        (s.dec.phase = .header ∧ ∃ w pos, t = startStream w pos s) ∨
        (s.dec.dstate = .ready ∧ ∃ n pos, t = { s with dec := { s.dec with pos := pos, phase := .value n s.dec.zc } }) ∨
        (s.dec.dstate = .ready ∧ ∃ v n z pos, t = commitSample v n z pos s))) := by
  rcases whenRunning_next h with h | ⟨hf, h⟩
  · exact .inl h
  · refine .inr ⟨hf, ?_⟩
    have bits {c : Nat} {body : Nat → Host.Outcome State Fault Refusal} (h : takeBits c s body = .next t) :
        (∃ c, decoderStop (.fail c) ∧ t = failDecoder c s) ∨ ∃ pos, body pos = .next t := by
      unfold takeBits at h
      split_ifs at h
      · cases h; exact .inl ⟨_, .inl rfl, rfl⟩
      · exact .inr ⟨_, h⟩
    have header {c w : Nat} (h : takeHeader c w s = .next t) :
        (∃ c, decoderStop (.fail c) ∧ t = failDecoder c s) ∨ s.dec.phase = .header ∧ ∃ w pos, t = startStream w pos s := by
      unfold takeHeader at h
      split_ifs at h with hp
      rcases bits h with h | ⟨pos, h⟩
      · exact .inl h
      · cases h; exact .inr ⟨hp, _, _, rfl⟩
    have trans {c n : Nat} (h : takeTrans c n s = .next t) :
        (∃ c, decoderStop (.fail c) ∧ t = failDecoder c s) ∨
          s.dec.dstate = .ready ∧ ∃ n pos, t = { s with dec := { s.dec with pos := pos, phase := .value n s.dec.zc } } := by
      unfold takeTrans at h
      by_cases ha : s.atTrans = true
      · rw [if_pos ha] at h
        rcases bits h with h | ⟨pos, h⟩
        · exact .inl h
        · split_ifs at h
          · cases h; exact .inl ⟨_, .inr (.inl rfl), rfl⟩
          · cases h; exact .inr ⟨by simp [State.atTrans] at ha; exact ha.1, _, _, rfl⟩
      · rw [if_neg ha] at h; cases h
    have run {k x : Nat} (h : takeRun k x s = .next t) :
        (∃ c, decoderStop (.fail c) ∧ t = failDecoder c s) ∨
          s.dec.dstate = .ready ∧ ∃ v n z pos, t = commitSample v n z pos s := by
      unfold takeRun at h
      by_cases ha : s.atRun = true
      · rw [if_pos ha] at h
        rcases bits h with h | ⟨pos, h⟩
        · exact .inl h
        · cases h; exact .inr ⟨by simp [State.atRun] at ha; exact ha.1, _, _, _, _, rfl⟩
      · rw [if_neg ha] at h; cases h
    have value {c m v : Nat} (h : takeValue c m v s = .next t) :
        (∃ c, decoderStop (.fail c) ∧ t = failDecoder c s) ∨
          s.dec.dstate = .ready ∧ ∃ v n z pos, t = commitSample v n z pos s := by
      unfold takeValue at h
      split at h
      · split_ifs at h with ha
        rcases bits h with h | ⟨pos, h⟩
        · exact .inl h
        · cases h; exact .inr ⟨ha.1, _, _, _, _, rfl⟩
      · cases h
      · cases h
    cases σ with
    | hdr5 w =>
      simp only [symbolEffect] at h
      split_ifs at h
      rcases header h with h | h
      · exact .inl h
      · exact .inr (.inl h)
    | hdr31 => rcases header h with h | h <;> [exact .inl h; exact .inr (.inl h)]
    | hdr32 => rcases header h with h | h <;> [exact .inl h; exact .inr (.inl h)]
    | trSame => rcases trans h with h | h <;> [exact .inl h; exact .inr (.inr (.inl h))]
    | trUp => rcases trans h with h | h <;> [exact .inl h; exact .inr (.inr (.inl h))]
    | trDown => rcases trans h with h | h <;> [exact .inl h; exact .inr (.inr (.inl h))]
    | zr k x => rcases run h with h | h <;> [exact .inl h; exact .inr (.inr (.inr h))]
    | valFull c v => rcases value h with h | h <;> [exact .inl h; exact .inr (.inr (.inr h))]
    | valElided c v => rcases value h with h | h <;> [exact .inl h; exact .inr (.inr (.inr h))]

/-! ## Steps -/

/-- An instruction is a command or a wire symbol. -/
theorem instr_cases (i : Instr) :
    i = .encInit ∨ (∃ v, i = .encWrite v) ∨ i = .encFlush ∨ i = .encCode ∨ (∃ b l, i = .decInit b l) ∨ i = .decRead ∨
      i = .decNextCode ∨ i = .status ∨ ∃ σ, i.symbol? = some σ := by
  cases i <;> first
    | exact .inl rfl
    | exact .inr (.inl ⟨_, rfl⟩)
    | exact .inr (.inr (.inl rfl))
    | exact .inr (.inr (.inr (.inl rfl)))
    | exact .inr (.inr (.inr (.inr (.inl ⟨_, _, rfl⟩))))
    | exact .inr (.inr (.inr (.inr (.inr (.inl rfl)))))
    | exact .inr (.inr (.inr (.inr (.inr (.inr (.inl rfl))))))
    | exact .inr (.inr (.inr (.inr (.inr (.inr (.inr (.inl rfl)))))))
    | exact .inr (.inr (.inr (.inr (.inr (.inr (.inr (.inr ⟨_, rfl⟩)))))))

/-- The command decoder gives commands only: a wire symbol has no word on the command port (R49). -/
theorem decodeCommand_ok {cmd d0 d1 : Word} {i : Instr} (h : decodeCommand cmd d0 d1 = .ok i) :
    i = .encInit ∨ i = .encWrite d0 ∨ i = .encFlush ∨ i = .encCode ∨ i = .decInit d0 d1 ∨ i = .decRead ∨ i = .decNextCode ∨
      i = .status := by
  unfold decodeCommand at h
  split_ifs at h
  split at h <;> cases h <;> simp

/-- All that a host read of OUT can do: the address exists, and only what the host has read and the counter change (R36). -/
theorem hostReadOut_cases {a : Nat} {s t : State} (h : hostReadOut a s = .next t) :
    outHas s.cfg.outCap a = true ∧ t = { s with outData := some (s.readOut a), free := t.free } := by
  unfold hostReadOut at h
  by_cases ha : outHas s.cfg.outCap a = true
  · rw [if_pos ha] at h; cases h; exact ⟨ha, rfl⟩
  · rw [if_neg ha] at h; cases h

/-- A host read of an OUT address that exists completes (R36). -/
theorem hostReadOut_next {a : Nat} {s : State} (ha : outHas s.cfg.outCap a = true) :
    ∃ t, hostReadOut a s = .next t ∧ t = { s with outData := some (s.readOut a), free := t.free } :=
  ⟨_, if_pos ha, rfl⟩

/-- All that a step can do. -/
theorem step_cases {s t : State} (h : step s = .next t) :
    (s.host = [] ∧ t = s) ∨
    (∃ rest, s.host = .reset :: rest ∧ t = hardwareReset { s with host := rest }) ∨
    (∃ a b rest, s.host = .writeIn a b :: rest ∧ a < s.cfg.inSize ∧ t = { s with host := rest, inMem := s.inMem.write a b }) ∨
    (∃ a rest, s.host = .readOut a :: rest ∧ outHas s.cfg.outCap a = true ∧
      t = { s with host := rest, outData := some (s.readOut a), free := t.free }) ∨
    (∃ cmd d0 d1 rest, s.host = .command cmd d0 d1 :: rest ∧
      ((∃ r, decodeCommand cmd d0 d1 = .error r ∧ illegalCommand { s with host := rest } = .next t) ∨
        ∃ i, decodeCommand cmd d0 d1 = .ok i ∧ exec i { s with host := rest } = .next t)) := by
  unfold step at h
  split at h
  · rename_i hh; cases h; exact .inl ⟨hh, rfl⟩
  · rename_i cmd d0 d1 rest hh
    refine .inr (.inr (.inr (.inr ⟨cmd, d0, d1, rest, hh, ?_⟩)))
    unfold runCommand at h
    split at h
    · rename_i i hd; exact .inr ⟨i, hd, h⟩
    · rename_i r hd; exact .inl ⟨r, hd, h⟩
  · rename_i a b rest hh
    unfold hostWriteIn at h
    split_ifs at h with ha
    cases h
    exact .inr (.inr (.inl ⟨a, b, rest, hh, ha, rfl⟩))
  · rename_i a rest hh
    obtain ⟨ha, ht⟩ := hostReadOut_cases h
    exact .inr (.inr (.inr (.inl ⟨a, rest, hh, ha, ht⟩)))
  · rename_i rest hh; cases h; exact .inr (.inl ⟨rest, hh, rfl⟩)

theorem illegalCommand_cases {s t : State} (h : illegalCommand s = .next t) :
    (s.fault = true ∧ t = halted s) ∨ (s.fault = false ∧ t = raiseFault .illegalCmd s) := by
  rcases whenRunning_next h with h | ⟨hf, h⟩
  · exact .inl h
  · cases h; exact .inr ⟨hf, rfl⟩

/-! ## Sequences of instructions -/

/-- The first instruction of a sequence, and the rest. -/
theorem runInstrs_cons {i : Instr} {is : List Instr} {s t u : State} {r : Response} {rs : List Response} (hx : exec i s = .next t)
    (hr : t.resp = some r) (h : runInstrs is t = some (rs, u)) : runInstrs (i :: is) s = some (r :: rs, u) := by
  rw [runInstrs, hx]; simp [hr, h]

end Sys2Proof.Machine
end

