-- ==== Sys2Proof/Laws/Invariant.lean ====
section
/-! SUPPORT. What the operations keep of a sound state (R33, R34). -/

namespace Sys2Proof.Machine

/-- A new stream is sound (R73). -/
theorem encInv_fresh (cap) : EncInv cap .fresh := by
  refine ⟨by decide, by decide, fun h => (by cases h), fun _ => ⟨rfl, rfl, rfl, rfl⟩, fun _ h => (by cases h), rfl, ?_, rfl, fun j => ?_⟩
  · show sinkFull cap 0 = false
    cases cap <;> simp [sinkFull, ceil8]
  · simp [Enc.fresh, Enc.outBytes]

/-- ENC_WRITE's operation keeps the encoder sound (R33). -/
theorem encInv_writeValue {cap v} {e e' : Enc} (hi : EncInv cap e) (hfl : e.flushed = false) (h : writeValue cap v e = .ok e') : EncInv cap e' := by
  have hm : e.mrw ≤ 32 := hi.mrwLe
  rcases writeValue_ok hm h with ⟨hb, rfl⟩ | ⟨hb, h1, h2, h3, h4, h5, h6, h7, h8, h9⟩
  · refine ⟨by have := hi.bufLe; simp; omega, hm, fun h => ?_, hi.notStarted, fun a b => by have := hi.pending a b; simp; omega,
        hi.outLen, hi.capacity, hi.outWf, hi.outRead⟩
    have : e.flushed = true := h
    rw [hfl] at this; cases this
  · have hfl' : e'.flushed = false := h5.trans hfl
    refine ⟨(by rw [h3]; simp [hb]), (by rw [h7]; exact profile_le _ _ _ hm _), fun h => (by rw [hfl'] at h; cases h), fun h =>
        (by rw [h4] at h; cases h),
      fun _ _ => (by rw [h3]; simp [hb]), ?_, h9 hi.capacity, (by rw [h2]; exact put_out_wf _ _ hi.outWf), fun j => ?_⟩
    · have := hi.outLen; rw [hfl] at this; rw [h6, this, hfl']; rfl
    · rw [h2, put_out_read, hi.outRead, ← h1]
      have := congrArg List.length h1
      rw [List.length_append] at this
      simp only [Enc.outBytes, hfl, hfl', Bool.false_eq_true, if_false]
      rw [← this]
      by_cases hj : j < e.ebits.length / 8
      · rw [if_neg (by omega), if_pos hj, if_pos (by omega), h1, streamByte_append _ _ _ hj]
      · rw [if_neg hj]
        by_cases hj2 : j < e'.ebits.length / 8
        · rw [if_pos (by omega), if_pos hj2]
        · rw [if_neg (by omega), if_neg hj2]

/-- ENC_FLUSH's operation keeps the encoder sound (R33). -/
theorem encInv_flushStream {cap} {e e' : Enc} (hi : EncInv cap e) (hfl : e.flushed = false) (hb : e.buf ≠ [])
    (h : flushStream cap e = .ok e') : EncInv cap e' := by
  have hm : e.mrw ≤ 32 := hi.mrwLe
  obtain ⟨h1, h2, h3, h4, h5, h6, h7, h8, h9, h10⟩ := flushStream_ok hm hb h
  refine ⟨(by rw [h4]; simp), (by rw [h8]; exact profile_le _ _ _ hm _), fun _ => ⟨h4, h9, h5⟩, fun h => (by rw [h5] at h; cases h),
    fun h => (by rw [h6] at h; cases h), (by rw [h7, h6]; rfl), h10 hi.capacity, h3 hi.outWf, fun j => ?_⟩
  rw [h2, hi.outRead]
  simp only [Enc.outBytes, hfl, h6, Bool.false_eq_true, if_false, if_true]
  have := congrArg List.length h1
  rw [List.length_append] at this
  have c8 : e'.ebits.length / 8 ≤ ceil8 e'.ebits.length := by unfold ceil8; omega
  by_cases hj : j < e.ebits.length / 8
  · rw [if_neg (by omega), if_pos hj, if_pos (by omega), h1, streamByte_append _ _ _ hj]
  · rw [if_neg hj]
    by_cases hj2 : j < ceil8 e'.ebits.length
    · rw [if_pos (by omega), if_pos hj2]
    · rw [if_neg (by omega), if_neg hj2]

/-- What a sample read inside the span leaves in range (R29, R34). -/
theorem readSample_range {s : State} (hs : InSpan s) (hi : DecInv s.cfg s.dec) (hd : s.dec.dstate = .ready) {v n z pos}
   (h : readSample s = .ok (v, (n, z), pos)) : n ≤ 32 ∧ (-1 ≤ z ∧ z ≤ 2^32 - 3) ∧ (0 ≤ z → n = 0) ∧ 5 ≤ pos ∧ pos ≤ 8 * s.dec.len.toNat := by
  have hc := hi.cwLe hd
  have hz := hi.zcRange hd
  have hzw := hi.zcWidth hd
  have hp := hi.posRange hd
  simp only [Config.maxWidth] at hc
  by_cases h0 : s.dec.cw = 0
  · by_cases hz0 : 0 ≤ s.dec.zc
    · rw [readSample_count h0 hz0] at h
      simp only [countdownStep] at h
      cases h
      refine ⟨by split_ifs <;> omega, by omega, fun h => by rw [if_neg (by omega)], hp⟩
    · rw [readSample_run hs h0 (by omega)] at h
      split at h <;> cases h
      rename_i k x rest hd
      obtain ⟨k', x', he, h2, h3, h4⟩ := decodeRun_ok (by omega) hd
      cases he
      have := congrArg List.length h4
      simp [restBits_eq, bitsFrom_length] at this
      have hk : (2:Nat) ^ (0 + k') ≤ 2 ^ 31 := Nat.pow_le_pow_right (by decide) h2
      have hk1 : 1 ≤ (2:Nat) ^ (0 + k') := Nat.one_le_two_pow
      refine ⟨by split_ifs <;> omega, by omega, fun h => by rw [if_neg (by omega)], by omega, by omega⟩
  · rw [readSample_trans h0] at h
    obtain ⟨q, h1, h⟩ := bind_ok h
    obtain ⟨q2, h2, h⟩ := bind_ok h
    cases h
    have b1 : q.1 ≤ 32 ∧ s.dec.pos < q.2 ∧ q.2 ≤ 8 * s.dec.len.toNat := by
      rw [transStep_eq hs] at h1
      rcases hb : bitsFrom s s.dec.pos with _ | ⟨b, _ | ⟨b', rest⟩⟩ <;> rw [hb] at h1
      · cases h1
      · have := congrArg List.length hb; simp [bitsFrom_length] at this
        cases b <;> simp [decodeTrans] at h1
        cases h1; simp; omega
      · have := congrArg List.length hb; simp [bitsFrom_length] at this
        cases b <;> cases b' <;> simp only [decodeTrans] at h1
        · cases h1; simp; omega
        · cases h1; simp; omega
        · cases h1; simp; omega
        · split_ifs at h1; cases h1; simp; omega
    have b2 : q.2 ≤ q2.2 ∧ (q.2 ≤ 8 * s.dec.len.toNat → q2.2 ≤ 8 * s.dec.len.toNat) := by
      rw [valueStep_eq hs _ _ _ _ h0] at h2
      unfold decodeValue at h2
      rw [if_neg h0] at h2
      split_ifs at h2 
      · cases hf : takeField (s.dec.cw - 1) (bitsFrom s q.2) <;> rw [hf] at h2 <;> simp at h2
        obtain ⟨_, h5⟩ := takeField_bitsFrom hf
        subst h2; simp; omega
      · cases hf : takeField (s.dec.cw) (bitsFrom s q.2) <;> rw [hf] at h2 <;> simp at h2
        obtain ⟨_, h5⟩ := takeField_bitsFrom hf
        subst h2; simp; omega
    obtain ⟨_,_,_⟩ := b1; obtain ⟨_,_⟩ := b2
    exact ⟨by omega, hz, fun hh => absurd (hzw hh) h0, by omega, by omega⟩

/-- What a header read inside the span leaves in range (R34). -/
theorem readHeader_range {s : State} (hs : InSpan s) (hp : s.dec.pos = 0) {w pos} (h : readHeader s = .ok (w, pos)) : w ≤ 32 ∧
    5 ≤ pos ∧ pos ≤ 8 * s.dec.len.toNat := by
  rw [readHeader_eq hs] at h
  cases hd : decodeHeader (bitsFrom s s.dec.pos) with
  | error r => rw [hd] at h; cases h
  | ok q =>
    obtain ⟨σ, rest⟩ := q
    obtain ⟨w1, w2, w3⟩ := decodeSymbol_ok (ctx := .header) hd (by intros; contradiction)
    have := congrArg List.length w3
    rw [bitsFrom_length] at this
    rw [hd] at h
    cases σ <;> simp [Symbol.fits] at w2 <;> simp [Symbol.bits] at this <;> cases h
    · have : w < 31 := by simpa [Symbol.wf, Config.headerEscape] using w1
      omega
    · omega
    · omega

/-- A failure keeps the decoder sound (R103). -/
theorem decInv_failDecoder {s : State} {c} (hc : decoderStop (.fail c)) : DecInv s.cfg (failDecoder c s).dec := by
  rw [failDecoder_dec]
  refine ⟨?_, ?_, ?_, ?_, ?_, ?_, ?_, ?_, rfl⟩
  · simp; rcases hc with h | h | h <;> cases h <;> simp
  · rcases hc with h | h | h <;> cases h <;> simp
  all_goals intro h; cases h

/-- Bit i of a stream byte is bit 8j + i of the stream, or 0 past its end (R38, R41). -/
theorem streamByte_getLsbD (bits : List Bool) (j i : Nat) (hi : i < 8) : (streamByte bits j).getLsbD i = bits.getD (8*j+i) false := by
  unfold streamByte byteOfBits
  have key : ∀ l : List Bool, l.length ≤ 8 → (BitVec.ofNat 8 (fieldVal l)).getLsbD i = l.getD i false := by
    intro l hl
    rw [BitVec.getLsbD_ofNat]
    simp only [hi, decide_true, Bool.true_and]
    by_cases h : i < l.length
    · have e := fieldBits_getElem? l.length (fieldVal l) i h
      rw [fieldBits_fieldVal] at e
      rw [List.getD_eq_getElem?_getD, e]; rfl
    · rw [List.getD_eq_getElem?_getD, List.getElem?_eq_none (by omega)]
      exact Nat.testBit_lt_two_pow (Nat.lt_of_lt_of_le (fieldVal_lt l) (Nat.pow_le_pow_right (by decide) (by omega)))
  rw [key _ (by simp)]
  rw [List.getD_eq_getElem?_getD, List.getD_eq_getElem?_getD, List.getElem?_take_of_lt hi, List.getElem?_drop]

end Sys2Proof.Machine
end

