-- ==== Sys2Proof/Laws/PerInstr.lean ====
section
/-! SUPPORT. The per-instruction family `SymbolView`: the two ways of naming a wire symbol, its constructor of `Instr` and its
`Symbol`, name the same thing, one lemma per constructor. -/

namespace Sys2Proof.Laws.SymbolView

/-- A field's number, as a bit vector of the field's width, is the field. -/
theorem ofNat_toNat_self (x : BitVec w) : BitVec.ofNat w x.toNat = x := BitVec.eq_of_toNat_eq (by simp)

/-- An instruction that has a wire symbol is the instruction of that symbol. -/
def Statement (i : Instr) : Prop := ∀ σ, i.symbol? = some σ → σ.instr? = some i

theorem encInit : Statement (.encInit) := by intro σ h; cases h
theorem encWrite (v : Word) : Statement (.encWrite v) := by intro σ h; cases h
theorem encFlush : Statement (.encFlush) := by intro σ h; cases h
theorem encCode : Statement (.encCode) := by intro σ h; cases h
theorem decInit (b : Word) (l : Word) : Statement (.decInit b l) := by intro σ h; cases h
theorem decRead : Statement (.decRead) := by intro σ h; cases h
theorem decNextCode : Statement (.decNextCode) := by intro σ h; cases h
theorem status : Statement (.status) := by intro σ h; cases h
theorem hdr5 (h : BitVec 5) : Statement (.hdr5 h) := by
  intro σ h; cases h; exact congrArg (fun y => some (Instr.hdr5 y)) (ofNat_toNat_self h)
theorem hdr31 : Statement (.hdr31) := by intro σ h; cases h; rfl
theorem hdr32 : Statement (.hdr32) := by intro σ h; cases h; rfl
theorem trSame : Statement (.trSame) := by intro σ h; cases h; rfl
theorem trUp : Statement (.trUp) := by intro σ h; cases h; rfl
theorem trDown : Statement (.trDown) := by intro σ h; cases h; rfl
theorem zr0 : Statement (.zr0) := by intro σ h; cases h; rfl
theorem zr1 (x : BitVec 1) : Statement (.zr1 x) := by
  intro σ h; cases h; exact congrArg (fun y => some (Instr.zr1 y)) (ofNat_toNat_self x)
theorem zr2 (x : BitVec 2) : Statement (.zr2 x) := by
  intro σ h; cases h; exact congrArg (fun y => some (Instr.zr2 y)) (ofNat_toNat_self x)
theorem zr3 (x : BitVec 3) : Statement (.zr3 x) := by
  intro σ h; cases h; exact congrArg (fun y => some (Instr.zr3 y)) (ofNat_toNat_self x)
theorem zr4 (x : BitVec 4) : Statement (.zr4 x) := by
  intro σ h; cases h; exact congrArg (fun y => some (Instr.zr4 y)) (ofNat_toNat_self x)
theorem zr5 (x : BitVec 5) : Statement (.zr5 x) := by
  intro σ h; cases h; exact congrArg (fun y => some (Instr.zr5 y)) (ofNat_toNat_self x)
theorem zr6 (x : BitVec 6) : Statement (.zr6 x) := by
  intro σ h; cases h; exact congrArg (fun y => some (Instr.zr6 y)) (ofNat_toNat_self x)
theorem zr7 (x : BitVec 7) : Statement (.zr7 x) := by
  intro σ h; cases h; exact congrArg (fun y => some (Instr.zr7 y)) (ofNat_toNat_self x)
theorem zr8 (x : BitVec 8) : Statement (.zr8 x) := by
  intro σ h; cases h; exact congrArg (fun y => some (Instr.zr8 y)) (ofNat_toNat_self x)
theorem zr9 (x : BitVec 9) : Statement (.zr9 x) := by
  intro σ h; cases h; exact congrArg (fun y => some (Instr.zr9 y)) (ofNat_toNat_self x)
theorem zr10 (x : BitVec 10) : Statement (.zr10 x) := by
  intro σ h; cases h; exact congrArg (fun y => some (Instr.zr10 y)) (ofNat_toNat_self x)
theorem zr11 (x : BitVec 11) : Statement (.zr11 x) := by
  intro σ h; cases h; exact congrArg (fun y => some (Instr.zr11 y)) (ofNat_toNat_self x)
theorem zr12 (x : BitVec 12) : Statement (.zr12 x) := by
  intro σ h; cases h; exact congrArg (fun y => some (Instr.zr12 y)) (ofNat_toNat_self x)
theorem zr13 (x : BitVec 13) : Statement (.zr13 x) := by
  intro σ h; cases h; exact congrArg (fun y => some (Instr.zr13 y)) (ofNat_toNat_self x)
theorem zr14 (x : BitVec 14) : Statement (.zr14 x) := by
  intro σ h; cases h; exact congrArg (fun y => some (Instr.zr14 y)) (ofNat_toNat_self x)
theorem zr15 (x : BitVec 15) : Statement (.zr15 x) := by
  intro σ h; cases h; exact congrArg (fun y => some (Instr.zr15 y)) (ofNat_toNat_self x)
theorem zr16 (x : BitVec 16) : Statement (.zr16 x) := by
  intro σ h; cases h; exact congrArg (fun y => some (Instr.zr16 y)) (ofNat_toNat_self x)
theorem zr17 (x : BitVec 17) : Statement (.zr17 x) := by
  intro σ h; cases h; exact congrArg (fun y => some (Instr.zr17 y)) (ofNat_toNat_self x)
theorem zr18 (x : BitVec 18) : Statement (.zr18 x) := by
  intro σ h; cases h; exact congrArg (fun y => some (Instr.zr18 y)) (ofNat_toNat_self x)
theorem zr19 (x : BitVec 19) : Statement (.zr19 x) := by
  intro σ h; cases h; exact congrArg (fun y => some (Instr.zr19 y)) (ofNat_toNat_self x)
theorem zr20 (x : BitVec 20) : Statement (.zr20 x) := by
  intro σ h; cases h; exact congrArg (fun y => some (Instr.zr20 y)) (ofNat_toNat_self x)
theorem zr21 (x : BitVec 21) : Statement (.zr21 x) := by
  intro σ h; cases h; exact congrArg (fun y => some (Instr.zr21 y)) (ofNat_toNat_self x)
theorem zr22 (x : BitVec 22) : Statement (.zr22 x) := by
  intro σ h; cases h; exact congrArg (fun y => some (Instr.zr22 y)) (ofNat_toNat_self x)
theorem zr23 (x : BitVec 23) : Statement (.zr23 x) := by
  intro σ h; cases h; exact congrArg (fun y => some (Instr.zr23 y)) (ofNat_toNat_self x)
theorem zr24 (x : BitVec 24) : Statement (.zr24 x) := by
  intro σ h; cases h; exact congrArg (fun y => some (Instr.zr24 y)) (ofNat_toNat_self x)
theorem zr25 (x : BitVec 25) : Statement (.zr25 x) := by
  intro σ h; cases h; exact congrArg (fun y => some (Instr.zr25 y)) (ofNat_toNat_self x)
theorem zr26 (x : BitVec 26) : Statement (.zr26 x) := by
  intro σ h; cases h; exact congrArg (fun y => some (Instr.zr26 y)) (ofNat_toNat_self x)
theorem zr27 (x : BitVec 27) : Statement (.zr27 x) := by
  intro σ h; cases h; exact congrArg (fun y => some (Instr.zr27 y)) (ofNat_toNat_self x)
theorem zr28 (x : BitVec 28) : Statement (.zr28 x) := by
  intro σ h; cases h; exact congrArg (fun y => some (Instr.zr28 y)) (ofNat_toNat_self x)
theorem zr29 (x : BitVec 29) : Statement (.zr29 x) := by
  intro σ h; cases h; exact congrArg (fun y => some (Instr.zr29 y)) (ofNat_toNat_self x)
theorem zr30 (x : BitVec 30) : Statement (.zr30 x) := by
  intro σ h; cases h; exact congrArg (fun y => some (Instr.zr30 y)) (ofNat_toNat_self x)
theorem zr31 (x : BitVec 31) : Statement (.zr31 x) := by
  intro σ h; cases h; exact congrArg (fun y => some (Instr.zr31 y)) (ofNat_toNat_self x)
theorem valFull1 (v : BitVec 1) : Statement (.valFull1 v) := by
  intro σ h; cases h; exact congrArg (fun y => some (Instr.valFull1 y)) (ofNat_toNat_self v)
theorem valFull2 (v : BitVec 2) : Statement (.valFull2 v) := by
  intro σ h; cases h; exact congrArg (fun y => some (Instr.valFull2 y)) (ofNat_toNat_self v)
theorem valFull3 (v : BitVec 3) : Statement (.valFull3 v) := by
  intro σ h; cases h; exact congrArg (fun y => some (Instr.valFull3 y)) (ofNat_toNat_self v)
theorem valFull4 (v : BitVec 4) : Statement (.valFull4 v) := by
  intro σ h; cases h; exact congrArg (fun y => some (Instr.valFull4 y)) (ofNat_toNat_self v)
theorem valFull5 (v : BitVec 5) : Statement (.valFull5 v) := by
  intro σ h; cases h; exact congrArg (fun y => some (Instr.valFull5 y)) (ofNat_toNat_self v)
theorem valFull6 (v : BitVec 6) : Statement (.valFull6 v) := by
  intro σ h; cases h; exact congrArg (fun y => some (Instr.valFull6 y)) (ofNat_toNat_self v)
theorem valFull7 (v : BitVec 7) : Statement (.valFull7 v) := by
  intro σ h; cases h; exact congrArg (fun y => some (Instr.valFull7 y)) (ofNat_toNat_self v)
theorem valFull8 (v : BitVec 8) : Statement (.valFull8 v) := by
  intro σ h; cases h; exact congrArg (fun y => some (Instr.valFull8 y)) (ofNat_toNat_self v)
theorem valFull9 (v : BitVec 9) : Statement (.valFull9 v) := by
  intro σ h; cases h; exact congrArg (fun y => some (Instr.valFull9 y)) (ofNat_toNat_self v)
theorem valFull10 (v : BitVec 10) : Statement (.valFull10 v) := by
  intro σ h; cases h; exact congrArg (fun y => some (Instr.valFull10 y)) (ofNat_toNat_self v)
theorem valFull11 (v : BitVec 11) : Statement (.valFull11 v) := by
  intro σ h; cases h; exact congrArg (fun y => some (Instr.valFull11 y)) (ofNat_toNat_self v)
theorem valFull12 (v : BitVec 12) : Statement (.valFull12 v) := by
  intro σ h; cases h; exact congrArg (fun y => some (Instr.valFull12 y)) (ofNat_toNat_self v)
theorem valFull13 (v : BitVec 13) : Statement (.valFull13 v) := by
  intro σ h; cases h; exact congrArg (fun y => some (Instr.valFull13 y)) (ofNat_toNat_self v)
theorem valFull14 (v : BitVec 14) : Statement (.valFull14 v) := by
  intro σ h; cases h; exact congrArg (fun y => some (Instr.valFull14 y)) (ofNat_toNat_self v)
theorem valFull15 (v : BitVec 15) : Statement (.valFull15 v) := by
  intro σ h; cases h; exact congrArg (fun y => some (Instr.valFull15 y)) (ofNat_toNat_self v)
theorem valFull16 (v : BitVec 16) : Statement (.valFull16 v) := by
  intro σ h; cases h; exact congrArg (fun y => some (Instr.valFull16 y)) (ofNat_toNat_self v)
theorem valFull17 (v : BitVec 17) : Statement (.valFull17 v) := by
  intro σ h; cases h; exact congrArg (fun y => some (Instr.valFull17 y)) (ofNat_toNat_self v)
theorem valFull18 (v : BitVec 18) : Statement (.valFull18 v) := by
  intro σ h; cases h; exact congrArg (fun y => some (Instr.valFull18 y)) (ofNat_toNat_self v)
theorem valFull19 (v : BitVec 19) : Statement (.valFull19 v) := by
  intro σ h; cases h; exact congrArg (fun y => some (Instr.valFull19 y)) (ofNat_toNat_self v)
theorem valFull20 (v : BitVec 20) : Statement (.valFull20 v) := by
  intro σ h; cases h; exact congrArg (fun y => some (Instr.valFull20 y)) (ofNat_toNat_self v)
theorem valFull21 (v : BitVec 21) : Statement (.valFull21 v) := by
  intro σ h; cases h; exact congrArg (fun y => some (Instr.valFull21 y)) (ofNat_toNat_self v)
theorem valFull22 (v : BitVec 22) : Statement (.valFull22 v) := by
  intro σ h; cases h; exact congrArg (fun y => some (Instr.valFull22 y)) (ofNat_toNat_self v)
theorem valFull23 (v : BitVec 23) : Statement (.valFull23 v) := by
  intro σ h; cases h; exact congrArg (fun y => some (Instr.valFull23 y)) (ofNat_toNat_self v)
theorem valFull24 (v : BitVec 24) : Statement (.valFull24 v) := by
  intro σ h; cases h; exact congrArg (fun y => some (Instr.valFull24 y)) (ofNat_toNat_self v)
theorem valFull25 (v : BitVec 25) : Statement (.valFull25 v) := by
  intro σ h; cases h; exact congrArg (fun y => some (Instr.valFull25 y)) (ofNat_toNat_self v)
theorem valFull26 (v : BitVec 26) : Statement (.valFull26 v) := by
  intro σ h; cases h; exact congrArg (fun y => some (Instr.valFull26 y)) (ofNat_toNat_self v)
theorem valFull27 (v : BitVec 27) : Statement (.valFull27 v) := by
  intro σ h; cases h; exact congrArg (fun y => some (Instr.valFull27 y)) (ofNat_toNat_self v)
theorem valFull28 (v : BitVec 28) : Statement (.valFull28 v) := by
  intro σ h; cases h; exact congrArg (fun y => some (Instr.valFull28 y)) (ofNat_toNat_self v)
theorem valFull29 (v : BitVec 29) : Statement (.valFull29 v) := by
  intro σ h; cases h; exact congrArg (fun y => some (Instr.valFull29 y)) (ofNat_toNat_self v)
theorem valFull30 (v : BitVec 30) : Statement (.valFull30 v) := by
  intro σ h; cases h; exact congrArg (fun y => some (Instr.valFull30 y)) (ofNat_toNat_self v)
theorem valFull31 (v : BitVec 31) : Statement (.valFull31 v) := by
  intro σ h; cases h; exact congrArg (fun y => some (Instr.valFull31 y)) (ofNat_toNat_self v)
theorem valFull32 (v : BitVec 32) : Statement (.valFull32 v) := by
  intro σ h; cases h; exact congrArg (fun y => some (Instr.valFull32 y)) (ofNat_toNat_self v)
theorem valElided1 : Statement (.valElided1) := by intro σ h; cases h; rfl
theorem valElided2 (v : BitVec 1) : Statement (.valElided2 v) := by
  intro σ h; cases h; exact congrArg (fun y => some (Instr.valElided2 y)) (ofNat_toNat_self v)
theorem valElided3 (v : BitVec 2) : Statement (.valElided3 v) := by
  intro σ h; cases h; exact congrArg (fun y => some (Instr.valElided3 y)) (ofNat_toNat_self v)
theorem valElided4 (v : BitVec 3) : Statement (.valElided4 v) := by
  intro σ h; cases h; exact congrArg (fun y => some (Instr.valElided4 y)) (ofNat_toNat_self v)
theorem valElided5 (v : BitVec 4) : Statement (.valElided5 v) := by
  intro σ h; cases h; exact congrArg (fun y => some (Instr.valElided5 y)) (ofNat_toNat_self v)
theorem valElided6 (v : BitVec 5) : Statement (.valElided6 v) := by
  intro σ h; cases h; exact congrArg (fun y => some (Instr.valElided6 y)) (ofNat_toNat_self v)
theorem valElided7 (v : BitVec 6) : Statement (.valElided7 v) := by
  intro σ h; cases h; exact congrArg (fun y => some (Instr.valElided7 y)) (ofNat_toNat_self v)
theorem valElided8 (v : BitVec 7) : Statement (.valElided8 v) := by
  intro σ h; cases h; exact congrArg (fun y => some (Instr.valElided8 y)) (ofNat_toNat_self v)
theorem valElided9 (v : BitVec 8) : Statement (.valElided9 v) := by
  intro σ h; cases h; exact congrArg (fun y => some (Instr.valElided9 y)) (ofNat_toNat_self v)
theorem valElided10 (v : BitVec 9) : Statement (.valElided10 v) := by
  intro σ h; cases h; exact congrArg (fun y => some (Instr.valElided10 y)) (ofNat_toNat_self v)
theorem valElided11 (v : BitVec 10) : Statement (.valElided11 v) := by
  intro σ h; cases h; exact congrArg (fun y => some (Instr.valElided11 y)) (ofNat_toNat_self v)
theorem valElided12 (v : BitVec 11) : Statement (.valElided12 v) := by
  intro σ h; cases h; exact congrArg (fun y => some (Instr.valElided12 y)) (ofNat_toNat_self v)
theorem valElided13 (v : BitVec 12) : Statement (.valElided13 v) := by
  intro σ h; cases h; exact congrArg (fun y => some (Instr.valElided13 y)) (ofNat_toNat_self v)
theorem valElided14 (v : BitVec 13) : Statement (.valElided14 v) := by
  intro σ h; cases h; exact congrArg (fun y => some (Instr.valElided14 y)) (ofNat_toNat_self v)
theorem valElided15 (v : BitVec 14) : Statement (.valElided15 v) := by
  intro σ h; cases h; exact congrArg (fun y => some (Instr.valElided15 y)) (ofNat_toNat_self v)
theorem valElided16 (v : BitVec 15) : Statement (.valElided16 v) := by
  intro σ h; cases h; exact congrArg (fun y => some (Instr.valElided16 y)) (ofNat_toNat_self v)
theorem valElided17 (v : BitVec 16) : Statement (.valElided17 v) := by
  intro σ h; cases h; exact congrArg (fun y => some (Instr.valElided17 y)) (ofNat_toNat_self v)
theorem valElided18 (v : BitVec 17) : Statement (.valElided18 v) := by
  intro σ h; cases h; exact congrArg (fun y => some (Instr.valElided18 y)) (ofNat_toNat_self v)
theorem valElided19 (v : BitVec 18) : Statement (.valElided19 v) := by
  intro σ h; cases h; exact congrArg (fun y => some (Instr.valElided19 y)) (ofNat_toNat_self v)
theorem valElided20 (v : BitVec 19) : Statement (.valElided20 v) := by
  intro σ h; cases h; exact congrArg (fun y => some (Instr.valElided20 y)) (ofNat_toNat_self v)
theorem valElided21 (v : BitVec 20) : Statement (.valElided21 v) := by
  intro σ h; cases h; exact congrArg (fun y => some (Instr.valElided21 y)) (ofNat_toNat_self v)
theorem valElided22 (v : BitVec 21) : Statement (.valElided22 v) := by
  intro σ h; cases h; exact congrArg (fun y => some (Instr.valElided22 y)) (ofNat_toNat_self v)
theorem valElided23 (v : BitVec 22) : Statement (.valElided23 v) := by
  intro σ h; cases h; exact congrArg (fun y => some (Instr.valElided23 y)) (ofNat_toNat_self v)
theorem valElided24 (v : BitVec 23) : Statement (.valElided24 v) := by
  intro σ h; cases h; exact congrArg (fun y => some (Instr.valElided24 y)) (ofNat_toNat_self v)
theorem valElided25 (v : BitVec 24) : Statement (.valElided25 v) := by
  intro σ h; cases h; exact congrArg (fun y => some (Instr.valElided25 y)) (ofNat_toNat_self v)
theorem valElided26 (v : BitVec 25) : Statement (.valElided26 v) := by
  intro σ h; cases h; exact congrArg (fun y => some (Instr.valElided26 y)) (ofNat_toNat_self v)
theorem valElided27 (v : BitVec 26) : Statement (.valElided27 v) := by
  intro σ h; cases h; exact congrArg (fun y => some (Instr.valElided27 y)) (ofNat_toNat_self v)
theorem valElided28 (v : BitVec 27) : Statement (.valElided28 v) := by
  intro σ h; cases h; exact congrArg (fun y => some (Instr.valElided28 y)) (ofNat_toNat_self v)
theorem valElided29 (v : BitVec 28) : Statement (.valElided29 v) := by
  intro σ h; cases h; exact congrArg (fun y => some (Instr.valElided29 y)) (ofNat_toNat_self v)
theorem valElided30 (v : BitVec 29) : Statement (.valElided30 v) := by
  intro σ h; cases h; exact congrArg (fun y => some (Instr.valElided30 y)) (ofNat_toNat_self v)
theorem valElided31 (v : BitVec 30) : Statement (.valElided31 v) := by
  intro σ h; cases h; exact congrArg (fun y => some (Instr.valElided31 y)) (ofNat_toNat_self v)
theorem valElided32 (v : BitVec 31) : Statement (.valElided32 v) := by
  intro σ h; cases h; exact congrArg (fun y => some (Instr.valElided32 y)) (ofNat_toNat_self v)

end Sys2Proof.Laws.SymbolView
end

