-- ==== Sys2Proof/Laws/Stream.lean ====
section
/-! SUPPORT. Whole streams, one sample at a time: what the encoder has committed after k writes (R54, R70, R84), and how the
decoder stays in step with the samples (R95). -/

namespace Sys2Proof.Machine

/-! ## The widths of a stream (R69) -/

/-- SP[0..N] of a stream (R69, R84). -/
def streamWidths (vs : List Word) : List Nat := (List.range (vs.length + 1)).map (streamWidth vs)

theorem streamWidths_length (vs) : (streamWidths vs).length = vs.length + 1 := by simp [streamWidths]

theorem streamWidths_getD (vs : List Word) (i) (h : i ≤ vs.length) : (streamWidths vs).getD i 0 = streamWidth vs i := by
  simp [streamWidths, List.getD_eq_getElem?_getD, Nat.lt_succ_of_le h]

theorem drop_getD (W : List Nat) (g i) : (W.drop g).getD i 0 = W.getD (g + i) 0 := by
  simp [List.getD_eq_getElem?_getD]

/-- A carried width fits R9's range. -/
theorem carriedWidth_le (vs : List Word) (g) (hg : g ≤ vs.length) : carriedWidth vs g ≤ 32 := by
  unfold carriedWidth; split_ifs
  · omega
  · rw [streamWidth_le_iff _ _ _ (by omega)]; intro j _; have := widthAt_le vs j; omega

/-- Where the top bit is left out it is 1 (R72). -/
theorem elided_top_bit (vs : List Word) (i : Nat) (hi : i < vs.length) (h0 : 0 < streamWidth vs i)
    (hl : i = 0 ∨ streamWidth vs (i - 1) ≤ streamWidth vs i) (hr : streamWidth vs (i + 1) ≤ streamWidth vs i) : 2 ^
        (streamWidth vs i - 1) ≤ (vs.getD i 0).toNat := by
  have hge : widthAt vs i ≤ streamWidth vs i := by
    have := (streamWidth_le_iff vs i _ hi).1 le_rfl i hi; omega
  have heq : widthAt vs i = streamWidth vs i := by
    by_contra hne
    have : streamWidth vs i ≤ streamWidth vs i - 1 := by
      rw [streamWidth_le_iff vs i _ hi]
      intro j hj
      rcases Nat.lt_trichotomy j i with h | h | h
      · have hl := hl.resolve_left (by omega)
        have := (streamWidth_le_iff vs (i-1) _ (by omega)).1 hl j hj
        omega
      · subst h; omega
      · have := (streamWidth_le_iff vs (i+1) _ (by omega)).1 hr j hj
        omega
    omega
  have hv : (vs.getD i 0).toNat ≠ 0 := by
    intro hz; unfold widthAt at heq; rw [hz] at heq; simp at heq; omega
  have h1 := pow_bitwidth_le hv
  have hb : bitwidth (vs.getD i 0).toNat = streamWidth vs i := heq
  rwa [hb] at h1

/-- A stream's widths fit R9's range. -/
theorem streamWidth_le (vs : List Word) (i) (hi : i < vs.length) : streamWidth vs i ≤ 32 := by
  rw [streamWidth_le_iff _ _ _ hi]; intro j _; have := widthAt_le vs j; omega

/-- A stream's widths step by one (R68). -/
theorem streamWidth_step (vs : List Word) (i) (hi : i < vs.length) : streamWidth vs (i+1) ≤ streamWidth vs i + 1 ∧
    streamWidth vs i ≤ streamWidth vs (i+1) + 1 := by
  by_cases h : i + 1 < vs.length
  · constructor
    · rw [streamWidth_le_iff _ _ _ h]; intro j hj
      have := (streamWidth_le_iff vs i _ hi).1 le_rfl j hj; omega
    · rw [streamWidth_le_iff _ _ _ hi]; intro j hj
      have := (streamWidth_le_iff vs (i+1) _ h).1 le_rfl j hj; omega
  · rw [streamWidth_sentinel vs (i+1) (by omega), show vs.length - 1 = i by omega]; omega

/-! ## The encoder, write by write -/

/-- The symbols of g + m samples, from those of the first g and a window's widths (R70). -/
theorem sampleSymbols_window (vs : List Word) (g m : Nat) (W : List Nat) (hg : g + m ≤ vs.length) (hW : m < W.length)
   (h : ∀ i, i ≤ m → W.getD i 0 = streamWidth vs (g + i)) :
   sampleSymbols 0 0 (vs.take (g + m)) (streamWidths vs) = 
     ((sampleSymbols 0 0 (vs.take g) (streamWidths vs)).1 ++
         (sampleSymbols (carriedWidth vs g) (sampleSymbols 0 0 (vs.take g) (streamWidths vs)).2 ((vs.drop g).take m) W).1,
      (sampleSymbols (carriedWidth vs g) (sampleSymbols 0 0 (vs.take g) (streamWidths vs)).2 ((vs.drop g).take m) W).2) := by
  have ht : vs.take (g + m) = vs.take g ++ (vs.drop g).take m := List.take_add
  have hl : (vs.take g).length = g := by simp; omega
  rw [ht, sampleSymbols_append _ _ _ _ _ (by rw [hl, streamWidths_length]; omega), hl]
  have hp : (if g = 0 then 0 else (streamWidths vs).getD (g - 1) 0) = carriedWidth vs g := by
    unfold carriedWidth; split_ifs
    · rfl
    · rw [streamWidths_getD _ _ (by omega)]
  have hlm : ((vs.drop g).take m).length = m := by simp; omega
  rw [hp]
  dsimp only
  rw [sampleSymbols_congr _ _ _ ((streamWidths vs).drop g) W (by rw [hlm]; simp [streamWidths_length]; omega) (by omega) fun i hi => by
    rw [drop_getD, streamWidths_getD _ _ (by omega), h i (by omega)]]

/-- What the encoder holds after k writes of the stream `vs`, g of them committed (R54, R70). -/
structure Committed (vs : List Word) (k g : Nat) (e : Enc) : Prop where
  inv : EncInv none e
  gk : g ≤ k
  kN : k ≤ vs.length
  buf : e.buf = (vs.take k).drop g
  flushed : e.flushed = false
  mrw : e.mrw = carriedWidth vs g
  started : e.started = decide (0 < g)
  nz : e.nz.toNat = (sampleSymbols 0 0 (vs.take g) (streamWidths vs)).2
  ebits : e.ebits = (if g = 0 then [] else (headerSymbol (streamWidth vs 0)).bits) ++ symbolBits (sampleSymbols 0 0 (vs.take g) (streamWidths vs)).1
  pend : g = 0 ∨ 32 ≤ k - g

/-- One more write of the stream (R74). -/
theorem Committed.write {vs : List Word} {k g : Nat} {e : Enc} (h : Committed vs k g e) (hk : k < vs.length) (hN : vs.length < 2 ^ 32) :
    ∃ e' g', writeValue none (vs.getD k 0) e = .ok e' ∧ Committed vs (k+1) g' e' := by
  have hbl : e.buf.length = k - g := by rw [h.buf]; simp; omega
  have hap : e.buf ++ [vs.getD k 0] = (vs.take (k+1)).drop g := by
    rw [h.buf, List.take_add_one, List.drop_append_of_le_length (by simp; have := h.gk; omega)]
    congr 1
    simp [List.getElem?_eq_getElem hk]
  have hm : e.mrw ≤ 32 := h.inv.mrwLe
  by_cases hb : e.buf.length = 63
  · have hg := h.gk
    have hB : e.buf ++ [vs.getD k 0] = (vs.drop g).take 64 := by
      rw [hap, List.drop_take]; congr 1; omega
    have hwin : ∀ i, i ≤ 32 → (profile ((vs.drop g).take 64) (carriedWidth vs g) false).getD i 0 = streamWidth vs (g + i) := fun i hi =>
      profile_window vs g 64 i false (by omega) (by omega) (by omega)
    have hle := sampleSymbols_le (vs.take g) 0 0 (streamWidths vs)
    obtain ⟨e', he⟩ := writeValue_fits (cap := none) (v := vs.getD k 0) hm hb (by rw [h.nz]; simp at hle; omega) rfl
    refine ⟨e', g + 32, he, ?_⟩
    have hinv := encInv_writeValue h.inv h.flushed he
    rcases writeValue_ok hm he with ⟨h0, _⟩ | ⟨_, h1, h2, h3, h4, h5, h6, h7, h8, h9⟩
    · exact absurd hb h0
    have hlen64 : ((vs.drop g).take 64).length = 64 := by simp; omega
    have hext := sampleSymbols_window vs g 32 (profile ((vs.drop g).take 64) (carriedWidth vs g) false) (by omega)
        (by rw [profile_length, hlen64]; omega) hwin
    have htt : ((vs.drop g).take 64).take 32 = (vs.drop g).take 32 := by rw [List.take_take]; rfl
    rw [hB, h.mrw] at h1 h7 h8
    rw [htt] at h1 h8
    rw [h.nz] at h8
    have hd0 : (profile ((vs.drop g).take 64) (carriedWidth vs g) false).headD 0 = streamWidth vs g := by
      have := hwin 0 (by omega)
      cases hp : profile ((vs.drop g).take 64) (carriedWidth vs g) false with
      | nil => have := congrArg List.length hp; simp at this
      | cons a W => rw [hp] at this; simpa using this
    refine ⟨hinv, by omega, by omega, ?_, h5.trans h.flushed, ?_, by rw [h4]; simp, ?_, ?_, by omega⟩
    · rw [h3, hap, List.drop_drop]
    · rw [h7, hwin 31 (by omega)]; simp [carriedWidth]
    · rw [h8, hext]
    · rw [h1, h.ebits, flushBits, h.started, h.mrw, h.nz, hd0, hext]
      by_cases hg0 : g = 0
      · subst hg0; simp [symbolBits, sampleSymbols_nil]
      · have : 0 < g := by omega
        simp [symbolBits, hg0, this]
  · obtain ⟨e', he⟩ : ∃ e', writeValue none (vs.getD k 0) e = .ok e' := by
      unfold writeValue; rw [if_neg (by simp [Config.bufLimit]; omega)]; exact ⟨_, rfl⟩
    refine ⟨e', g, he, ?_⟩
    have hinv := encInv_writeValue h.inv h.flushed he
    rcases writeValue_ok hm he with ⟨_, rfl⟩ | ⟨h0, _⟩
    · exact ⟨hinv, by have := h.gk; omega, hk, hap, h.flushed, h.mrw, h.started, h.nz, h.ebits, by have := h.pend; omega⟩
    · exact absurd h0 hb

/-- The flush that ends the stream (R82, R84). -/
theorem Committed.flush {vs : List Word} {g : Nat} {e : Enc} (h : Committed vs vs.length g e) (h0 : vs ≠ []) (hN : vs.length < 2 ^ 32) :
    e.buf ≠ [] ∧ ∃ e', flushStream none e = .ok e' ∧ EncInv none e' ∧ e'.flushed = true ∧ e'.ebits = symbolBits (streamSymbols vs) := by
  have hl0 : 0 < vs.length := List.length_pos_iff.2 h0
  have hg := h.gk
  have hgN : g < vs.length := by have := h.pend; omega
  have hbuf : e.buf = vs.drop g := by rw [h.buf, List.take_length]
  have hbl : e.buf.length = vs.length - g := by rw [hbuf]; simp
  have hb : e.buf ≠ [] := by intro hc; rw [hc] at hbl; simp at hbl; omega
  have hm : e.mrw ≤ 32 := h.inv.mrwLe
  have hle := sampleSymbols_le (vs.take g) 0 0 (streamWidths vs)
  obtain ⟨e', he⟩ := flushStream_fits (cap := none) hm (by rw [h.nz]; simp at hle; omega) rfl
  refine ⟨hb, e', he, encInv_flushStream h.inv h.flushed hb he, ?_⟩
  obtain ⟨h1, h2, h3, h4, h5, h6, h7, h8, h9, h10⟩ := flushStream_ok hm hb he
  refine ⟨h6, ?_⟩
  have hwin : ∀ i, i ≤ vs.length - g → (profile (vs.drop g) (carriedWidth vs g) true).getD i 0 = streamWidth vs (g + i) := by
    intro i hi
    have hd : vs.drop g = (vs.drop g).take (vs.length - g) := by rw [List.take_of_length_le]; simp
    rw [hd]
    by_cases h : i < vs.length - g
    · exact profile_window vs g (vs.length - g) i true (by omega) h (by omega)
    · have hi' : i = vs.length - g := by omega
      have hlen : ((vs.drop g).take (vs.length - g)).length = vs.length - g := by simp
      have := profile_sentinel ((vs.drop g).take (vs.length - g)) (carriedWidth vs g) (by omega)
      rw [hlen] at this
      rw [hi', this, profile_window vs g (vs.length - g) (vs.length - g - 1) true (by omega) (by omega) (by omega),
        streamWidth_sentinel vs (g + (vs.length - g)) (by omega)]
      congr 1; omega
  have hext := sampleSymbols_window vs g (vs.length - g) (profile (vs.drop g) (carriedWidth vs g) true) (by omega) (by rw [profile_length]; simp) hwin
  have htt : (vs.drop g).take (vs.length - g) = vs.drop g := by rw [List.take_of_length_le]; simp
  rw [htt, show g + (vs.length - g) = vs.length by omega, List.take_length] at hext
  have hd0 : (profile (vs.drop g) (carriedWidth vs g) true).headD 0 = streamWidth vs g := by
    have := hwin 0 (by omega)
    cases hp : profile (vs.drop g) (carriedWidth vs g) true with
    | nil => have := congrArg List.length hp; simp at this
    | cons a W => rw [hp] at this; simpa using this
  rw [h1, h.ebits, flushBits, h.started, h.mrw, h.nz, hbuf, hd0]
  have hS : streamSymbols vs = headerSymbol (streamWidth vs 0) ::
      ((sampleSymbols 0 0 vs (streamWidths vs)).1 ++ runSymbols (sampleSymbols 0 0 vs (streamWidths vs)).2) := rfl
  rw [hS, hext]
  by_cases hg0 : g = 0
  · subst hg0; simp [symbolBits, sampleSymbols_nil]
  · have : 0 < g := by omega
    simp [symbolBits, hg0, this]

/-! ## The symbols, as the decoder finds them -/

/-- How many samples of width 0 come next. -/
def openRun : List Word → List Nat → Nat
  | _ :: vs, c :: n :: W => if c = 0 then 1 + openRun vs (n :: W) else 0
  | _, _ => 0

/-- The symbols that the decoder still finds before a sample: inside a run (`run`) the run's code has been read. -/
def pendingSymbols : Nat → Bool → List Word → List Nat → List Symbol
  | p, run, v :: vs, c :: n :: W =>
    if c = 0 then (if run then [] else runSymbols (1 + openRun vs (n :: W))) ++ pendingSymbols 0 true vs (n :: W)
    else transSymbol c n :: valueSymbol p c n v.toNat :: pendingSymbols c false vs (n :: W)
  | _, _, _, _ => []

theorem openRun_nil (W) : openRun [] W = 0 := by cases W <;> rfl

theorem pendingSymbols_nil (p r W) : pendingSymbols p r [] W = [] := by cases W <;> rfl

/-- Outside a run its code is still to come. -/
theorem pendingSymbols_false (p : Nat) (vs : List Word) (W : List Nat) : runSymbols (openRun vs W) ++ pendingSymbols p true vs W =
    pendingSymbols p false vs W := by
  match vs, W with
  | [], W => rw [pendingSymbols_nil, pendingSymbols_nil, openRun_nil]; rfl
  | v :: vs, [] => rfl
  | v :: vs, [_] => rfl
  | v :: vs, c :: n :: W =>
    by_cases hc : c = 0
    · subst hc; simp [pendingSymbols, openRun]
    · simp [pendingSymbols, hc, openRun, runSymbols]

/-- The encoder's symbols and its open run, as the decoder finds them. -/
theorem sampleSymbols_pending (vs : List Word) (p nz : Nat) (W : List Nat) (hW : vs.length < W.length) :
   (sampleSymbols p nz vs W).1 ++ runSymbols (sampleSymbols p nz vs W).2 = runSymbols (nz + openRun vs W) ++ pendingSymbols p true vs W := by
  induction vs generalizing p nz W with
  | nil => rw [sampleSymbols_nil, openRun_nil, pendingSymbols_nil]; simp
  | cons v vs ih =>
    match W, hW with
    | c :: n :: W, hW =>
      by_cases hc : c = 0
      · subst hc
        rw [sampleSymbols_zero, ih _ _ _ (by simpa using hW)]
        simp [openRun, pendingSymbols, Nat.add_assoc]
      · rw [sampleSymbols_pos _ _ _ _ _ _ hc]
        have := ih c 0 (n :: W) (by simpa using hW)
        simp only [openRun, pendingSymbols, hc, if_false, Nat.add_zero, List.append_assoc, List.cons_append]
        rw [this, Nat.zero_add, pendingSymbols_false]

/-- A stream's symbols, as the decoder finds them (R55). -/
theorem streamSymbols_pending (vs : List Word) : streamSymbols vs = headerSymbol (streamWidth vs 0) :: pendingSymbols 0 false vs
    (streamWidths vs) := by
  have := sampleSymbols_pending vs 0 0 (streamWidths vs) (by simp [streamWidths_length])
  rw [Nat.zero_add, pendingSymbols_false] at this
  show headerSymbol (streamWidth vs 0) :: ((sampleSymbols 0 0 vs (streamWidths vs)).1 ++ runSymbols (sampleSymbols 0 0 vs (streamWidths vs)).2) = _
  rw [this]

/-- Widths that fit their values and step by one, with the elided top bit set (R68, R72). -/
inductive WidthsOk : Nat → List Word → List Nat → Prop
  | nil (p n) : WidthsOk p [] [n]
  | cons (p v vs c n W) (h1 : v.toNat < 2 ^ c) (h2 : c ≤ 32) (h3 : n ≤ 32) (h4 : c ≠ 0 → n = c ∨ n = c + 1 ∨ n + 1 = c) (h4' : c = 0 → n ≤ 1)
     (h5 : c ≠ 0 → p ≤ c ∧ n ≤ c → 2 ^ (c-1) ≤ v.toNat) (h : WidthsOk c vs (n :: W)) : WidthsOk p (v :: vs) (c :: n :: W)

/-- A stream's widths are good from every sample on. -/
theorem widthsOk_stream (vs : List Word) : ∀ (k g p : Nat), g + k = vs.length → (g = 0 ∨ p = streamWidth vs (g - 1)) → WidthsOk p
    (vs.drop g) ((streamWidths vs).drop g) := by
  intro k
  induction k with
  | zero =>
    intro g p hg hp
    have h1 : vs.drop g = [] := by rw [List.drop_eq_nil_iff]; omega
    have h2 : (streamWidths vs).drop g = [streamWidth vs g] := by
      apply List.ext_getElem?
      intro i
      rw [List.getElem?_drop]
      cases i with
      | zero => 
        have := streamWidths_getD vs g (by omega)
        rw [List.getD_eq_getElem?_getD] at this
        have h3 : g < (streamWidths vs).length := by rw [streamWidths_length]; omega
        rw [Nat.add_zero, List.getElem?_eq_getElem h3] at *
        simp at this ⊢; exact this
      | succ i => rw [List.getElem?_eq_none (by rw [streamWidths_length]; omega)]; simp
    rw [h1, h2]; exact .nil _ _
  | succ k ih =>
    intro g p hg hp
    have hgl : g < vs.length := by omega
    have h1 : vs.drop g = vs.getD g 0 :: vs.drop (g+1) := by
      rw [List.drop_eq_getElem_cons hgl]; simp [List.getD_eq_getElem?_getD, List.getElem?_eq_getElem hgl]
    have hW : ∀ j, j ≤ vs.length → (streamWidths vs).drop j = streamWidth vs j :: (streamWidths vs).drop (j+1) := by
      intro j hj
      have h3 : j < (streamWidths vs).length := by rw [streamWidths_length]; omega
      rw [List.drop_eq_getElem_cons h3]
      congr 1
      have := streamWidths_getD vs j hj
      rwa [List.getD_eq_getElem?_getD, List.getElem?_eq_getElem h3] at this
    rw [h1, hW g (by omega), hW (g+1) (by omega)]
    have hst := streamWidth_step vs g hgl
    have ih' := ih (g+1) (streamWidth vs g) (by omega) (.inr (by simp))
    rw [hW (g+1) (by omega)] at ih'
    refine .cons _ _ _ _ _ _ ?_ (streamWidth_le vs g hgl) ?_ (fun _ => by omega) (fun h => by omega) (fun hc he => ?_) ih'
    · have := (streamWidth_le_iff vs g _ hgl).1 le_rfl g hgl
      rw [← bitwidth_le_iff]
      unfold widthAt at this; omega
    · by_cases h : g + 1 < vs.length
      · exact streamWidth_le vs _ h
      · rw [streamWidth_sentinel vs (g+1) (by omega)]; exact streamWidth_le vs _ (by omega)
    · refine elided_top_bit vs g hgl (by omega) ?_ he.2
      rcases hp with hp | hp
      · exact .inl hp
      · right; rw [← hp]; exact he.1

/-! ## The decoder, read by read -/

/-- DEC_READ on a READY decoder. -/
theorem exec_decRead_ready {s : State} (h : Ready s) : exec .decRead s = match readSample s with
    | .error r => stopDecoder r s
    | .ok (v, (n, z), pos) => .next (commitSample v n z pos s) := by
  have h1 := h.1; have h2 := h.2.1
  simp only [exec, execDecRead, whenRunning_running h1, whenReady_ready h2] <;> rfl

/-- DEC_INIT on a span inside IN. -/
theorem exec_decInit_span {s : State} (b l : Word) (hf : s.fault = false) (hl : l.toNat ≠ 0) (h : b.toNat + l.toNat ≤ s.cfg.inSize) :
  exec (.decInit b l) s = match readHeader (openSpan b l s) with
      | .error r => stopDecoder r (openSpan b l s)
      | .ok (w, pos) => .next (startStream w pos (openSpan b l s)) := by
  simp only [exec, execDecInit, whenRunning_running hf, if_neg hl, if_neg (Nat.not_lt.2 h)] <;> rfl

/-- The bits left after a sample. -/
theorem restBits_commitSample {s : State} {pos v n z} {σs : List Bool} {tl : List Bool} (h : restBits s = σs ++ tl)
    (hp : s.dec.pos + σs.length = pos) (hle : pos ≤ 8 * s.dec.len.toNat) :
   restBits (commitSample v n z pos s) = tl := by
  rw [restBits_eq, commitSample_dec]
  have e1 : bitsFrom (commitSample v n z pos s) pos = bitsFrom s pos := by apply bitsFrom_congr <;> rfl
  rw [e1]
  rw [restBits_eq, bitsFrom_split s (pos := s.dec.pos) (c := σs.length) (by omega), hp] at h
  exact (List.append_inj_right h (by simp))

/-- Symbols at the cursor fit the span. -/
theorem restBits_fits (s : State) {σs tl : List Bool} (hpos : s.dec.pos ≤ 8 * s.dec.len.toNat) (h : restBits s = σs ++ tl) :
    s.dec.pos + σs.length ≤ 8 * s.dec.len.toNat := by
  have := congrArg List.length h
  rw [restBits_eq, bitsFrom_length, List.length_append] at this; omega

/-- The decoder stands before the samples `vs` with widths `W`, the previous width p, inside a run or not, and `pad` after them. -/
structure InStep (p : Nat) (run : Bool) (vs : List Word) (W : List Nat) (pad : List Bool) (s : State) : Prop where
  ready : Ready s
  pw : s.dec.pw = p
  cw : vs ≠ [] → s.dec.cw = W.headD 0
  zc : s.dec.zc = if run then (openRun vs W : Int) - 1 else -1
  rest : restBits s = symbolBits (pendingSymbols p run vs W) ++ pad
  pos : s.dec.pos ≤ 8 * s.dec.len.toNat

/-- One DEC_READ reads one sample (R95). -/
theorem InStep.read {p run v vs c n W pad} {s : State} (g : WidthsOk p (v :: vs) (c :: n :: W)) (hN : (v :: vs).length < 2 ^ 32)
   (h : InStep p run (v :: vs) (c :: n :: W) pad s) : ∃ s', exec .decRead s = .next s' ∧ s'.resp = some ⟨.ok, v, 0⟩ ∧ InStep c
       (decide (c = 0)) vs (n :: W) pad s' ∧ s'.dec.base = s.dec.base ∧ s'.dec.len = s.dec.len := by
  obtain ⟨hr, hpw, hcw, hzc, hrest, hpos⟩ := h
  have hcw' : s.dec.cw = c := hcw (by simp)
  have hs : InSpan s := hr.2.2.2
  cases g with
  | cons p v vs c n W h1 h2 h3 h4 h4' h5 g =>
  have lz : openRun vs (n :: W) = 0 → vs ≠ [] → n ≠ 0 := by
    intro hl hne hn
    subst hn
    match vs, W, hne, g with
    | v' :: vs, n' :: W, _, _ => simp [openRun] at hl
  have lp : openRun vs (n :: W) ≠ 0 → n = 0 := by
    intro hl
    by_contra hn
    apply hl
    match vs, W with
    | [], W => exact openRun_nil _
    | v' :: vs, [] => rfl
    | v' :: vs, n' :: W => simp [openRun, hn]
  have hll : openRun vs (n :: W) ≤ vs.length := by
    have key : ∀ (vs : List Word) (W : List Nat), openRun vs W ≤ vs.length := by
      intro vs
      induction vs with
      | nil => intro W; rw [openRun_nil]; simp
      | cons v vs ih =>
        intro W
        match W with
        | [] => simp [openRun]
        | [_] => simp [openRun]
        | c :: n :: W => have := ih (n :: W); simp only [openRun, List.length_cons]; split_ifs <;> omega
    exact key _ _
  by_cases hc : c = 0
  · subst hc
    have hv : v = 0 := BitVec.eq_of_toNat_eq (by simpa using h1)
    subst hv
    have hv0 : BitVec.ofNat 32 0 = (0 : Word) := rfl
    by_cases hrun : run = true
    · subst hrun
      simp only [openRun, if_true] at hzc
      have hz : s.dec.zc = (openRun vs (n :: W) : Int) := by rw [hzc]; push_cast; ring
      simp only [pendingSymbols, if_true, List.nil_append] at hrest
      refine ⟨commitSample 0 (if s.dec.zc = 0 then 1 else 0) (s.dec.zc - 1) s.dec.pos s, ?_, rfl,
          ⟨hr.1 |> fun a => ⟨a, hr.2.1, rfl, hr.2.2.2⟩, hcw', fun hne => ?_, ?_, ?_, hpos⟩, rfl, rfl⟩
      · rw [exec_decRead_ready hr, readSample_count hcw' (by omega)]; rfl
      · show (if s.dec.zc = 0 then 1 else 0) = n
        split_ifs with hz0
        · have := lz (by omega) hne; have := h4' rfl; omega
        · exact (lp (by omega)).symm
      · show s.dec.zc - 1 = _
        rw [hz]; simp
      · exact restBits_commitSample (σs := []) (by simpa using hrest) (by simp) hpos
    · have hrun : run = false := by simpa using hrun
      subst hrun
      simp only [pendingSymbols, if_true, Bool.false_eq_true, if_false] at hrest
      have hz : s.dec.zc = -1 := by simpa using hzc
      have hne1 : 1 + openRun vs (n :: W) ≠ 0 := by omega
      have hRb : symbolBits (runSymbols (1 + openRun vs (n :: W)) ++ pendingSymbols 0 true vs (n :: W)) ++ pad = Symbol.bits
          (.zr (bitwidth (1 + openRun vs (n :: W)) - 1) (1 + openRun vs (n :: W) - 2 ^
          (bitwidth (1 + openRun vs (n :: W)) - 1))) ++ (symbolBits (pendingSymbols 0 true vs (n :: W)) ++ pad) := by
        simp [runSymbols, symbolBits]
      rw [hRb] at hrest
      have hbw := (bitwidth_le_iff (1 + openRun vs (n :: W)) 32).2 (by simp at hN; omega)
      have hb1 := pow_bitwidth_le hne1
      have hb2 := lt_pow_bitwidth (1 + openRun vs (n :: W))
      have hbp := bitwidth_pos hne1
      have hr2 : 2 ^ (bitwidth (1 + openRun vs (n :: W)) - 1) +
          (1 + openRun vs (n :: W) - 2 ^ (bitwidth (1 + openRun vs (n :: W)) - 1)) = 1 + openRun vs (n :: W) := by omega
      have hx : 1 + openRun vs (n :: W) - 2 ^ (bitwidth (1 + openRun vs (n :: W)) - 1) < 2 ^ (bitwidth (1 + openRun vs (n :: W)) - 1) := by
        have : 2 ^ bitwidth (1 + openRun vs (n :: W)) = 2 * 2 ^ (bitwidth (1 + openRun vs (n :: W)) - 1) := by
          rw [← pow_succ']; congr 1; omega
        omega
      have hk31 : bitwidth (1 + openRun vs (n :: W)) - 1 ≤ 31 := by omega
      generalize bitwidth (1 + openRun vs (n :: W)) - 1 = k at *
      have hd := decodeSymbol_bits (σ := .zr k (1 + openRun vs (n :: W) - 2 ^ k)) (ctx := .run)
          (by simp [Symbol.wf, Config.maxRunPrefix, hx]; omega) rfl (symbolBits (pendingSymbols 0 true vs (n :: W)) ++ pad)
      rw [← hrest] at hd
      have hlen := restBits_fits s hpos hrest
      have hbl : (Symbol.bits (.zr k (1 + openRun vs (n :: W) - 2 ^ k))).length = 2 * k + 1 := by simp [Symbol.bits]; omega
      rw [hbl] at hlen
      simp only [decodeSymbol] at hd
      refine ⟨commitSample 0 (runStart (1 + openRun vs (n :: W))).1 (runStart (1 + openRun vs (n :: W))).2
          (s.dec.pos + (2 * k + 1)) s, ?_, rfl, ⟨⟨hr.1, hr.2.1, rfl, hr.2.2.2⟩, hcw', fun hne => ?_, ?_, ?_, hlen⟩, rfl, rfl⟩
      · rw [exec_decRead_ready hr, readSample_run hs hcw' (by omega), hd]
        simp only [hr2]
      · show (if 1 + openRun vs (n :: W) = 1 then 1 else 0) = n
        split_ifs with hz0
        · have := lz (by omega) hne; have := h4' rfl; omega
        · exact (lp (by omega)).symm
      · show ((1 + openRun vs (n :: W) : Nat) : Int) - 2 = _
        simp; ring
      · exact restBits_commitSample hrest (by rw [hbl]) hlen
  · simp only [pendingSymbols, hc, if_false] at hrest
    have hz : s.dec.zc = -1 := by rw [hzc]; split_ifs <;> simp [openRun, hc]
    have hst := h4 hc
    have hRb : symbolBits (transSymbol c n :: valueSymbol p c n v.toNat :: pendingSymbols c false vs (n :: W)) ++ pad =
        (transSymbol c n).bits ++ ((valueSymbol p c n v.toNat).bits ++
        (symbolBits (pendingSymbols c false vs (n :: W)) ++ pad)) := by
      simp [symbolBits]
    rw [hRb] at hrest
    have hd := decodeSymbol_bits (σ := transSymbol c n) (ctx := .trans) (by unfold transSymbol; split_ifs <;> rfl)
        (by unfold transSymbol; split_ifs <;> rfl) ((valueSymbol p c n v.toNat).bits ++
        (symbolBits (pendingSymbols c false vs (n :: W)) ++ pad))
    rw [← hrest] at hd
    simp only [decodeSymbol] at hd
    have hl1 := restBits_fits s hpos hrest
    have ht : transStep s s.dec.cw s.dec.pos = .ok (n, s.dec.pos + (transSymbol c n).bits.length) := by
      rw [transStep_eq hs, ← restBits_eq, hd, hcw']
      unfold transSymbol
      by_cases a : n = c
      · rw [if_pos a]; simp [Symbol.bits, a]
      · rw [if_neg a]
        by_cases b : n = c + 1
        · rw [if_pos b]; simp only [b]; rw [if_neg (by omega)]; rfl
        · rw [if_neg b]; simp [Symbol.bits]; omega
    have hb2 : bitsFrom s (s.dec.pos + (transSymbol c n).bits.length) = (valueSymbol p c n v.toNat).bits ++
        (symbolBits (pendingSymbols c false vs (n :: W)) ++ pad) := by
      rw [restBits_eq, bitsFrom_split s (pos := s.dec.pos) (c := (transSymbol c n).bits.length) hl1] at hrest
      exact (List.append_inj_right hrest (by simp))
    have hvw : (valueSymbol p c n v.toNat).wf = true := by
      unfold valueSymbol
      split_ifs with he
      · have := h5 hc he
        have h2p : 2 ^ c = 2 * 2 ^ (c-1) := by rw [← pow_succ']; congr 1; omega
        simp [Symbol.wf, Config.maxWidth]; omega
      · simp [Symbol.wf, Config.maxWidth, h1]; omega
    have hvf : (valueSymbol p c n v.toNat).fits (.value p c n) = true := by
      unfold valueSymbol; split_ifs with he
      · simp [Symbol.fits, he]
      · simp [Symbol.fits]; omega
    have hd2 := decodeSymbol_bits hvw hvf (symbolBits (pendingSymbols c false vs (n :: W)) ++ pad)
    rw [← hb2] at hd2
    simp only [decodeSymbol] at hd2
    have hl2 : s.dec.pos + ((transSymbol c n).bits ++ (valueSymbol p c n v.toNat).bits).length ≤ 8 * s.dec.len.toNat :=
        restBits_fits s hpos (σs := (transSymbol c n).bits ++ (valueSymbol p c n v.toNat).bits)
        (by rw [List.append_assoc]; exact hrest)
    have hv : valueStep s s.dec.pw s.dec.cw n (s.dec.pos + (transSymbol c n).bits.length) = .ok
        (v.toNat, s.dec.pos + ((transSymbol c n).bits ++ (valueSymbol p c n v.toNat).bits).length) := by
      rw [valueStep_eq hs _ _ _ _ (by omega), hpw, hcw', hd2]
      unfold valueSymbol
      split_ifs with he
      · have := h5 hc he
        simp [Symbol.bits]; omega
      · simp [Symbol.bits]; omega
    refine ⟨commitSample v.toNat n s.dec.zc (s.dec.pos + ((transSymbol c n).bits ++ (valueSymbol p c n v.toNat).bits).length) s,
        ?_, by simp, ⟨⟨hr.1, hr.2.1, rfl, hr.2.2.2⟩, hcw', fun _ => rfl, ?_, ?_, hl2⟩, rfl, rfl⟩
    · rw [exec_decRead_ready hr, readSample_trans (by omega), ht]
      simp only [Bind.bind, Except.bind, hv]
    · simp [hc]; exact hz
    · simp only [hc, decide_false]
      exact restBits_commitSample (σs := (transSymbol c n).bits ++ (valueSymbol p c n v.toNat).bits) (by rw [List.append_assoc]; exact hrest) rfl hl2

/-- DEC_INIT on a span that holds a finished stream opens it at its first sample (R86, R95). -/
theorem decInit_inStep (vs : List Word) (t u : State) (b L : Word) (h0 : vs ≠ []) (huf : u.fault = false)
    (hinv : EncInv none t.enc) (hfl : t.enc.flushed = true) (hbits : t.enc.ebits = symbolBits (streamSymbols vs)) (hL : L.toNat = t.enc.outLen)
    (hsz : b.toNat + t.enc.outLen ≤ u.cfg.inSize) (hbyte : ∀ j, j < t.enc.outLen → u.inByte (b.toNat + j) = streamByte t.enc.ebits j) :
    exec (.decInit b L) u = .next (startStream (streamWidth vs 0) (headerSymbol (streamWidth vs 0)).bits.length (openSpan b L u)) ∧
    readHeader (openSpan b L u) = .ok (streamWidth vs 0, (headerSymbol (streamWidth vs 0)).bits.length) ∧
    InStep (streamWidth vs 0) false vs (streamWidths vs) (List.replicate (8 * t.enc.outLen - t.enc.ebits.length) false)
      (startStream (streamWidth vs 0) (headerSymbol (streamWidth vs 0)).bits.length (openSpan b L u)) := by
  have hl0 : 0 < vs.length := List.length_pos_iff.2 h0
  have hol : t.enc.outLen = ceil8 t.enc.ebits.length := by rw [hinv.outLen, hfl]; rfl
  have hEl : t.enc.ebits.length ≤ 8 * t.enc.outLen := by rw [hol]; unfold ceil8; omega
  have hrest : restBits (openSpan b L u) = symbolBits (streamSymbols vs) ++ List.replicate (8 * t.enc.outLen - t.enc.ebits.length) false := by
    rw [← hbits, restBits_eq]
    apply List.ext_getElem?
    intro i
    have hlen : (bitsFrom (openSpan b L u) 0).length = 8 * t.enc.outLen := by rw [bitsFrom_length]; simp [hL]
    by_cases hi : i < 8 * t.enc.outLen
    · have e1 : (bitsFrom (openSpan b L u) 0)[i]? = some ((openSpan b L u).inBit (0 + i)) := by
        unfold bitsFrom; rw [inBits_getElem? _ _ _ _ (by simp [hL]; omega)]
      have e2 : (openSpan b L u).inBit (0 + i) = t.enc.ebits.getD i false := by
        rw [Nat.zero_add]
        show (u.inByte (b.toNat + i / 8)).getLsbD (i % 8) = _
        rw [hbyte _ (by omega), streamByte_getLsbD _ _ _ (by omega)]; congr 1; omega
      show (bitsFrom (openSpan b L u) 0)[i]? = _
      rw [e1, e2]
      by_cases hi2 : i < t.enc.ebits.length
      · rw [List.getElem?_append_left hi2, List.getD_eq_getElem?_getD, List.getElem?_eq_getElem hi2]; rfl
      · rw [List.getElem?_append_right (by omega), List.getD_eq_getElem?_getD, List.getElem?_eq_none (by omega)]
        rw [List.getElem?_replicate, if_pos (by omega)]; rfl
    · show (bitsFrom (openSpan b L u) 0)[i]? = _
      rw [List.getElem?_eq_none (by omega), List.getElem?_eq_none (by simp; omega)]
  rw [streamSymbols_pending] at hrest
  have hw0 := streamWidth_le vs 0 hl0
  have hwf : (headerSymbol (streamWidth vs 0)).wf = true := by
    unfold headerSymbol; split_ifs <;> simp [Symbol.wf, Config.headerEscape]; omega
  have hfit : (headerSymbol (streamWidth vs 0)).fits .header = true := by
    unfold headerSymbol; split_ifs <;> rfl
  have hrest2 : restBits (openSpan b L u) = (headerSymbol (streamWidth vs 0)).bits ++
      (symbolBits (pendingSymbols 0 false vs (streamWidths vs)) ++ List.replicate
      (8 * t.enc.outLen - t.enc.ebits.length) false) := by
    rw [hrest]; simp [symbolBits]
  have hd := decodeSymbol_bits hwf hfit (symbolBits (pendingSymbols 0 false vs (streamWidths vs)) ++ List.replicate
      (8 * t.enc.outLen - t.enc.ebits.length) false)
  rw [← hrest2] at hd
  simp only [decodeSymbol] at hd
  have hs : InSpan (openSpan b L u) := by show b.toNat + L.toNat ≤ _; rw [hL]; exact hsz
  have hrh : readHeader (openSpan b L u) = .ok (streamWidth vs 0, (headerSymbol (streamWidth vs 0)).bits.length) := by
    rw [readHeader_eq hs, ← restBits_eq, hd]
    unfold headerSymbol
    by_cases h30 : streamWidth vs 0 ≤ 30
    · rw [if_pos h30]; simp [Symbol.bits]
    · rw [if_neg h30]
      by_cases h31 : streamWidth vs 0 = 31
      · rw [if_pos h31]; simp [Symbol.bits, h31]
      · rw [if_neg h31]; simp [Symbol.bits]; omega
  have hlen := restBits_fits (openSpan b L u) (by simp) hrest2
  simp only [openSpan_dec, Nat.zero_add] at hlen
  have hEpos : t.enc.ebits.length ≠ 0 := by
    rw [hbits, streamSymbols_pending]
    have : 5 ≤ (headerSymbol (streamWidth vs 0)).bits.length := by unfold headerSymbol; split_ifs <;> simp [Symbol.bits]
    simp [symbolBits]; intro hc; rw [hc] at this; simp at this
  have hLpos : L.toNat ≠ 0 := by rw [hL, hol]; unfold ceil8; omega
  have hx : exec (.decInit b L) u = .next (startStream (streamWidth vs 0) (headerSymbol (streamWidth vs 0)).bits.length (openSpan b L u)) := by
    rw [exec_decInit_span b L huf hLpos (by rw [hL]; exact hsz), hrh]
  have hW0 : (streamWidths vs) = streamWidth vs 0 :: (streamWidths vs).drop 1 := by
    have h3 : 0 < (streamWidths vs).length := by rw [streamWidths_length]; omega
    have e := List.drop_eq_getElem_cons h3
    rw [List.drop_zero] at e
    rw [e]
    congr 1
    have := streamWidths_getD vs 0 (by omega)
    rwa [List.getD_eq_getElem?_getD, List.getElem?_eq_getElem h3] at this
  have hdsy : pendingSymbols 0 false vs (streamWidths vs) = pendingSymbols (streamWidth vs 0) false vs (streamWidths vs) := by
    rw [hW0]
    match vs, h0 with
    | v :: vs', _ =>
      cases hh : (streamWidths (v :: vs')).drop 1 with
      | nil => rfl
      | cons n W =>
        have : ∀ x, valueSymbol 0 (streamWidth (v :: vs') 0) n x = valueSymbol (streamWidth (v :: vs') 0)
            (streamWidth (v :: vs') 0) n x := fun x => by
          unfold valueSymbol; simp
        simp only [pendingSymbols, this]
  have hsync : InStep (streamWidth vs 0) false vs (streamWidths vs) (List.replicate (8 * t.enc.outLen - t.enc.ebits.length) false)
      (startStream (streamWidth vs 0) (headerSymbol (streamWidth vs 0)).bits.length (openSpan b L u)) := by
    refine ⟨⟨huf, rfl, rfl, hs⟩, rfl, fun _ => by rw [hW0]; rfl, rfl, ?_, hlen⟩
    rw [← hdsy]
    have e1 : ∀ p, bitsFrom (startStream (streamWidth vs 0) (headerSymbol (streamWidth vs 0)).bits.length (openSpan b L u)) p =
        bitsFrom (openSpan b L u) p := by
      intro p; apply bitsFrom_congr <;> rfl
    rw [restBits_eq, e1]
    have := bitsFrom_split (openSpan b L u) (pos := 0) (c := (headerSymbol (streamWidth vs 0)).bits.length) (by simpa using hlen)
    rw [restBits_eq] at hrest2
    have h00 : (openSpan b L u).dec.pos = 0 := rfl
    rw [h00, this, Nat.zero_add] at hrest2
    exact (List.append_inj_right hrest2 (by simp))
  exact ⟨hx, hrh, hsync⟩

end Sys2Proof.Machine
end

