-- ==== Sys2Proof/Laws/Truncation.lean ====
section
/-! SUPPORT. The decoder over the first part of a span (R42, R96): as long as the cursor stays inside, it does what it does over the whole
span; the step that would leave it fails DEC_TRUNCATED. -/

namespace Sys2Proof.Machine

/-- C sees the first part of S's span. -/
structure CutOf (S C : State) : Prop where
  bits : ∀ b, b < 8 * C.dec.len.toNat → C.inBit b = S.inBit b
  inS : InSpan S
  inC : InSpan C
  le : C.dec.len.toNat ≤ S.dec.len.toNat

/-- A step over the whole span against the same step over the first L bits of it: the same answer where its cursor stays inside, else
DEC_TRUNCATED. -/
def Cuts {α : Type} (L : Nat) (x y : Except DecStop (α × Nat)) (pos : Nat) : Prop :=
  ∀ v p, x = .ok (v, p) → pos ≤ p ∧ (p ≤ L → y = .ok (v, p)) ∧ (L < p → y = .error (.fail .truncated))

theorem Cuts.pure {α} (L : Nat) (v : α) (pos) (h : pos ≤ L) : Cuts L (.ok (v, pos)) (.ok (v, pos)) pos := by
  intro w p e; cases e; exact ⟨le_rfl, fun _ => rfl, fun h' => by omega⟩

theorem Cuts.bind {α β} {L : Nat} {x y : Except DecStop (α × Nat)} {f g : α × Nat → Except DecStop (β × Nat)} {pos : Nat}
    (h : Cuts L x y pos) (hf : ∀ v p, x = .ok (v,p) → p ≤ L → Cuts L (f (v, p)) (g (v, p)) p)
    (hm : ∀ v p w q, x = .ok (v,p) → f (v, p) = .ok (w, q) → p ≤ q) : Cuts L (x >>= f) (y >>= g) pos := by
  intro w q e
  obtain ⟨⟨v, p⟩, hx, hfv⟩ := bind_ok e
  obtain ⟨h1, h2, h3⟩ := h v p hx
  have hpq := hm v p w q hx hfv
  by_cases hp : p ≤ L
  · obtain ⟨g1, g2, g3⟩ := hf v p hx hp w q hfv
    rw [h2 hp]
    exact ⟨by omega, g2, g3⟩
  · rw [h3 (by omega)]
    exact ⟨by omega, fun h => by omega, fun _ => rfl⟩

/-- The cursor never moves back (R42). -/
theorem srcRead_cursor_le {s : State} {pos c v p} (h : srcRead s pos c = .ok (v, p)) : pos ≤ p := by
  unfold srcRead at h; split_ifs at h <;> cases h <;> omega

/-- SrcRead over a shorter span (R42). -/
theorem srcRead_cut {S C : State} (h : CutOf S C) {pos c} (hp : pos ≤ 8 * C.dec.len.toNat) : Cuts (8 * C.dec.len.toNat)
    (srcRead S pos c) (srcRead C pos c) pos := by
  intro v p e
  have hle := h.le
  by_cases hc : c = 0
  · subst hc; simp [srcRead] at e ⊢; omega
  by_cases hS : pos + c ≤ 8 * S.dec.len.toNat
  · rw [srcRead_ok h.inS hS] at e
    cases e
    refine ⟨by omega, fun hq => ?_, fun hq => srcRead_truncated hc hq⟩
    rw [srcRead_ok h.inC hq, inBits_congr C S pos c (fun i hi => h.bits _ (by omega))]
  · rw [srcRead_truncated hc (by omega)] at e; cases e

theorem transStep_second_cursor_le {s : State} {c q v p} (h : (do
      let (b, pos) ← srcRead s q 1
      if b = 1 then
        if Config.maxWidth < c + 1 then Except.error (DecStop.fail DCause.widthOverflow) else .ok (c + 1, pos)
      else .ok (c - 1, pos)) = Except.ok (v, p)) : q ≤ p := by
  obtain ⟨⟨b', q'⟩, h3, h4⟩ := bind_ok h
  have := srcRead_cursor_le h3
  dsimp only at h4
  split_ifs at h4 <;> cases h4 <;> omega

theorem transStep_cursor_le {s : State} {c pos v p} (h : transStep s c pos = .ok (v, p)) : pos ≤ p := by
  unfold transStep at h
  obtain ⟨⟨b, q⟩, h1, h2⟩ := bind_ok h
  have := srcRead_cursor_le h1
  dsimp only at h2
  by_cases hb : b = 0
  · rw [if_pos hb] at h2; cases h2; exact this
  · rw [if_neg hb] at h2
    have := transStep_second_cursor_le h2; omega

theorem transStep_cut {S C : State} (h : CutOf S C) {pos c} (hp : pos ≤ 8 * C.dec.len.toNat) : Cuts (8 * C.dec.len.toNat)
    (transStep S c pos) (transStep C c pos) pos := by
  unfold transStep
  refine (srcRead_cut h hp).bind (fun b q _ hq => ?_) (fun b q w r _ e => ?_)
  · dsimp only
    by_cases hb : b = 0
    · rw [if_pos hb, if_pos hb]; exact .pure _ _ _ hq
    · rw [if_neg hb, if_neg hb]
      refine (srcRead_cut h hq).bind (fun b q _ hq => ?_) (fun b q w r _ e => ?_)
      · dsimp only
        split_ifs
        · intro _ _ e; cases e
        · exact .pure _ _ _ hq
        · exact .pure _ _ _ hq
      · dsimp only at e
        split_ifs at e <;> cases e <;> omega
  · dsimp only at e
    by_cases hb : b = 0
    · rw [if_pos hb] at e; cases e; omega
    · rw [if_neg hb] at e
      exact transStep_second_cursor_le e

theorem runPrefix_cursor_le {s : State} {fuel k pos v p} (h : runPrefix s fuel k pos = .ok (v, p)) : pos ≤ p := by
  induction fuel generalizing k pos with
  | zero => cases h
  | succ n ih =>
    unfold runPrefix at h
    obtain ⟨⟨b, q⟩, h1, h2⟩ := bind_ok h
    have := srcRead_cursor_le h1
    dsimp only at h2
    split_ifs at h2
    · have := ih h2; omega
    · cases h2; omega

theorem runPrefix_cut {S C : State} (h : CutOf S C) (fuel k pos) (hp : pos ≤ 8 * C.dec.len.toNat) : Cuts (8 * C.dec.len.toNat)
    (runPrefix S fuel k pos) (runPrefix C fuel k pos) pos := by
  induction fuel generalizing k pos with
  | zero => intro _ _ e; cases e
  | succ n ih =>
    unfold runPrefix
    refine (srcRead_cut h hp).bind (fun b q _ hq => ?_) (fun b q w r _ e => ?_)
    · dsimp only
      split_ifs
      · intro _ _ e; cases e
      · exact ih _ _ hq
      · exact .pure _ _ _ hq
    · dsimp only at e
      split_ifs at e
      · exact runPrefix_cursor_le e
      · cases e; omega

theorem runStep_cut {S C : State} (h : CutOf S C) (pos) (hp : pos ≤ 8 * C.dec.len.toNat) : Cuts (8 * C.dec.len.toNat)
    (runStep S pos) (runStep C pos) pos := by
  unfold runStep
  refine (runPrefix_cut h _ _ _ hp).bind (fun b q _ hq => ?_) (fun b q w r _ e => ?_)
  · refine (srcRead_cut h hq).bind (fun b q _ hq => .pure _ _ _ hq) (fun b q w r _ e => by cases e; omega)
  · obtain ⟨⟨b', q'⟩, h3, h4⟩ := bind_ok e
    have := srcRead_cursor_le h3
    cases h4; exact this

theorem valueStep_cursor_le {s : State} {p c n pos v q} (h : valueStep s p c n pos = .ok (v, q)) : pos ≤ q := by
  unfold valueStep at h
  split_ifs at h
  · obtain ⟨⟨b', q'⟩, h3, h4⟩ := bind_ok h
    have := srcRead_cursor_le h3
    cases h4; exact this
  · exact srcRead_cursor_le h

theorem valueStep_cut {S C : State} (h : CutOf S C) (p c n pos) (hp : pos ≤ 8 * C.dec.len.toNat) : Cuts (8 * C.dec.len.toNat)
    (valueStep S p c n pos) (valueStep C p c n pos) pos := by
  unfold valueStep
  split_ifs
  · refine (srcRead_cut h hp).bind (fun b q _ hq => .pure _ _ _ hq) (fun b q w r _ e => by cases e; omega)
  · exact srcRead_cut h hp

theorem widthStep_cut {S C : State} (h : CutOf S C) (hc : C.dec.cw = S.dec.cw) (hz : C.dec.zc = S.dec.zc)
    (he : C.dec.pos = S.dec.pos) (hp : S.dec.pos ≤ 8 * C.dec.len.toNat) :
    Cuts (8 * C.dec.len.toNat) (widthStep S) (widthStep C) S.dec.pos := by
  unfold widthStep
  rw [hc, hz, he]
  split_ifs
  · exact (transStep_cut h hp).bind (fun b q _ hq => .pure _ _ _ hq) (fun b q w r _ e => by cases e; omega)
  · exact .pure _ _ _ hp
  · exact runStep_cut h _ hp

/-- One sample over a shorter span (R87, R96). -/
theorem readSample_cut {S C : State} (h : CutOf S C) (hw : C.dec.pw = S.dec.pw) (hc : C.dec.cw = S.dec.cw)
    (hz : C.dec.zc = S.dec.zc) (he : C.dec.pos = S.dec.pos) (hp : S.dec.pos ≤ 8 * C.dec.len.toNat)
    {v n z p} (e : readSample S = .ok (v, (n, z), p)) :
    (p ≤ 8 * C.dec.len.toNat → readSample C = .ok (v, (n, z), p)) ∧ (8 * C.dec.len.toNat < p → readSample C = .error (.fail .truncated)) := by
  unfold readSample at e ⊢
  obtain ⟨⟨⟨n', z'⟩, q⟩, h1, h2⟩ := bind_ok e
  obtain ⟨⟨v', q'⟩, h3, h4⟩ := bind_ok h2
  cases h4
  obtain ⟨a1, a2, a3⟩ := widthStep_cut h hc hz he hp _ _ h1
  have hm := valueStep_cursor_le h3
  by_cases hq : q ≤ 8 * C.dec.len.toNat
  · obtain ⟨b1, b2, b3⟩ := valueStep_cut h _ _ _ _ hq _ _ h3
    rw [a2 hq, hw, hc]
    refine ⟨fun hx => ?_, fun hx => ?_⟩
    · simp only [Bind.bind, Except.bind, b2 hx]
    · simp only [Bind.bind, Except.bind, b3 hx]
  · rw [a3 (by omega)]
    exact ⟨fun h => by omega, fun _ => rfl⟩

/-- The header over a shorter span (R86, R96). -/
theorem readHeader_cut {S C : State} (h : CutOf S C) (he : C.dec.pos = S.dec.pos) (hp : S.dec.pos ≤ 8 * C.dec.len.toNat) :
    Cuts (8 * C.dec.len.toNat) (readHeader S) (readHeader C) S.dec.pos := by
  unfold readHeader
  rw [he]
  refine (srcRead_cut h hp).bind (fun b q _ hq => ?_) (fun b q w r _ e => ?_)
  · dsimp only
    split_ifs
    · exact (srcRead_cut h hq).bind (fun b q _ hq => .pure _ _ _ hq) (fun b q w r _ e => by cases e; omega)
    · exact .pure _ _ _ hq
  · dsimp only at e
    split_ifs at e
    · obtain ⟨⟨b', q'⟩, h3, h4⟩ := bind_ok e
      have := srcRead_cursor_le h3
      cases h4; exact this
    · cases e; omega

end Sys2Proof.Machine
end

