-- ==== Sys2Proof/Tests/Slice0.lean ====
section
/-! SUPPORT. Small tests, and a witness for the hypotheses of every obligation.

Expected results come from the spec: the vector's name in spec file 95 (E1, D4, B2, ...) or the rule stands in each docstring. The
witnesses are named after the obligation they belong to; their expected results are the hypotheses themselves. -/

namespace Sys2Proof.Tests

open Sys2Proof.Machine

/-! ## Helpers -/

/-- Stream bits written as the spec writes them: leftmost first (R13). -/
def wire (c n : Nat) : List Bool := (List.range c).map fun i => n.testBit (c - 1 - i)

/-- LAWC after reset, with IN_SIZE = n and OUT_CAP = cap. -/
def chip (n : Nat) (cap : Option Nat) : State := State.resetWith ⟨n, cap⟩

/-- Bytes from address 0 on. -/
def bytes (bs : List Byte) : Memory := bs.zipIdx.map fun p => (p.2, p.1)

/-- LAWC after reset with bytes in IN from address 0 on, and IN_SIZE = 16. -/
def withBytes (bs : List Byte) : State := { chip 16 none with inMem := bytes bs }

/-- The state an instruction answers; the state before it where it stops. -/
def next (i : Instr) (s : State) : State :=
  match exec i s with
  | .next t => t
  | .fault _ => s
  | .refused _ => s

/-- Whether an instruction answers a state. -/
def goes (i : Instr) (s : State) : Bool :=
  match exec i s with
  | .next _ => true
  | .fault _ => false
  | .refused _ => false

/-- Instructions one after another. -/
def run (is : List Instr) (s : State) : State := is.foldl (fun s i => next i s) s

/-- RSTAT, RDATA and RCAUSE of the last response. -/
def answer (s : State) : Option (RStat × Nat × Nat) := s.resp.map fun r => (r.rstat, r.rdata.toNat, r.rcause.toNat)

/-- PW, CW, ZC and POS, as spec file 95 writes them. -/
def widths (s : State) : Nat × Nat × Int × Nat := (s.dec.pw, s.dec.cw, s.dec.zc, s.dec.pos)

/-- A READY decoder before a sample, over bytes at address 0. -/
def ready (bs : List Byte) (pw cw : Nat) (zc : Int) (pos : Nat) : State :=
  { withBytes bs with
    dec := { Dec.reset with dstate := .ready, pw := pw, cw := cw, zc := zc, len := BitVec.ofNat 32 bs.length, pos := pos } }

/-- A decoder inside a command. -/
def inside (p : Phase) (s : State) : State := { s with dec := { s.dec with phase := p } }

/-- An encoder with values pending and no stream bit written. -/
def pendingEnc (buf : List Word) (cap : Option Nat) : State :=
  { chip 16 cap with enc := { Enc.fresh with buf := buf } }

/-- The host asks for something next. -/
def asks (h : List HostEvent) (s : State) : State := { s with host := h }

/-- The state a step answers; the state before it where it stops. -/
def stepped (s : State) : State :=
  match step s with
  | .next t => t
  | .fault _ => s
  | .refused _ => s

/-! ## WellFormed -/

/-- R56: the field 31 is the escape, not a width of HDR_5; Syntax's types rule out every other ill-formed operand. -/
theorem test_wf_refuses_hdr5_escape : (Instr.hdr5 31).wf = false := by decide

/-- R56: the largest width of HDR_5. -/
theorem test_wf_hdr5_30 : (Instr.hdr5 30).wf = true := by decide

/-- The ill-formed instruction is refused when it runs. -/
theorem test_hdr5_escape_refused : exec (.hdr5 31) (inside .header (ready [0xFF] 0 0 (-1) 0)) = .refused .illFormed := by rfl

/-- R58: a suffix of k bits has k bits. -/
theorem test_symbol_wf_refuses_wide_suffix : (Symbol.zr 2 4).wf = false := by decide

/-- R59: no width above 32, and no field of a width 0. -/
theorem test_symbol_wf_refuses_widths : (Symbol.valFull 33 0).wf = false ∧ (Symbol.valElided 0 0).wf = false := by decide

/-! ## Decoding, from words and bits written out from the spec's encodings -/

/-- R49, R51: OP in CMD[3:0]. -/
theorem test_decode_commands :
    decodeTableWord 96 0x00000000_00000000_00000001 = some .encInit ∧
    decodeTableWord 96 0x00000000_89ABCDEF_00000002 = some (.encWrite 0x89ABCDEF) ∧
    decodeTableWord 96 0x00000000_00000000_00000003 = some .encFlush ∧
    decodeTableWord 96 0x00000000_00000000_00000004 = some .encCode ∧
    decodeTableWord 96 0x00000005_00001234_00000008 = some (.decInit 0x1234 5) ∧
    decodeTableWord 96 0x00000000_00000000_00000009 = some .decRead ∧
    decodeTableWord 96 0x00000000_00000000_0000000A = some .decNextCode ∧
    decodeTableWord 96 0x00000000_00000000_0000000F = some .status := by
  refine ⟨?_, ?_, ?_, ?_, ?_, ?_, ?_, ?_⟩ <;> rfl

/-- R50: the operand words of the other commands are ignored. -/
theorem test_decode_ignores_operands :
    decodeTableWord 96 0xFFFFFFFF_FFFFFFFF_00000009 = some .decRead ∧
    decodeTableWord 96 0xFFFFFFFF_00000007_00000002 = some (.encWrite 7) := by
  refine ⟨?_, ?_⟩ <;> rfl

/-- R52: every reserved OP, and a word with high bits set (B3, B6), is no command. -/
theorem test_decode_illegal_words :
    ([0x0, 0x5, 0x6, 0x7, 0xB, 0xC, 0xD, 0xE, 0x13, 0x1F, 0x80000001].all fun w => (decodeTableWord 32 w).isNone) = true := by decide

/-- R56: the header is the 5-bit field, LSB first; spec file 95 section 3.4. -/
theorem test_decode_headers :
    decode .header (.wire (wire 5 0b00000)) = some (.hdr5 0) ∧ decode .header (.wire (wire 5 0b10000)) = some (.hdr5 1) ∧
    decode .header (.wire (wire 5 0b01111)) = some (.hdr5 30) ∧ decode .header (.wire (wire 6 0b111110)) = some .hdr31 ∧
    decode .header (.wire (wire 6 0b111111)) = some .hdr32 ∧ decode .header (.wire (wire 5 0b11111)) = none := by
  refine ⟨?_, ?_, ?_, ?_, ?_, ?_⟩ <;> rfl

/-- R57; spec file 95 section 3.4. -/
theorem test_decode_transitions :
    decode .trans (.wire (wire 1 0b0)) = some .trSame ∧ decode .trans (.wire (wire 2 0b11)) = some .trUp ∧
    decode .trans (.wire (wire 2 0b10)) = some .trDown ∧ decode .trans (.wire (wire 1 0b1)) = none := by
  refine ⟨?_, ?_, ?_, ?_⟩ <;> rfl

/-- R58: a zero-run code is k zeros, a one, and k suffix bits, LSB first (bits written out from the rule). -/
theorem test_decode_zr_low :
    decode .run (.wire (wire 1 0b1)) = some (.zr0) ∧
    decode .run (.wire (wire 3 0b011)) = some (.zr1 1) ∧
    decode .run (.wire (wire 5 0b00110)) = some (.zr2 1) ∧
    decode .run (.wire (wire 7 0b0001110)) = some (.zr3 3) ∧
    decode .run (.wire (wire 9 0b000011010)) = some (.zr4 5) ∧
    decode .run (.wire (wire 11 0b00000110010)) = some (.zr5 9) ∧
    decode .run (.wire (wire 13 0b0000001100010)) = some (.zr6 17) ∧
    decode .run (.wire (wire 15 0b000000011000010)) = some (.zr7 33) ∧
    decode .run (.wire (wire 17 0b00000000110000010)) = some (.zr8 65) ∧
    decode .run (.wire (wire 19 0b0000000001100000010)) = some (.zr9 129) ∧
    decode .run (.wire (wire 21 0b000000000011000000010)) = some (.zr10 257) ∧
    decode .run (.wire (wire 23 0b00000000000110000000010)) = some (.zr11 513) ∧
    decode .run (.wire (wire 25 0b0000000000001100000000010)) = some (.zr12 1025) ∧
    decode .run (.wire (wire 27 0b000000000000011000000000010)) = some (.zr13 2049) ∧
    decode .run (.wire (wire 29 0b00000000000000110000000000010)) = some (.zr14 4097) ∧
    decode .run (.wire (wire 31 0b0000000000000001100000000000010)) = some (.zr15 8193) := by
  refine ⟨?_, ?_, ?_, ?_, ?_, ?_, ?_, ?_, ?_, ?_, ?_, ?_, ?_, ?_, ?_, ?_⟩ <;> rfl

/-- R58: a zero-run code is k zeros, a one, and k suffix bits, LSB first (bits written out from the rule). -/
theorem test_decode_zr_high :
    decode .run (.wire (wire 33 0b000000000000000011000000000000010)) = some (.zr16 16385) ∧
    decode .run (.wire (wire 35 0b00000000000000000110000000000000010)) = some (.zr17 32769) ∧
    decode .run (.wire (wire 37 0b0000000000000000001100000000000000010)) = some (.zr18 65537) ∧
    decode .run (.wire (wire 39 0b000000000000000000011000000000000000010)) = some (.zr19 131073) ∧
    decode .run (.wire (wire 41 0b00000000000000000000110000000000000000010)) = some (.zr20 262145) ∧
    decode .run (.wire (wire 43 0b0000000000000000000001100000000000000000010)) = some (.zr21 524289) ∧
    decode .run (.wire (wire 45 0b000000000000000000000011000000000000000000010)) = some (.zr22 1048577) ∧
    decode .run (.wire (wire 47 0b00000000000000000000000110000000000000000000010)) = some (.zr23 2097153) ∧
    decode .run (.wire (wire 49 0b0000000000000000000000001100000000000000000000010)) = some (.zr24 4194305) ∧
    decode .run (.wire (wire 51 0b000000000000000000000000011000000000000000000000010)) = some (.zr25 8388609) ∧
    decode .run (.wire (wire 53 0b00000000000000000000000000110000000000000000000000010)) = some (.zr26 16777217) ∧
    decode .run (.wire (wire 55 0b0000000000000000000000000001100000000000000000000000010)) = some (.zr27 33554433) ∧
    decode .run (.wire (wire 57 0b000000000000000000000000000011000000000000000000000000010)) = some (.zr28 67108865) ∧
    decode .run (.wire (wire 59 0b00000000000000000000000000000110000000000000000000000000010)) = some (.zr29 134217729) ∧
    decode .run (.wire (wire 61 0b0000000000000000000000000000001100000000000000000000000000010)) = some (.zr30 268435457) ∧
    decode .run (.wire (wire 63 0b000000000000000000000000000000011000000000000000000000000000010)) = some (.zr31 536870913) := by
  refine ⟨?_, ?_, ?_, ?_, ?_, ?_, ?_, ?_, ?_, ?_, ?_, ?_, ?_, ?_, ?_, ?_⟩ <;> rfl

/-- R59: a full value field is the c bits of the value, LSB first (bits written out from the rule). -/
theorem test_decode_valFull_low :
    decode (.value 2 1 1) (.wire (wire 1 0b1)) = some (.valFull1 1) ∧
    decode (.value 3 2 2) (.wire (wire 2 0b01)) = some (.valFull2 2) ∧
    decode (.value 4 3 3) (.wire (wire 3 0b011)) = some (.valFull3 6) ∧
    decode (.value 5 4 4) (.wire (wire 4 0b0101)) = some (.valFull4 10) ∧
    decode (.value 6 5 5) (.wire (wire 5 0b01001)) = some (.valFull5 18) ∧
    decode (.value 7 6 6) (.wire (wire 6 0b010001)) = some (.valFull6 34) ∧
    decode (.value 8 7 7) (.wire (wire 7 0b0100001)) = some (.valFull7 66) ∧
    decode (.value 9 8 8) (.wire (wire 8 0b01000001)) = some (.valFull8 130) ∧
    decode (.value 10 9 9) (.wire (wire 9 0b010000001)) = some (.valFull9 258) ∧
    decode (.value 11 10 10) (.wire (wire 10 0b0100000001)) = some (.valFull10 514) ∧
    decode (.value 12 11 11) (.wire (wire 11 0b01000000001)) = some (.valFull11 1026) ∧
    decode (.value 13 12 12) (.wire (wire 12 0b010000000001)) = some (.valFull12 2050) ∧
    decode (.value 14 13 13) (.wire (wire 13 0b0100000000001)) = some (.valFull13 4098) ∧
    decode (.value 15 14 14) (.wire (wire 14 0b01000000000001)) = some (.valFull14 8194) ∧
    decode (.value 16 15 15) (.wire (wire 15 0b010000000000001)) = some (.valFull15 16386) ∧
    decode (.value 17 16 16) (.wire (wire 16 0b0100000000000001)) = some (.valFull16 32770) := by
  refine ⟨?_, ?_, ?_, ?_, ?_, ?_, ?_, ?_, ?_, ?_, ?_, ?_, ?_, ?_, ?_, ?_⟩ <;> rfl

/-- R59: a full value field is the c bits of the value, LSB first (bits written out from the rule). -/
theorem test_decode_valFull_high :
    decode (.value 18 17 17) (.wire (wire 17 0b01000000000000001)) = some (.valFull17 65538) ∧
    decode (.value 19 18 18) (.wire (wire 18 0b010000000000000001)) = some (.valFull18 131074) ∧
    decode (.value 20 19 19) (.wire (wire 19 0b0100000000000000001)) = some (.valFull19 262146) ∧
    decode (.value 21 20 20) (.wire (wire 20 0b01000000000000000001)) = some (.valFull20 524290) ∧
    decode (.value 22 21 21) (.wire (wire 21 0b010000000000000000001)) = some (.valFull21 1048578) ∧
    decode (.value 23 22 22) (.wire (wire 22 0b0100000000000000000001)) = some (.valFull22 2097154) ∧
    decode (.value 24 23 23) (.wire (wire 23 0b01000000000000000000001)) = some (.valFull23 4194306) ∧
    decode (.value 25 24 24) (.wire (wire 24 0b010000000000000000000001)) = some (.valFull24 8388610) ∧
    decode (.value 26 25 25) (.wire (wire 25 0b0100000000000000000000001)) = some (.valFull25 16777218) ∧
    decode (.value 27 26 26) (.wire (wire 26 0b01000000000000000000000001)) = some (.valFull26 33554434) ∧
    decode (.value 28 27 27) (.wire (wire 27 0b010000000000000000000000001)) = some (.valFull27 67108866) ∧
    decode (.value 29 28 28) (.wire (wire 28 0b0100000000000000000000000001)) = some (.valFull28 134217730) ∧
    decode (.value 30 29 29) (.wire (wire 29 0b01000000000000000000000000001)) = some (.valFull29 268435458) ∧
    decode (.value 31 30 30) (.wire (wire 30 0b010000000000000000000000000001)) = some (.valFull30 536870914) ∧
    decode (.value 32 31 31) (.wire (wire 31 0b0100000000000000000000000000001)) = some (.valFull31 1073741826) ∧
    decode (.value 33 32 32) (.wire (wire 32 0b01000000000000000000000000000001)) = some (.valFull32 2147483650) := by
  refine ⟨?_, ?_, ?_, ?_, ?_, ?_, ?_, ?_, ?_, ?_, ?_, ?_, ?_, ?_, ?_, ?_⟩ <;> rfl

/-- R59: an elided value field is the low c-1 bits of the value, LSB first (bits written out from the rule). -/
theorem test_decode_valElided_low :
    decode (.value 1 1 0) (.wire (wire 0 0b0)) = some (.valElided1) ∧
    decode (.value 2 2 1) (.wire (wire 1 0b1)) = some (.valElided2 1) ∧
    decode (.value 3 3 2) (.wire (wire 2 0b01)) = some (.valElided3 2) ∧
    decode (.value 4 4 3) (.wire (wire 3 0b011)) = some (.valElided4 6) ∧
    decode (.value 5 5 4) (.wire (wire 4 0b0101)) = some (.valElided5 10) ∧
    decode (.value 6 6 5) (.wire (wire 5 0b01001)) = some (.valElided6 18) ∧
    decode (.value 7 7 6) (.wire (wire 6 0b010001)) = some (.valElided7 34) ∧
    decode (.value 8 8 7) (.wire (wire 7 0b0100001)) = some (.valElided8 66) ∧
    decode (.value 9 9 8) (.wire (wire 8 0b01000001)) = some (.valElided9 130) ∧
    decode (.value 10 10 9) (.wire (wire 9 0b010000001)) = some (.valElided10 258) ∧
    decode (.value 11 11 10) (.wire (wire 10 0b0100000001)) = some (.valElided11 514) ∧
    decode (.value 12 12 11) (.wire (wire 11 0b01000000001)) = some (.valElided12 1026) ∧
    decode (.value 13 13 12) (.wire (wire 12 0b010000000001)) = some (.valElided13 2050) ∧
    decode (.value 14 14 13) (.wire (wire 13 0b0100000000001)) = some (.valElided14 4098) ∧
    decode (.value 15 15 14) (.wire (wire 14 0b01000000000001)) = some (.valElided15 8194) ∧
    decode (.value 16 16 15) (.wire (wire 15 0b010000000000001)) = some (.valElided16 16386) := by
  refine ⟨?_, ?_, ?_, ?_, ?_, ?_, ?_, ?_, ?_, ?_, ?_, ?_, ?_, ?_, ?_, ?_⟩ <;> rfl

/-- R59: an elided value field is the low c-1 bits of the value, LSB first (bits written out from the rule). -/
theorem test_decode_valElided_high :
    decode (.value 17 17 16) (.wire (wire 16 0b0100000000000001)) = some (.valElided17 32770) ∧
    decode (.value 18 18 17) (.wire (wire 17 0b01000000000000001)) = some (.valElided18 65538) ∧
    decode (.value 19 19 18) (.wire (wire 18 0b010000000000000001)) = some (.valElided19 131074) ∧
    decode (.value 20 20 19) (.wire (wire 19 0b0100000000000000001)) = some (.valElided20 262146) ∧
    decode (.value 21 21 20) (.wire (wire 20 0b01000000000000000001)) = some (.valElided21 524290) ∧
    decode (.value 22 22 21) (.wire (wire 21 0b010000000000000000001)) = some (.valElided22 1048578) ∧
    decode (.value 23 23 22) (.wire (wire 22 0b0100000000000000000001)) = some (.valElided23 2097154) ∧
    decode (.value 24 24 23) (.wire (wire 23 0b01000000000000000000001)) = some (.valElided24 4194306) ∧
    decode (.value 25 25 24) (.wire (wire 24 0b010000000000000000000001)) = some (.valElided25 8388610) ∧
    decode (.value 26 26 25) (.wire (wire 25 0b0100000000000000000000001)) = some (.valElided26 16777218) ∧
    decode (.value 27 27 26) (.wire (wire 26 0b01000000000000000000000001)) = some (.valElided27 33554434) ∧
    decode (.value 28 28 27) (.wire (wire 27 0b010000000000000000000000001)) = some (.valElided28 67108866) ∧
    decode (.value 29 29 28) (.wire (wire 28 0b0100000000000000000000000001)) = some (.valElided29 134217730) ∧
    decode (.value 30 30 29) (.wire (wire 29 0b01000000000000000000000000001)) = some (.valElided30 268435458) ∧
    decode (.value 31 31 30) (.wire (wire 30 0b010000000000000000000000000001)) = some (.valElided31 536870914) ∧
    decode (.value 32 32 31) (.wire (wire 31 0b0100000000000000000000000000001)) = some (.valElided32 1073741826) := by
  refine ⟨?_, ?_, ?_, ?_, ?_, ?_, ?_, ?_, ?_, ?_, ?_, ?_, ?_, ?_, ?_, ?_⟩ <;> rfl

/-- R61: a 32nd prefix zero, and a field cut short, are no symbols. -/
theorem test_decode_rejects :
    decodeWire .run (wire 40 0b1) = .error .runPrefix ∧ decodeWire .run (wire 3 0b001) = .error .truncated ∧
    decodeWire (.value 0 0 0) (wire 4 0b1111) = .error .noSymbol := by
  refine ⟨?_, ?_, ?_⟩ <;> rfl

/-- R49, R58: encoding writes the same words and bits. -/
theorem test_encode : encode (.encWrite 5) = .command 2 5 0 ∧ encode (.zr2 1) = .wire (wire 5 0b00110) := by
  refine ⟨?_, ?_⟩ <;> rfl

/-! ## Reset, fetching and the host -/

/-- B1, R115: STATUS after reset is 0. -/
theorem test_status_after_reset : answer (next .status State.reset) = some (.ok, 0, 0) := by decide

/-- R49: a placed command is the very next thing that runs. -/
theorem test_withFetchWord : step (State.reset.withFetchWord 96 0x00000000_00000007_00000002) = exec (.encWrite 7) State.reset := by rfl

/-- R114: with nothing asked, nothing changes. -/
theorem test_idle : step State.reset = .next State.reset := by rfl

/-- B2, B4: an illegal command faults 1, and STATUS is then 0x11. -/
theorem test_illegal_command :
    let t := stepped (asks [.command 5 0 0] (chip 16 none))
    answer t = some (.fault, 0, 1) ∧ answer (next .status t) = some (.ok, 0x11, 0) := by decide

/-- R35: a host write of IN, last wins. -/
theorem test_host_write :
    (stepped (asks [.writeIn 3 0x5A] (withBytes [1, 2, 3, 4]))).inMem = bytes [1, 2, 3, 0x5A] := by decide

/-- E2: the stream of 0 is the byte `20`, which the host reads at OUT[0]; the address 1 does not exist where OUT_CAP = 1. -/
theorem test_host_reads_out :
    let done := run (encStream [0]) (chip 16 (some 1))
    (stepped (asks [.readOut 0] done)).outData = some 0x20 ∧
      step (asks [.readOut 1] done) = .fault (.noSuchOutAddress 1) := ⟨by decide, rfl⟩

/-- R36: a read while FLUSHED = 0 completes. -/
theorem test_host_reads_unfinished_out :
    (stepped (asks [.readOut 0] (chip 16 (some 1)))).outData.isSome = true ∧
      (stepped (asks [.readOut 0] (chip 16 (some 1)))).enc = Enc.fresh := ⟨rfl, rfl⟩

/-! ## Encoder commands -/

/-- E35: ENC_INIT empties BUF. -/
theorem test_encInit : answer (run [.encWrite 5, .encInit, .status] (chip 16 none)) = some (.ok, 0, 0) := by decide

/-- R32, R74: one pending value shows as BUFCNT. -/
theorem test_encWrite : answer (run [.encWrite 5, .status] (chip 16 none)) = some (.ok, 0x10000, 0) := by decide

/-- E33: ENC_WRITE after ENC_FLUSH faults 4. -/
theorem test_encWrite_after_flush : answer (run [.encWrite 1, .encFlush, .encWrite 2] (chip 16 none)) = some (.fault, 0, 4) := by decide

/-- E1: the stream of 5,0,0,0,0,0,7. -/
theorem test_encFlush :
    let s := run (encStream [5, 0, 0, 0, 0, 0, 7]) (chip 16 none)
    answer s = some (.ok, 4, 0) ∧ s.enc.out = bytes [0xA3, 0x22, 0x37, 0x06] := by decide

/-- E36: OUT_CAP = 4 is one byte too small for 0xFFFFFFFF. -/
theorem test_encFlush_sink_full :
    answer (run [.encWrite 0xFFFFFFFF, .encFlush] (chip 16 (some 4))) = some (.fault, 0, 7) := by decide

/-- E34: ENC_CODE answers the length. -/
theorem test_encCode : answer (run [.encWrite 1, .encFlush, .encCode] (chip 16 none)) = some (.ok, 1, 0) := by decide

/-- E31: ENC_CODE before ENC_FLUSH faults 5. -/
theorem test_encCode_before_flush : answer (next .encCode (chip 16 none)) = some (.fault, 0, 5) := by decide

/-- W1: a window's widths. -/
theorem test_profile : profile [5, 0, 0, 0, 0, 0, 7] 0 true = [3, 2, 1, 0, 1, 2, 3, 3] := by decide

/-- W5, W8: a carried width, and the boundary of a partial flush. -/
theorem test_profile_boundaries : profile [0, 0] 32 true = [31, 30, 30] ∧ profile [3, 0] 0 false = [2, 1, 0] := by decide

/-! ## Decoder commands -/

/-- D1: DEC_INIT answers the header. -/
theorem test_decInit :
    let s := next (.decInit 0 4) (withBytes [0xA3, 0x22, 0x37, 0x06])
    answer s = some (.ok, 3, 0) ∧ widths s = (3, 3, -1, 5) := by decide

/-- D18: a span past IN_SIZE faults 9. -/
theorem test_decInit_span_range : answer (next (.decInit 0 2) (chip 1 none)) = some (.fault, 0, 9) := by decide

/-- D11: the second read of `20` goes past the run. -/
theorem test_decRead :
    let s := run [.decInit 0 1, .decRead, .decRead] (withBytes [0x20])
    answer s = some (.ok, 1, 0) ∧ widths s = (1, 1, -1, 7) := by decide

/-- D7: the code `11` at width 32 fails 2. -/
theorem test_decRead_width_overflow : answer (run [.decInit 0 1, .decRead] (withBytes [0xFF])) = some (.fail, 0, 2) := by decide

/-- D13: the longest run, and DEC_NEXT_CODE after it. -/
theorem test_decNextCode :
    let s := run [.decInit 0 9, .decRead, .decNextCode] (withBytes [0, 0, 0, 0, 0xF0, 0xFF, 0xFF, 0xFF, 0x0F])
    answer s = some (.ok, 9, 0) ∧ widths s = (0, 0, 4294967293, 68) := by decide

/-- D16: DEC_NEXT_CODE before DEC_INIT faults 0xA. -/
theorem test_decNextCode_not_init : answer (next .decNextCode (chip 16 none)) = some (.fault, 0, 0xA) := by decide

/-! ## Wire symbols -/

/-- R56, R86: HDR_5 3 at the start of `A3 ..` is D1. -/
theorem test_hdr5 :
    next (.hdr5 3) (openSpan 0 4 (withBytes [0xA3, 0x22, 0x37, 0x06])) = next (.decInit 0 4) (withBytes [0xA3, 0x22, 0x37, 0x06]) := by decide

/-- D6: `1F` is HDR_31. -/
theorem test_hdr31 : next .hdr31 (openSpan 0 1 (withBytes [0x1F])) = next (.decInit 0 1) (withBytes [0x1F]) := by decide

/-- D7: `FF` begins with HDR_32. -/
theorem test_hdr32 : next .hdr32 (openSpan 0 1 (withBytes [0xFF])) = next (.decInit 0 1) (withBytes [0xFF]) := by decide

/-- R57: TR_SAME, TR_UP and TR_DOWN give the next width 3, 4 and 2 from 3, and take 1, 2 and 2 bits. -/
theorem test_transitions :
    (next .trSame (ready [0, 0] 3 3 (-1) 5)).dec.phase = .value 3 (-1) ∧ (next .trSame (ready [0, 0] 3 3 (-1) 5)).dec.pos = 6 ∧
    (next .trUp (ready [0, 0] 3 3 (-1) 5)).dec.phase = .value 4 (-1) ∧ (next .trUp (ready [0, 0] 3 3 (-1) 5)).dec.pos = 7 ∧
    (next .trDown (ready [0, 0] 3 3 (-1) 5)).dec.phase = .value 2 (-1) ∧
    (next .trDown (ready [0, 0] 3 3 (-1) 5)).dec.pos = 7 := by decide

/-- E1's first sample: TR_DOWN, then the elided field `10` of the value 5, is DEC_READ's 5. -/
theorem test_trDown_valElided3 :
    let s := next (.decInit 0 4) (withBytes [0xA3, 0x22, 0x37, 0x06])
    run [.trDown, .valElided3 1] s = next .decRead s ∧ answer (next .decRead s) = some (.ok, 5, 0) := by decide

/-- E2: the run code `1` of one sample is DEC_READ's 0, and the next width is 1 (D11). -/
theorem test_zr0 :
    let s := next (.decInit 0 1) (withBytes [0x20])
    next .zr0 s = next .decRead s ∧ widths (next .zr0 s) = (0, 1, -1, 6) := by decide

/-- D13: ZR_31 with the largest suffix is the run of 2^32 - 1 samples. -/
theorem test_zr31 :
    let s := next (.decInit 0 9) (withBytes [0, 0, 0, 0, 0xF0, 0xFF, 0xFF, 0xFF, 0x0F])
    next (.zr31 0x7FFFFFFF) s = next .decRead s := by decide

/-- R59: a full field is the value; spec file 95 section 3.4, (3, 3, 4, 5). -/
theorem test_valFull3 : answer (next (.valFull3 5) (inside (.value 4 (-1)) (ready [0, 0] 3 3 (-1) 7))) = some (.ok, 5, 0) := by decide

/-- R59: the elided top bit of width 32 is 2^31; spec file 95 section 3.4. -/
theorem test_valElided32 :
    answer (next (.valElided32 0) (inside (.value 32 (-1)) (ready [0, 0, 0, 0, 0, 0] 31 32 (-1) 7))) =
      some (.ok, 0x80000000, 0) := by decide

/-- R60: a symbol of another context stops by name. -/
theorem test_symbol_out_of_context : exec .zr0 (ready [0] 3 3 (-1) 5) = .refused .symbolOutOfContext := by rfl

/-! ## Witnesses: one state and operands that meet an obligation's hypotheses together, at the boundaries of each clause -/

/-- Where the hypotheses of ResetGivesTheResetValues hold: a halted block with IN contents, and reset asked. -/
theorem witness_ResetGivesTheResetValues :
    let s := asks [.reset] (raiseFault .illegalCmd (withBytes [1, 2]))
    s.host = .reset :: [] ∧ s.fault = true ∧ (stepped s).fault = false ∧ (stepped s).inMem = bytes [1, 2] := by decide

/-- A halted block, an instruction other than STATUS, and the illegal words next to the legal ones. -/
theorem witness_HaltedBlockDoesNothing :
    (raiseFault .encSinkFull (chip 16 none)).fault = true ∧ Instr.encInit ≠ .status ∧
      ([0x0, 0x5, 0x7, 0xB, 0xE, 0x10, 0x1F].all fun c => (decodeCommand c 0 0).toOption.isNone) = true ∧
      (∃ t, step (raiseFault .encSinkFull (asks [.reset] (chip 16 none))) = .next t ∧ t.fault = false) ∧
      ∃ t, step (raiseFault .encSinkFull (asks [.command 1 0 0] (chip 16 none))) = .next t ∧ t.fault = true :=
  ⟨by decide, by decide, by decide, ⟨_, rfl, rfl⟩, ⟨_, rfl, rfl⟩⟩

/-- Illegal and legal words, at the edges of the legal OPs. -/
theorem witness_IllegalCommandsFault :
    (chip 16 none).fault = false ∧
      ([0x0, 0x5, 0x6, 0x7, 0xB, 0xC, 0xD, 0xE, 0x10, 0x80000001].all fun c =>
        decide ((c : Word).extractLsb' 4 28 ≠ 0 ∨ ((c : Word).extractLsb' 0 4).toNat ∈ [0x0, 0x5, 0x6, 0x7, 0xB, 0xC, 0xD, 0xE])) = true ∧
      ([0x1, 0x2, 0x3, 0x4, 0x8, 0x9, 0xA, 0xF].all fun c =>
        decide (¬((c : Word).extractLsb' 4 28 ≠ 0 ∨ ((c : Word).extractLsb' 0 4).toNat ∈ [0x0, 0x5, 0x6, 0x7, 0xB, 0xC, 0xD, 0xE]))) = true := by
  decide

theorem witness_StepRunsTheDecodedCommand :
    (asks [.command 2 7 0, .reset] (chip 16 none)).host = .command 2 7 0 :: [.reset] ∧ decodeCommand 2 7 0 = .ok (.encWrite 7) :=
  ⟨rfl, rfl⟩

/-- The last address of IN, and the first that does not exist; and of OUT, with a finished stream of two bytes that fill it. -/
theorem witness_HostAccessesOneByte :
    let done := run (encStream [5, 5]) (chip 16 (some 2))
    (∀ cap, done.cfg.outCap = some cap → 1 < cap) ∧ (asks [.readOut 1] done).host = .readOut 1 :: [] ∧ done.enc.flushed = true ∧
      1 < done.enc.outLen ∧ EncInv done.cfg.outCap done.enc ∧
      (asks [.readOut 2] done).host = .readOut 2 :: [] ∧ ¬∀ cap, done.cfg.outCap = some cap → 2 < cap := by
  refine ⟨fun cap h => ?_, rfl, by decide, by decide, ?_, rfl, fun h => absurd (h 2 rfl) (by decide)⟩
  · cases h; decide
  · obtain ⟨e, he, h⟩ : ∃ e, flushStream (some 2) { Enc.fresh with buf := [5, 5] } = .ok e ∧
        (run (encStream [5, 5]) (chip 16 (some 2))).enc = e := ⟨_, rfl, rfl⟩
    rw [h]
    refine encInv_flushStream (e := { Enc.fresh with buf := [5, 5] }) ?_ rfl (by decide) he
    exact encInv_writeValue (v := 5) (encInv_writeValue (v := 5) (encInv_fresh _) rfl rfl) rfl rfl

theorem witness_HostAccessesOneByte_writes :
    (chip 16 none).host = [] ∧ (asks [.writeIn 15 1] (chip 16 none)).host = .writeIn 15 1 :: [] ∧ 15 < (chip 16 none).cfg.inSize ∧
      (asks [.writeIn 16 1] (chip 16 none)).host = .writeIn 16 1 :: [] ∧ ¬16 < (chip 16 none).cfg.inSize := by decide

/-- Each clause: a finished stream, an empty one, an empty span, a span one byte too long, and a decoder without a span. -/
theorem witness_PreconditionFaultsArePrecise :
    let done := run (encStream [1]) (chip 16 none)
    done.fault = false ∧ done.enc.flushed = true ∧ (chip 16 none).fault = false ∧ (chip 16 none).enc.flushed = false ∧
      (chip 16 none).enc.buf = [] ∧ (0 : Word) = 0 ∧ (1 : Word) ≠ 0 ∧
      (chip 16 none).cfg.inSize < (16 : Word).toNat + (1 : Word).toNat ∧ (chip 16 none).dec.dstate = .uninit := by decide

/-- Both causes: a capacity of 0 bytes, and a full run counter. -/
theorem witness_MidOperationFaultsHalt :
    let a := pendingEnc [0] (some 0)
    let b := { chip 16 none with enc := { Enc.fresh with buf := [0], started := true, nz := 0xFFFFFFFF } }
    let c := pendingEnc (List.replicate 63 0) (some 0)
    (a.fault = false ∧ a.enc.flushed = false ∧ a.enc.buf ≠ [] ∧ flushStream a.cfg.outCap a.enc = .error .encSinkFull) ∧
      (b.fault = false ∧ b.enc.flushed = false ∧ b.enc.buf ≠ [] ∧ flushStream b.cfg.outCap b.enc = .error .encRunOverflow) ∧
      (c.fault = false ∧ c.enc.flushed = false ∧ writeValue c.cfg.outCap 0 c.enc = .error .encSinkFull) := by
  refine ⟨⟨rfl, rfl, by decide, rfl⟩, ⟨rfl, rfl, by decide, rfl⟩, rfl, rfl, by decide +kernel⟩

theorem witness_FaultStaysUntilReset :
    let s := asks [.command 1 0 0] (raiseFault .decNotInit (chip 16 none))
    step s = .next (stepped s) ∧ s.fault = true ∧ ∀ rest, s.host ≠ .reset :: rest :=
  ⟨rfl, rfl, fun _ h => by cases h⟩

/-- An encoder command, a decoder command, a wire symbol and STATUS, each answering OK. -/
theorem witness_InstructionsKeepTheOtherUnit :
    let s := ready [0x20] 0 0 (-1) 5
    exec (.encWrite 1) s = .next (next (.encWrite 1) s) ∧ Instr.isEncoder (.encWrite 1) = true ∧
      exec .decRead s = .next (next .decRead s) ∧ Instr.isDecoder .decRead = true ∧
      exec .zr0 s = .next (next .zr0 s) ∧ Instr.isDecoder .zr0 = true ∧
      exec .status s = .next (next .status s) ∧ answer (next .zr0 s) = some (.ok, 0, 0) :=
  ⟨rfl, rfl, rfl, rfl, rfl, rfl, rfl, rfl⟩

theorem witness_DecoderIgnoresTheEncoder : Instr.isDecoder (.decInit 0 1) = true ∧ Instr.isDecoder .trUp = true := ⟨rfl, rfl⟩

theorem witness_EncoderIgnoresTheDecoder : Instr.isEncoder .encInit = true ∧ Instr.isEncoder .encCode = true := ⟨rfl, rfl⟩

/-- IN contents that differ outside the span only. -/
theorem witness_DecReadSeesOnlyItsSpan :
    let s := ready [0x20] 0 0 (-1) 5
    let m := bytes [0x20, 0xFF]
    Ready s ∧ m ≠ s.inMem ∧ ∀ a, s.dec.base.toNat ≤ a → a < s.dec.base.toNat + s.dec.len.toNat →
      ({ s with inMem := m } : State).inByte a = s.inByte a := by
  refine ⟨⟨rfl, rfl, rfl, by decide⟩, by decide, fun a _ h => ?_⟩
  have h0 : a = 0 := by
    have : a < 1 := h
    omega
  subst h0; rfl

theorem witness_EncInitStartsAStream : (run (encStream [1]) (chip 16 none)).fault = false := by decide

/-- Both ends of the range of |BUF| that only buffers. -/
theorem witness_EncWriteBuffersTheValue :
    let a := pendingEnc (List.replicate 62 0) none
    (a.fault = false ∧ a.enc.flushed = false ∧ a.enc.buf.length ≠ 63) ∧
      ((chip 16 none).fault = false ∧ (chip 16 none).enc.flushed = false ∧ (chip 16 none).enc.buf.length ≠ 63) := by decide

/-- 63 zeros pending, the largest run that still has room, and a capacity of exactly the header's byte. -/
theorem witness_EncWriteFlushesAtSixtyFour :
    let s := { chip 16 (some 1) with enc := { Enc.fresh with buf := List.replicate 63 0, nz := 0xFFFFFFDF } }
    let B := s.enc.buf ++ [0]
    s.fault = false ∧ s.enc.flushed = false ∧ s.enc.buf.length = 63 ∧ s.enc.mrw ≤ 32 ∧ s.enc.nz.toNat + 32 < 2 ^ 32 ∧
      sinkFull s.cfg.outCap (s.enc.ebits.length + (flushBits s.enc (B.take 32) (profile B s.enc.mrw false)).length) = false :=
  ⟨rfl, rfl, rfl, by decide, by decide, by decide +kernel⟩

/-- One value pending, a carried width at its maximum, and a capacity of exactly the stream. -/
theorem witness_EncFlushFinishesTheStream :
    let s := pendingEnc [0xFFFFFFFF] (some 5)
    let W := profile s.enc.buf s.enc.mrw true
    s.fault = false ∧ s.enc.flushed = false ∧ s.enc.buf ≠ [] ∧ s.enc.mrw ≤ 32 ∧ s.enc.nz.toNat + s.enc.buf.length < 2 ^ 32 ∧
      sinkFull s.cfg.outCap (s.enc.ebits.length + (flushBits s.enc s.enc.buf W ++
        symbolBits (runSymbols (sampleSymbols s.enc.mrw s.enc.nz.toNat s.enc.buf W).2)).length) = false := by
  refine ⟨rfl, rfl, by decide, by decide, by decide, by decide⟩

/-- Before and after the flush. -/
theorem witness_EncCodeAnswersTheLength :
    (chip 16 none).fault = false ∧ (chip 16 none).enc.flushed = false ∧
      (run (encStream [1]) (chip 16 none)).fault = false ∧ (run (encStream [1]) (chip 16 none)).enc.flushed = true := by decide

theorem witness_EncoderStoresTheStreamsBytes :
    let a := pendingEnc (List.replicate 63 1) none
    let b := pendingEnc [5, 0, 0, 0, 0, 0, 7] none
    (a.fault = false ∧ a.enc.mrw ≤ 32 ∧ goes (.encWrite 1) a = true ∧ (next (.encWrite 1) a).fault = false) ∧
      (b.fault = false ∧ b.enc.mrw ≤ 32 ∧ goes .encFlush b = true ∧ (next .encFlush b).fault = false) := by decide +kernel

theorem witness_EncoderWorkIsBounded :
    let a := pendingEnc (List.replicate 63 1) none
    a.fault = false ∧ a.enc.mrw ≤ 32 ∧ a.enc.buf.length ≤ 63 ∧ (next (.encWrite 1) a).fault = false ∧
      (next .encFlush a).fault = false ∧ goes (.encWrite 1) a = true ∧ goes .encFlush a = true := by decide +kernel

/-- Both branches, and the widest and the empty write. -/
theorem witness_SinkWriteAppendsLsbFirst :
    32 ≤ 32 ∧ 0xFFFFFFFF < 2 ^ 32 ∧ (0 : Nat) ≤ 32 ∧ (0 : Nat) < 2 ^ 0 ∧
      (∃ n, (some 3 : Option Nat) = some n ∧ n < ceil8 (Enc.fresh.ebits.length + 32)) ∧
      ¬∃ n, (some 4 : Option Nat) = some n ∧ n < ceil8 (Enc.fresh.ebits.length + 32) := by
  refine ⟨by decide, by decide, by decide, by decide, ⟨3, rfl, by decide⟩, ?_⟩
  rintro ⟨n, h, hn⟩
  cases h
  exact absurd hn (by decide)

theorem witness_SinkFlushPadsWithZeros : (pendingEnc [] none).enc.ebits.length % 8 = 0 ∧ (Enc.fresh.put [true]).ebits.length % 8 ≠ 0 := by
  decide

theorem witness_HeaderBitsAreTheSpecs : (0 : Nat) ≤ 32 ∧ 30 ≤ 32 ∧ 31 ≤ 32 ∧ 32 ≤ 32 := by decide

theorem witness_ZeroRunCodeIsTheSpecs : (1 : Nat) ≤ 1 ∧ 1 ≤ 2 ^ 32 - 1 ∧ 1 ≤ 2 ^ 32 - 1 ∧ 2 ^ 32 - 1 ≤ 2 ^ 32 - 1 := by decide

/-- The width 0, and the three transitions of a width 1. -/
theorem witness_EncodeSampleWritesItsSymbols :
    (0 : Nat) = 0 ∧ ((1 : Nat) = 1 ∨ 1 = 1 + 1 ∨ 1 + 1 = 1) ∧ ((2 : Nat) = 1 ∨ 2 = 1 + 1 ∨ 2 + 1 = 1) ∧
      ((0 : Nat) = 1 ∨ 0 = 1 + 1 ∨ 0 + 1 = 1) := by decide

theorem witness_BitwidthIsTheLeastWidth : (1 : Word) ≠ 0 ∧ (0xFFFFFFFF : Word) ≠ 0 := by decide

/-- A window, and another smooth sequence above its values. -/
theorem witness_ProfileIsTheSmallestSmoothOne :
    let B : List Word := [5, 0]
    let U : Nat → Nat := fun _ => 3
    B ≠ [] ∧ (∀ i, i < B.length → bitwidth (B.getD i 0).toNat ≤ U i) ∧
      (∀ i, i + 1 < B.length → U (i + 1) ≤ U i + 1 ∧ U i ≤ U (i + 1) + 1) ∧ 4 ≤ U 0 + 1 := by
  refine ⟨by decide, fun i hi => ?_, fun i _ => by simp, by decide⟩
  have : i = 0 ∨ i = 1 := by
    have : i < 2 := hi
    omega
  rcases this with rfl | rfl <;> decide

theorem witness_ProfileHasItsClosedForm : 0 < ([5, 0] : List Word).length ∧ 1 < ([5, 0] : List Word).length := by decide

/-- The first window of 64 values, and the last value alone. -/
theorem witness_WindowsCommitTheStreamsWidths :
    0 < (List.replicate 64 (1 : Word)).length ∧ 0 + 64 ≤ (List.replicate 64 (1 : Word)).length ∧ 32 ≤ 32 ∧
      63 < (List.replicate 64 (1 : Word)).length ∧ 1 ≤ (List.replicate 64 (1 : Word)).length - 63 := by decide

/-- The first and the last sample of 7,7,7 (E13). -/
theorem witness_ElidedTopBitIsOne :
    let vs : List Word := [7, 7, 7]
    (0 < vs.length ∧ 0 < streamWidth vs 0 ∧ 0 ≤ streamWidth vs 0 ∧ streamWidth vs 1 ≤ streamWidth vs 0) ∧
      (2 < vs.length ∧ 0 < streamWidth vs 2 ∧ streamWidth vs 1 ≤ streamWidth vs 2 ∧ streamWidth vs 3 ≤ streamWidth vs 2) := by decide

/-- A zero-count read, a read of the last bits, and one that passes the span by a bit. -/
theorem witness_SrcReadTakesTheNextBits :
    let s := ready [0, 0, 0, 0] 0 0 (-1) 0
    32 ≤ 32 ∧ s.dec.base.toNat + s.dec.len.toNat ≤ s.cfg.inSize ∧ ¬8 * s.dec.len.toNat < 0 + 32 ∧ 8 * s.dec.len.toNat < 1 + 32 := by
  decide

/-- Each branch: the empty span, a span one byte too long, the largest header of 5 bits and the two escapes. -/
theorem witness_DecInitReadsTheHeader :
    (chip 16 none).fault = false ∧ (chip 16 none).cfg.inSize < (16 : Word).toNat + (1 : Word).toNat ∧
      ¬(chip 16 none).cfg.inSize < (15 : Word).toNat + (1 : Word).toNat ∧ (1 : Word) ≠ 0 ∧
      ((withBytes [0x1E]).inByte (0 : Word).toNat).toNat % 32 = 30 ∧ ((withBytes [0x1F]).inByte (0 : Word).toNat).toNat % 32 = 31 ∧
      ((withBytes [0x3F]).inByte (0 : Word).toNat).getLsbD 5 = true := by decide

/-- The three codes: `0` and `10` at width 1 with the field that ends the span, `11` at width 31. -/
theorem witness_DecReadTakesTransitionAndValue :
    let a := ready [0x00] 1 1 (-1) 7
    let b := ready [0x40] 2 1 (-1) 5
    let c := ready [0x03, 0, 0, 0, 0] 31 31 (-1) 0
    (Ready a ∧ a.inBit 7 = false ∧ 7 + 1 + 0 ≤ 8 * a.dec.len.toNat) ∧
      (Ready b ∧ b.inBit 6 = true ∧ b.inBit 7 = false ∧ 5 + 2 + 1 ≤ 8 * b.dec.len.toNat) ∧
      (Ready c ∧ 1 ≤ c.dec.cw ∧ c.dec.cw ≤ 32 ∧ c.inBit 0 = true ∧ c.inBit 1 = true ∧ 32 = c.dec.cw + 1 ∧
        0 + 2 + 31 ≤ 8 * c.dec.len.toNat) :=
  ⟨⟨⟨rfl, rfl, rfl, by decide⟩, by decide⟩, ⟨⟨rfl, rfl, rfl, by decide⟩, by decide⟩, ⟨rfl, rfl, rfl, by decide⟩, by decide⟩

/-- The last sample of a run, and the largest countdown. -/
theorem witness_DecReadCountsTheRunDown :
    let a := ready [0] 0 0 0 8
    let b := ready [0] 0 0 4294967293 8
    (Ready a ∧ a.dec.cw = 0 ∧ 0 ≤ a.dec.zc) ∧ (Ready b ∧ b.dec.cw = 0 ∧ 0 ≤ b.dec.zc) :=
  ⟨⟨⟨rfl, rfl, rfl, by decide⟩, by decide⟩, ⟨rfl, rfl, rfl, by decide⟩, by decide⟩

/-- The shortest code at the span's last bit, and the longest (D13). -/
theorem witness_DecReadTakesTheRunCode :
    let a := ready [0x80] 0 0 (-1) 7
    let b := ready [0, 0, 0, 0, 0xF0, 0xFF, 0xFF, 0xFF, 0x0F] 0 0 (-1) 5
    (Ready a ∧ a.dec.cw = 0 ∧ a.dec.zc = -1 ∧ a.inBit (a.dec.pos + 0) = true ∧ a.dec.pos + (2 * 0 + 1) ≤ 8 * a.dec.len.toNat) ∧
      (Ready b ∧ b.dec.cw = 0 ∧ b.dec.zc = -1 ∧ 31 ≤ 31 ∧ ((List.range 31).all fun j => !b.inBit (b.dec.pos + j)) = true ∧
        b.inBit (b.dec.pos + 31) = true ∧ b.dec.pos + (2 * 31 + 1) ≤ 8 * b.dec.len.toNat) :=
  ⟨⟨⟨rfl, rfl, rfl, by decide⟩, by decide⟩, ⟨rfl, rfl, rfl, by decide⟩, by decide⟩

/-- Each clause: D7, D8, D9, a suffix cut short by a bit (S6), and no bit left. -/
theorem witness_DecReadFailsByCause :
    let a := ready [0xFF] 32 32 (-1) 6
    let b := ready [0, 0, 0, 0, 0] 0 0 (-1) 5
    let c := ready [0, 0, 0, 0] 0 0 (-1) 5
    let d := ready [0x80] 0 0 (-1) 6
    let e := ready [0] 1 1 (-1) 8
    (Ready a ∧ a.dec.cw = 32 ∧ a.dec.pos + 2 ≤ 8 * a.dec.len.toNat ∧ a.inBit 6 = true ∧ a.inBit 7 = true) ∧
      (Ready b ∧ b.dec.cw = 0 ∧ b.dec.zc = -1 ∧ b.dec.pos + 32 ≤ 8 * b.dec.len.toNat ∧
        ((List.range 32).all fun j => !b.inBit (b.dec.pos + j)) = true) ∧
      (Ready c ∧ c.dec.cw = 0 ∧ c.dec.zc = -1 ∧ ((List.range 27).all fun j => !c.inBit (c.dec.pos + j)) = true ∧
        8 * c.dec.len.toNat = c.dec.pos + 27) ∧
      (Ready d ∧ d.dec.cw = 0 ∧ d.dec.zc = -1 ∧ d.inBit 6 = false ∧ d.inBit 7 = true ∧ d.dec.pos + 1 < 8 * d.dec.len.toNat ∧
        8 * d.dec.len.toNat < d.dec.pos + (2 * 1 + 1)) ∧
      (Ready e ∧ 1 ≤ e.dec.cw ∧ e.dec.cw ≤ 32 ∧ 8 * e.dec.len.toNat ≤ e.dec.pos) :=
  ⟨⟨⟨rfl, rfl, rfl, by decide⟩, by decide⟩, ⟨⟨rfl, rfl, rfl, by decide⟩, by decide⟩, ⟨⟨rfl, rfl, rfl, by decide⟩, by decide⟩,
    ⟨⟨rfl, rfl, rfl, by decide⟩, by decide⟩, ⟨rfl, rfl, rfl, by decide⟩, by decide⟩

theorem witness_FailureKeepsTheWidths :
    let s := ready [0xFF] 32 32 (-1) 6
    s.fault = false ∧ s.dec.dstate = .ready ∧ exec .decRead s = .next (next .decRead s) ∧ (next .decRead s).dec.dstate = .failed :=
  ⟨rfl, rfl, rfl, rfl⟩

theorem witness_FailedDecoderRepeatsItsCause :
    let s := next .decRead (ready [0xFF] 32 32 (-1) 6)
    s.fault = false ∧ s.dec.dstate = .failed := by decide

theorem witness_OnlyInitAndResetLeaveFailed :
    let s := asks [.command 9 0 0] (next .decRead (ready [0xFF] 32 32 (-1) 6))
    step s = .next (stepped s) ∧ s.dec.dstate = .failed := ⟨rfl, rfl⟩

/-- The largest address that fits RDATA, and the first that does not. -/
theorem witness_DecNextCodeAnswersTheAddress :
    let s (pos : Nat) := { ready [0] 0 0 (-1) pos with dec := { (ready [0] 0 0 (-1) pos).dec with base := 0xFFFFFFFF } }
    ((s 0).fault = false ∧ (s 0).dec.dstate = .ready ∧ (s 0).dec.base.toNat + ceil8 (s 0).dec.pos < 2 ^ 32) ∧
      ((s 8).fault = false ∧ (s 8).dec.dstate = .ready ∧ 2 ^ 32 ≤ (s 8).dec.base.toNat + ceil8 (s 8).dec.pos) := by decide

theorem witness_DecReadWorkIsBounded :
    let a := ready [0x00] 1 1 (-1) 7
    let b := ready [0, 0, 0, 0, 0xF0, 0xFF, 0xFF, 0xFF, 0x0F] 0 0 (-1) 5
    (Ready a ∧ a.dec.cw ≤ 32 ∧ goes .decRead a = true ∧ (next .decRead a).dec.dstate = .ready ∧ a.dec.pos ≤ 8 * a.dec.len.toNat) ∧
      (Ready b ∧ b.dec.cw ≤ 32 ∧ goes .decRead b = true ∧ (next .decRead b).dec.dstate = .ready ∧ b.dec.pos ≤ 8 * b.dec.len.toNat) :=
  ⟨⟨⟨rfl, rfl, rfl, by decide⟩, by decide⟩, ⟨rfl, rfl, rfl, by decide⟩, by decide⟩

theorem witness_HeaderSymbolsComplete :
    let s := openSpan 0 1 (withBytes [0xFF])
    s.fault = false ∧ s.dec.phase = .header ∧ s.dec.pos + 5 ≤ 8 * s.dec.len.toNat ∧ s.dec.pos + 6 ≤ 8 * s.dec.len.toNat ∧
      (0 : BitVec 5) ≠ 31 ∧ (30 : BitVec 5) ≠ 31 := by decide

/-- Widths 1, 31 and 32, the code's last bit being the span's. -/
theorem witness_TransitionSymbolsComplete :
    ([1, 31, 32].all fun c =>
      let s := ready [0] c c (-1) 6
      decide (s.fault = false ∧ s.dec.dstate = .ready ∧ s.dec.phase = .idle ∧ 1 ≤ s.dec.cw ∧ s.dec.cw ≤ 32 ∧
        s.dec.pos + 1 ≤ 8 * s.dec.len.toNat ∧ s.dec.pos + 2 ≤ 8 * s.dec.len.toNat)) = true := by decide

/-- A span that the longest code fills exactly. -/
theorem witness_ZeroRunSymbolsComplete :
    let s := ready [0, 0, 0, 0, 0, 0, 0, 0] 0 0 (-1) 1
    s.fault = false ∧ s.dec.dstate = .ready ∧ s.dec.phase = .idle ∧ s.dec.cw = 0 ∧ s.dec.zc = -1 ∧
      s.dec.pos + (2 * 0 + 1) ≤ 8 * s.dec.len.toNat ∧ s.dec.pos + (2 * 31 + 1) ≤ 8 * s.dec.len.toNat := by decide

/-- Every width 1..32, with a field that ends the span. -/
theorem witness_FullValueSymbolsComplete :
    ((List.range 32).all fun i =>
      let s := inside (.value 0 (-1)) (ready [0, 0, 0, 0, 0] 32 (i + 1) (-1) (40 - (i + 1)))
      decide (s.fault = false ∧ s.dec.dstate = .ready ∧ s.dec.phase = .value 0 (-1) ∧ s.dec.cw = i + 1 ∧
        s.dec.pos + (i + 1) ≤ 8 * s.dec.len.toNat)) = true := by decide

/-- Every width 1..32, with a field that ends the span; the field of width 1 is empty. -/
theorem witness_ElidedValueSymbolsComplete :
    ((List.range 32).all fun i =>
      let s := inside (.value 0 (-1)) (ready [0, 0, 0, 0, 0] 0 (i + 1) (-1) (40 - i))
      decide (s.fault = false ∧ s.dec.dstate = .ready ∧ s.dec.phase = .value 0 (-1) ∧ s.dec.cw = i + 1 ∧
        (0 < i → s.dec.pos + i ≤ 8 * s.dec.len.toNat))) = true := by decide

theorem witness_DecInitRunsItsHeaderSymbol :
    let s := withBytes [0xFF]
    s.fault = false ∧ (1 : Word) ≠ 0 ∧ (0 : Word).toNat + (1 : Word).toNat ≤ s.cfg.inSize ∧
      (15 : Word).toNat + (1 : Word).toNat ≤ s.cfg.inSize := by decide

/-- A run code, a transition with its value field, and `11` at width 32. -/
theorem witness_DecReadRunsItsSymbols :
    let a := ready [0x20] 0 0 (-1) 5
    let b := ready [0x43] 3 3 (-1) 5
    let c := ready [0xFF] 32 32 (-1) 6
    (Ready a ∧ a.dec.cw ≤ 32 ∧ a.dec.cw = 0 ∧ a.dec.zc = -1 ∧ decodeWire .run (restBits a) = .ok (.zr0, wire 2 0)) ∧
      (Ready b ∧ b.dec.cw ≤ 32 ∧ b.dec.cw ≠ 0 ∧ decodeWire .trans (restBits b) = .ok (.trSame, wire 2 0b10) ∧
        decodeWire (.value b.dec.pw b.dec.cw 3) (wire 2 0b10) = .ok (.valElided3 1, [])) ∧
      (Ready c ∧ c.dec.cw ≤ 32 ∧ c.dec.cw ≠ 0 ∧ decodeWire .trans (restBits c) = .ok (.trUp, [])) :=
  ⟨⟨⟨rfl, rfl, rfl, by decide⟩, by decide, rfl, rfl, rfl⟩, ⟨⟨rfl, rfl, rfl, by decide⟩, by decide, by decide, rfl, rfl⟩,
    ⟨rfl, rfl, rfl, by decide⟩, by decide, by decide, rfl⟩

/-- Each clause: no bit left, a run cut short, 32 zeros, and a value field cut short by a bit. -/
theorem witness_DecReadFailsWhereNoSymbolStands :
    let a := ready [0] 1 1 (-1) 8
    let b := ready [0] 0 0 (-1) 5
    let c := ready [0, 0, 0, 0, 0] 0 0 (-1) 5
    let d := ready [0] 3 3 (-1) 6
    (Ready a ∧ a.dec.cw ≤ 32 ∧ a.dec.cw ≠ 0 ∧ decodeWire .trans (restBits a) = .error .truncated) ∧
      (Ready b ∧ b.dec.cw = 0 ∧ b.dec.zc = -1 ∧ decodeWire .run (restBits b) = .error .truncated) ∧
      (Ready c ∧ c.dec.cw = 0 ∧ c.dec.zc = -1 ∧ decodeWire .run (restBits c) = .error .runPrefix) ∧
      (Ready d ∧ d.dec.cw ≠ 0 ∧ decodeWire .trans (restBits d) = .ok (.trSame, [false]) ∧
        exec .trSame d = .next (next .trSame d) ∧ (next .trSame d).dec.phase = .value 3 d.dec.zc ∧
        decodeWire (.value d.dec.pw d.dec.cw 3) [false] = .error .truncated) :=
  ⟨⟨⟨rfl, rfl, rfl, by decide⟩, by decide, by decide, rfl⟩, ⟨⟨rfl, rfl, rfl, by decide⟩, rfl, rfl, rfl⟩,
    ⟨⟨rfl, rfl, rfl, by decide⟩, rfl, rfl, rfl⟩, ⟨rfl, rfl, rfl, by decide⟩, by decide, rfl, rfl, rfl, rfl⟩

/-- A command, and a symbol in its context. -/
theorem witness_InstructionsDecodeAsEncoded :
    (Instr.decInit 1 2).wf = true ∧ encode (.decInit 1 2) = .command 8 1 2 ∧ (Instr.valElided32 5).wf = true ∧
      (Instr.valElided32 5).symbol? = some (.valElided 32 5) ∧ (Symbol.valElided 32 5).fits (.value 31 32 32) = true :=
  ⟨rfl, rfl, rfl, rfl, rfl⟩

theorem witness_DecodedSymbolsHaveTheirBits : decodeWire .run (wire 6 0b001101) = .ok (.zr2 1, [true]) := rfl

/-- A sound state other than reset, and a step from it. -/
theorem witness_StepsKeepStatesSound :
    let s := asks [.command 2 5 0] (chip 16 none)
    Inv s ∧ step s = .next (stepped s) := by
  refine ⟨⟨by decide, fun _ => encInv_fresh _, ⟨by decide, by decide, ?_, ?_, ?_, ?_, ?_, ?_, rfl⟩, rfl, rfl, fun _ _ => rfl⟩, rfl⟩ <;>
    (intro h; cases h)

theorem witness_SoundStatesStepOn :
    let s := asks [.writeIn 15 1] (chip 16 none)
    Inv s ∧ hostSafe s ∧ hostSafe (asks [.readOut 1] (chip 16 (some 2))) := by
  refine ⟨⟨by decide, fun _ => encInv_fresh _, ⟨by decide, by decide, ?_, ?_, ?_, ?_, ?_, ?_, rfl⟩, rfl, rfl, fun _ _ => rfl⟩, ⟨?_, ?_⟩, ⟨?_, ?_⟩⟩
  all_goals first
    | (intro h; cases h; done)
    | (intro a b rest h; cases h; done)
    | (intro a b rest h; cases h; decide)
    | (intro a rest h; cases h; done)
    | (intro a rest h; cases h; decide)

theorem witness_StreamsHaveTheirLayout :
    ([5] : List Word) ≠ [] ∧ ([5] : List Word).length < 2 ^ 32 ∧ (chip 16 none).fault = false ∧ (chip 16 none).cfg.outCap = none := by
  decide

/-- The stream of 5 is the byte `43`, and IN holds it at the address 15, the last of IN. -/
theorem witness_StreamsRoundTrip :
    ∃ rs t, runInstrs (encStream [5]) (chip 16 none) = some (rs, t) ∧ ([5] : List Word) ≠ [] ∧ ([5] : List Word).length < 2 ^ 32 ∧
      (chip 16 none).fault = false ∧ (chip 16 none).cfg.outCap = none ∧
      let u := { chip 16 none with inMem := [(15, 0x43)] }
      u.fault = false ∧ (15 : Word).toNat + t.enc.outLen ≤ u.cfg.inSize ∧ (15 : Word).toNat + t.enc.outLen < 2 ^ 32 ∧
        ∀ j, j < t.enc.outLen → u.inByte ((15 : Word).toNat + j) = t.readOut j := by
  refine ⟨_, _, rfl, by decide, by decide, rfl, rfl, rfl, by decide, by decide, fun j hj => ?_⟩
  have h0 : j = 0 := by
    have : j < 1 := hj
    omega
  subst h0; rfl

/-- The stream of 5, 5 is the bytes `43 02`; IN holds the first of them at the address 15, the last of IN. The stream of 5 is one
byte, and nothing of it is left. -/
theorem witness_TruncatedStreamsFail :
    (∃ rs t, runInstrs (encStream [5, 5]) (chip 16 none) = some (rs, t) ∧ ([5, 5] : List Word) ≠ [] ∧ ([5, 5] : List Word).length < 2 ^ 32 ∧
      (chip 16 none).fault = false ∧ (chip 16 none).cfg.outCap = none ∧
      let u := { chip 16 none with inMem := [(15, 0x43)] }
      u.fault = false ∧ t.enc.outLen = (1 : Word).toNat + 1 ∧ t.enc.outLen < 2 ^ 32 ∧ (15 : Word).toNat + (1 : Word).toNat ≤ u.cfg.inSize ∧
        ∀ j, j < (1 : Word).toNat → u.inByte ((15 : Word).toNat + j) = t.readOut j) ∧
    ∃ rs t, runInstrs (encStream [5]) (chip 16 none) = some (rs, t) ∧ t.enc.outLen = (0 : Word).toNat + 1 ∧ t.enc.outLen < 2 ^ 32 ∧
      (15 : Word).toNat + (0 : Word).toNat ≤ (chip 16 none).cfg.inSize ∧
        ∀ j, j < (0 : Word).toNat → (chip 16 none).inByte ((15 : Word).toNat + j) = t.readOut j := by
  refine ⟨⟨_, _, rfl, by decide, by decide, rfl, rfl, rfl, rfl, by decide, by decide, fun j hj => ?_⟩,
    ⟨_, _, rfl, rfl, by decide, by decide, fun j hj => absurd hj (Nat.not_lt_zero j)⟩⟩
  have h0 : j = 0 := by
    have : j < 1 := hj
    omega
  subst h0; rfl

/-- 63 pending values, the most that stand between commands. -/
theorem witness_StatusAnswersAndChangesNothing :
    ({ chip 16 none with enc := { Enc.fresh with buf := List.replicate 63 1 } } : State).enc.buf.length ≤ 63 := by decide

end Sys2Proof.Tests
end

/-! PROOFS. The invariant `Inv`: reset gives it, and every step keeps it (O55, O56). -/

namespace Sys2Proof.Machine

/-! ## Soundness, unit by unit (R18, R33, R34) -/

/-- A step that touches none of the fields `Inv` speaks of keeps a sound state sound. -/
theorem inv_congr {s t : State} (hi : Inv s) (hf : t.fault = s.fault) (hc : t.fcause = s.fcause) (he : t.enc = s.enc)
    (hd : t.dec = s.dec) (hm : t.inMem = s.inMem) (hp : t.cfg = s.cfg) : Inv t where
  fault := by rw [hf, hc]; exact hi.fault
  enc := by rw [hf, hp, he]; exact hi.enc
  dec := by rw [hp, hd]; exact hi.dec
  inWf := by rw [hm]; exact hi.inWf
  outWf := by rw [he]; exact hi.outWf
  inRange := by rw [hp, hm]; exact hi.inRange

/-- A fault with a cause keeps a sound state sound, even where the encoder is left unspecified: R33 is claimed only while
FAULT = 0. -/
theorem inv_faulted {s t : State} (hi : Inv s) {c : FCause} (hc : c ≠ .none) (hf : t.fault = true) (hfc : t.fcause = c)
    (ho : t.enc.out.wf = true) (hd : t.dec = s.dec) (hm : t.inMem = s.inMem) (hp : t.cfg = s.cfg) : Inv t where
  fault := by simp [hf, hfc, hc]
  enc h := by rw [hf] at h; cases h
  dec := by rw [hp, hd]; exact hi.dec
  inWf := by rw [hm]; exact hi.inWf
  outWf := ho
  inRange := by rw [hp, hm]; exact hi.inRange

theorem inv_halted {s : State} (hi : Inv s) : Inv (halted s) := inv_congr hi rfl rfl rfl rfl rfl rfl

theorem inv_respondOk {s : State} (hi : Inv s) (d : Word) : Inv (respondOk d s) := inv_congr hi rfl rfl rfl rfl rfl rfl

theorem inv_failedAgain {s : State} (hi : Inv s) : Inv (failedAgain s) := inv_congr hi rfl rfl rfl rfl rfl rfl

theorem inv_raiseFault {s : State} (hi : Inv s) {c : FCause} (hc : c ≠ .none) : Inv (raiseFault c s) :=
  inv_faulted hi hc rfl rfl hi.outWf rfl rfl rfl

theorem midCause.ne_none {c : FCause} (hc : midCause c) : c ≠ .none := by
  rcases hc with rfl | rfl <;> decide

theorem inv_raiseMidFault {s : State} (hi : Inv s) {c : FCause} (hc : midCause c) : Inv (raiseMidFault c s) :=
  inv_faulted hi hc.ne_none rfl rfl rfl rfl rfl rfl

/-- A sound encoder unit in the place of the old one. -/
theorem inv_withEnc {s : State} (hi : Inv s) {e : Enc} (he : EncInv s.cfg.outCap e) : Inv { s with enc := e } :=
  { hi with enc := fun _ => he, outWf := he.outWf }

/-- A sound decoder unit in the place of the old one, whatever is answered. -/
theorem inv_withDec {s t : State} (hi : Inv s) (hd : DecInv s.cfg t.dec) (hf : t.fault = s.fault) (hc : t.fcause = s.fcause)
    (he : t.enc = s.enc) (hm : t.inMem = s.inMem) (hp : t.cfg = s.cfg) : Inv t :=
  { inv_congr (t := { t with dec := s.dec }) hi hf hc he rfl hm hp with dec := by rw [hp]; exact hd }

theorem decInv_reset (p : Config.Params) : DecInv p .reset := by
  constructor <;> simp [Dec.reset]

/-- Every reset leads to a sound state, whatever the encoder and the decoder were (R115). -/
theorem inv_hardwareReset {s : State} (hi : Inv s) : Inv (hardwareReset s) where
  fault := by simp
  enc _ := encInv_fresh _
  dec := decInv_reset _
  inWf := hi.inWf
  outWf := rfl
  inRange := hi.inRange

/-- A host write of an existing byte of IN keeps IN canonical and inside IN_SIZE (R35). -/
theorem inv_writeIn {s : State} (hi : Inv s) {a : Nat} (b : Byte) (ha : a < s.cfg.inSize) :
    Inv { s with inMem := s.inMem.write a b } :=
  { hi with
    inWf := Memory.wf_write _ _ _ hi.inWf
    inRange := fun a' ha' => by
      dsimp only at ha' ⊢
      rw [Memory.read_write_other _ _ (by omega)]
      exact hi.inRange a' ha' }

/-- The header leaves a sound READY decoder (R34, R86). -/
theorem decInv_startStream {s : State} {b l : Word} (hl : l.toNat ≠ 0) (hb : b.toNat + l.toNat ≤ s.cfg.inSize) {w pos : Nat}
    (h : readHeader (openSpan b l s) = .ok (w, pos)) : DecInv s.cfg (startStream w pos (openSpan b l s)).dec := by
  obtain ⟨hw, hlo, hhi⟩ := readHeader_range (s := openSpan b l s) hb rfl h
  constructor <;> simp [hw, hb]
  · exact ⟨hlo, hhi⟩
  · omega

/-- A sample read leaves a sound READY decoder (R34, R92). -/
theorem decInv_commitSample {s : State} (hi : DecInv s.cfg s.dec) (hd : s.dec.dstate = .ready) {v n pos : Nat} {z : Int}
    (h : readSample s = .ok (v, (n, z), pos)) : DecInv s.cfg (commitSample v n z pos s).dec := by
  obtain ⟨hn, hz, hzw, hpos⟩ := readSample_range (hi.span hd).2 hi hd h
  exact {
    dcause := hi.dcause
    noUnderflow := hi.noUnderflow
    pwLe := hi.cwLe
    cwLe := fun _ => hn
    zcRange := fun _ => hz
    zcWidth := fun _ => hzw
    posRange := fun _ => hpos
    span := hi.span
    phase := rfl }

/-! ## Commands and steps (R98, R126) -/

theorem inv_encInit {s t : State} (hi : Inv s) (h : exec .encInit s = .next t) : Inv t := by
  rcases execEncInit_cases h with ⟨-, rfl⟩ | ⟨-, rfl⟩
  · exact inv_halted hi
  · exact inv_respondOk (inv_withEnc hi (encInv_fresh _)) _

theorem inv_encWrite {s t : State} {v : Word} (hi : Inv s) (h : exec (.encWrite v) s = .next t) : Inv t := by
  rcases execEncWrite_cases h with ⟨-, rfl⟩ | ⟨-, -, rfl⟩ | ⟨-, -, c, hc, rfl⟩ | ⟨hf, hfl, e, he, rfl⟩
  · exact inv_halted hi
  · exact inv_raiseFault hi (by decide)
  · exact inv_raiseMidFault hi (writeValue_midCause hc)
  · exact inv_respondOk (inv_withEnc hi (encInv_writeValue (hi.enc hf) hfl he)) _

theorem inv_encFlush {s t : State} (hi : Inv s) (h : exec .encFlush s = .next t) : Inv t := by
  rcases execEncFlush_cases h with ⟨-, rfl⟩ | ⟨-, -, rfl⟩ | ⟨-, -, -, rfl⟩ | ⟨-, -, -, c, hc, rfl⟩ | ⟨hf, hfl, hb, e, he, rfl⟩
  · exact inv_halted hi
  · exact inv_raiseFault hi (by decide)
  · exact inv_raiseFault hi (by decide)
  · exact inv_raiseMidFault hi (flushStream_midCause hc)
  · exact inv_respondOk (inv_withEnc hi (encInv_flushStream (hi.enc hf) hfl hb he)) _

theorem inv_encCode {s t : State} (hi : Inv s) (h : exec .encCode s = .next t) : Inv t := by
  rcases execEncCode_cases h with ⟨-, rfl⟩ | ⟨-, -, rfl⟩ | ⟨-, -, rfl⟩
  · exact inv_halted hi
  · exact inv_respondOk hi _
  · exact inv_raiseFault hi (by decide)

theorem inv_decInit {s t : State} {b l : Word} (hi : Inv s) (h : exec (.decInit b l) s = .next t) : Inv t := by
  rcases execDecInit_cases h with ⟨-, rfl⟩ | ⟨-, -, rfl⟩ | ⟨-, -, -, rfl⟩ | ⟨-, hl, hb, ⟨c, hc, rfl⟩ | ⟨w, pos, hr, rfl⟩⟩
  · exact inv_halted hi
  · exact inv_raiseFault hi (by decide)
  · exact inv_raiseFault hi (by decide)
  · exact inv_withDec hi (decInv_failDecoder (s := openSpan b l s) hc) rfl rfl rfl rfl rfl
  · exact inv_withDec hi (decInv_startStream hl hb hr) rfl rfl rfl rfl rfl

theorem inv_decRead {s t : State} (hi : Inv s) (h : exec .decRead s = .next t) : Inv t := by
  rcases execDecRead_cases h with ⟨-, rfl⟩ | ⟨-, -, rfl⟩ | ⟨-, -, rfl⟩ | ⟨-, hd, ⟨c, hc, rfl⟩ | ⟨v, n, z, pos, hr, rfl⟩⟩
  · exact inv_halted hi
  · exact inv_raiseFault hi (by decide)
  · exact inv_failedAgain hi
  · exact inv_withDec hi (decInv_failDecoder hc) rfl rfl rfl rfl rfl
  · exact inv_withDec hi (decInv_commitSample hi.dec hd hr) rfl rfl rfl rfl rfl

theorem inv_decNextCode {s t : State} (hi : Inv s) (h : exec .decNextCode s = .next t) : Inv t := by
  rcases execDecNextCode_cases h with ⟨-, rfl⟩ | ⟨-, -, rfl⟩ | ⟨-, -, rfl⟩ | ⟨-, -, rfl | rfl⟩
  · exact inv_halted hi
  · exact inv_raiseFault hi (by decide)
  · exact inv_failedAgain hi
  · exact inv_respondOk hi _
  · exact inv_congr hi rfl rfl rfl rfl rfl rfl

theorem inv_status {s t : State} (hi : Inv s) (h : exec .status s = .next t) : Inv t := by
  cases h; exact inv_respondOk hi _

theorem inv_illegalCommand {s t : State} (hi : Inv s) (h : illegalCommand s = .next t) : Inv t := by
  rcases illegalCommand_cases h with ⟨-, rfl⟩ | ⟨-, rfl⟩
  · exact inv_halted hi
  · exact inv_raiseFault hi (by decide)

/-- Every command keeps a sound state sound. A wire symbol does not: it may stop in the middle of a command, with the decoder's
phase not idle (notes/assumptions/8.md). -/
theorem inv_command {s t : State} {cmd d0 d1 : Word} {i : Instr} (hi : Inv s) (hd : decodeCommand cmd d0 d1 = .ok i)
    (h : exec i s = .next t) : Inv t := by
  rcases decodeCommand_ok hd with rfl | rfl | rfl | rfl | rfl | rfl | rfl | rfl
  · exact inv_encInit hi h
  · exact inv_encWrite hi h
  · exact inv_encFlush hi h
  · exact inv_encCode hi h
  · exact inv_decInit hi h
  · exact inv_decRead hi h
  · exact inv_decNextCode hi h
  · exact inv_status hi h

end Sys2Proof.Machine

namespace Sys2Proof
open Machine

/-- Settles O55: base case of the invariant. -/
theorem resetStateIsSound : Obligations.ResetStateIsSound := by
  intro p
  exact {
    fault := by simp [State.resetWith]
    enc := fun _ => encInv_fresh _
    dec := decInv_reset p
    inWf := rfl
    outWf := rfl
    inRange := fun _ _ => rfl }

/-- Settles O56, by what a step can do: the host's accesses and the reset keep `Inv` directly, and a command by its own
inversion lemma. -/
theorem stepsKeepStatesSound : Obligations.StepsKeepStatesSound := by
  intro s t hi h
  have taken (rest : List HostEvent) : Inv { s with host := rest } := inv_congr hi rfl rfl rfl rfl rfl rfl
  rcases step_cases h with ⟨-, rfl⟩ | ⟨rest, -, rfl⟩ | ⟨a, b, rest, -, ha, rfl⟩ | ⟨a, rest, -, -, ht⟩ |
      ⟨cmd, d0, d1, rest, -, ⟨r, -, h⟩ | ⟨i, hd, h⟩⟩
  · exact hi
  · exact inv_hardwareReset (taken rest)
  · exact inv_writeIn (taken rest) b ha
  · rw [ht]; exact inv_congr hi rfl rfl rfl rfl rfl rfl
  · exact inv_illegalCommand (taken rest) h
  · exact inv_command (taken rest) hd h

end Sys2Proof

/-! PROOFS. The STATUS word's layout (O2). -/

namespace Sys2Proof.Machine

/-! ## The fields of the STATUS word (R32) -/

theorem bitOf_getLsbD (b : Bool) (j : Nat) : (bitOf b).getLsbD j = (decide (j = 0) && b) := by
  cases b <;> simp [bitOf]

/-- Bit i of a word that holds the field x from bit k on. -/
theorem getLsbD_placed {n : Nat} (x : BitVec n) (k i : Nat) (hi : i < 32) :
    (x.setWidth 32 <<< k).getLsbD i = (decide (k ≤ i) && x.getLsbD (i - k)) := by
  by_cases hk : k ≤ i
  · simp [hi, hk]
  · simp [hk, show i < k by omega]

/-- Bit i of a word that holds the flag b in bit k. -/
theorem getLsbD_placed_flag (b : Bool) (k i : Nat) (hi : i < 32) :
    ((bitOf b).setWidth 32 <<< k).getLsbD i = (decide (i = k) && b) := by
  rw [getLsbD_placed _ _ _ hi, bitOf_getLsbD, ← Bool.and_assoc]
  congr 1
  rw [Bool.eq_iff_iff]; simp; omega

/-- Every bit of the STATUS word, from the fields that could hold it. -/
theorem statusWord_getLsbD (s : State) (i : Nat) (hi : i < 32) :
    (statusWord s).getLsbD i =
      ((decide (i = 0) && s.fault) || (decide (4 ≤ i) && s.fcause.code.getLsbD (i - 4)) ||
        (decide (i = 8) && s.enc.started) || (decide (i = 9) && s.enc.flushed) ||
        (decide (10 ≤ i) && s.dec.dstate.code.getLsbD (i - 10)) || (decide (12 ≤ i) && s.dec.dcause.code.getLsbD (i - 12)) ||
        (decide (16 ≤ i) && (BitVec.ofNat 7 s.enc.buf.length).getLsbD (i - 16))) := by
  have fault : ((bitOf s.fault).setWidth 32).getLsbD i = (decide (i = 0) && s.fault) := by simp [bitOf_getLsbD, hi]
  simp only [statusWord, BitVec.getLsbD_or, fault, getLsbD_placed_flag _ _ _ hi, getLsbD_placed _ _ _ hi]

/-- A field of a word is known from its bits. -/
theorem extractLsb'_eq_of_getLsbD {m n k : Nat} {x : BitVec m} {y : BitVec n}
    (h : ∀ i, i < n → x.getLsbD (k + i) = y.getLsbD i) : x.extractLsb' k n = y := by
  ext i hi
  rw [BitVec.getElem_extractLsb', h i hi, BitVec.getLsbD_eq_getElem]

end Sys2Proof.Machine

namespace Sys2Proof
open Machine

/-- Settles O2, bit by bit: at each bit of a field every other field of the word is absent or has run out. -/
theorem statusWordHasItsLayout : Obligations.StatusWordHasItsLayout := by
  intro s
  refine ⟨?_, extractLsb'_eq_of_getLsbD fun i hi => ?_, extractLsb'_eq_of_getLsbD fun i hi => ?_, ?_, ?_,
    extractLsb'_eq_of_getLsbD fun i hi => ?_, extractLsb'_eq_of_getLsbD fun i hi => ?_,
    extractLsb'_eq_of_getLsbD fun i hi => ?_, extractLsb'_eq_of_getLsbD fun i hi => ?_⟩
  case refine_1 | refine_4 | refine_5 => rw [statusWord_getLsbD _ _ (by omega)]; simp
  all_goals
    rw [statusWord_getLsbD _ _ (by omega)]
    interval_cases i <;> simp

end Sys2Proof

/-! PROOFS. What a step and an instruction leave unchanged (O7, O11, O12, O41). -/

namespace Sys2Proof.Machine

/-! ## What an instruction leaves unchanged (R102 to R104) -/

/-- While FAULT = 1 every instruction but STATUS is answered by the halt (R104). -/
theorem exec_halted {i : Instr} {s : State} (hf : s.fault = true) (hi : i ≠ .status) : exec i s = .next (halted s) := by
  cases i with
  | status => exact absurd rfl hi
  | _ => exact whenRunning_halted hf _

/-- An encoder command takes a fault, or leaves everything but the encoder and the response. -/
theorem exec_encoder_cases {i : Instr} {s t : State} (hi : i.isEncoder = true) (h : exec i s = .next t) :
    (∃ c e n, t = raiseFault c { s with enc := e, free := n }) ∨ ∃ e r, t = { s with enc := e, resp := r } := by
  have faults (c : FCause) : ∃ c' e n, raiseFault c s = raiseFault c' { s with enc := e, free := n } := ⟨c, s.enc, s.free, rfl⟩
  have midFaults (c : FCause) : ∃ c' e n, raiseMidFault c s = raiseFault c' { s with enc := e, free := n } := ⟨c, _, _, rfl⟩
  have halts : ∃ e r, halted s = { s with enc := e, resp := r } := ⟨s.enc, _, rfl⟩
  cases i with
  | encInit =>
    rcases execEncInit_cases h with ⟨-, rfl⟩ | ⟨-, rfl⟩
    · exact .inr halts
    · exact .inr ⟨_, _, rfl⟩
  | encWrite v =>
    rcases execEncWrite_cases h with ⟨-, rfl⟩ | ⟨-, -, rfl⟩ | ⟨-, -, c, -, rfl⟩ | ⟨-, -, e, -, rfl⟩
    · exact .inr halts
    · exact .inl (faults _)
    · exact .inl (midFaults _)
    · exact .inr ⟨_, _, rfl⟩
  | encFlush =>
    rcases execEncFlush_cases h with ⟨-, rfl⟩ | ⟨-, -, rfl⟩ | ⟨-, -, -, rfl⟩ | ⟨-, -, -, c, -, rfl⟩ | ⟨-, -, -, e, -, rfl⟩
    · exact .inr halts
    · exact .inl (faults _)
    · exact .inl (faults _)
    · exact .inl (midFaults _)
    · exact .inr ⟨_, _, rfl⟩
  | encCode =>
    rcases execEncCode_cases h with ⟨-, rfl⟩ | ⟨-, -, rfl⟩ | ⟨-, -, rfl⟩
    · exact .inr halts
    · exact .inr ⟨s.enc, _, rfl⟩
    · exact .inl (faults _)
  | _ => cases hi

/-- An instruction of the decoder is one of its commands, or a wire symbol. -/
theorem isDecoder_cases {i : Instr} (hi : i.isDecoder = true) :
    (∃ b l, i = .decInit b l) ∨ i = .decRead ∨ i = .decNextCode ∨ ∃ σ, i.symbol? = some σ := by
  rcases instr_cases i with rfl | ⟨v, rfl⟩ | rfl | rfl | h | h | h | rfl | h
  · cases hi
  · cases hi
  · cases hi
  · cases hi
  · exact .inl h
  · exact .inr (.inl h)
  · exact .inr (.inr (.inl h))
  · cases hi
  · exact .inr (.inr (.inr h))

/-- An instruction of the decoder takes a fault, or leaves everything but the decoder, the response and the counter of free
values. -/
theorem exec_decoder_cases {i : Instr} {s t : State} (hi : i.isDecoder = true) (h : exec i s = .next t) :
    (∃ c, t = raiseFault c s) ∨ ∃ d r n, t = { s with dec := d, resp := r, free := n } := by
  have halts : ∃ d r n, halted s = { s with dec := d, resp := r, free := n } := ⟨s.dec, _, s.free, rfl⟩
  have failsAgain : ∃ d r n, failedAgain s = { s with dec := d, resp := r, free := n } := ⟨s.dec, _, s.free, rfl⟩
  rcases isDecoder_cases hi with ⟨b, l, rfl⟩ | rfl | rfl | ⟨σ, hσ⟩
  · rcases execDecInit_cases h with ⟨-, rfl⟩ | ⟨-, -, rfl⟩ | ⟨-, -, -, rfl⟩ | ⟨-, -, -, ⟨c, -, rfl⟩ | ⟨w, pos, -, rfl⟩⟩
    · exact .inr halts
    · exact .inl ⟨_, rfl⟩
    · exact .inl ⟨_, rfl⟩
    · exact .inr ⟨_, _, _, rfl⟩
    · exact .inr ⟨_, _, s.free, rfl⟩
  · rcases execDecRead_cases h with ⟨-, rfl⟩ | ⟨-, -, rfl⟩ | ⟨-, -, rfl⟩ | ⟨-, -, ⟨c, -, rfl⟩ | ⟨v, n, z, pos, -, rfl⟩⟩
    · exact .inr halts
    · exact .inl ⟨_, rfl⟩
    · exact .inr failsAgain
    · exact .inr ⟨_, _, _, rfl⟩
    · exact .inr ⟨_, _, s.free, rfl⟩
  · rcases execDecNextCode_cases h with ⟨-, rfl⟩ | ⟨-, -, rfl⟩ | ⟨-, -, rfl⟩ | ⟨-, -, rfl | rfl⟩
    · exact .inr halts
    · exact .inl ⟨_, rfl⟩
    · exact .inr failsAgain
    · exact .inr ⟨s.dec, _, s.free, rfl⟩
    · exact .inr ⟨s.dec, _, _, rfl⟩
  · rw [exec_symbol hσ] at h
    rcases takeSymbol_cases h with ⟨-, rfl⟩ | ⟨-, ⟨c, -, rfl⟩ | ⟨-, w, pos, rfl⟩ | ⟨-, n, pos, rfl⟩ | ⟨-, v, n, z, pos, rfl⟩⟩
    · exact .inr halts
    · exact .inr ⟨_, _, _, rfl⟩
    · exact .inr ⟨_, _, s.free, rfl⟩
    · exact .inr ⟨_, s.resp, s.free, rfl⟩
    · exact .inr ⟨_, _, s.free, rfl⟩

/-- An instruction is the encoder's, the decoder's, or STATUS. -/
theorem isEncoder_or_isDecoder (i : Instr) :
    (i.isEncoder = true ∧ i.isDecoder = false ∧ i ≠ .status) ∨ (i.isEncoder = false ∧ i.isDecoder = true ∧ i ≠ .status) ∨
      i = .status := by
  cases i with
  | encInit | encWrite | encFlush | encCode => exact .inl ⟨rfl, rfl, Instr.noConfusion⟩
  | status => exact .inr (.inr rfl)
  | _ => exact .inr (.inl ⟨rfl, rfl, Instr.noConfusion⟩)

/-- A FAILED decoder is changed by no command but DEC_INIT (R93). -/
theorem exec_command_keeps_failed {cmd d0 d1 : Word} {i : Instr} {s t : State} (hd : s.dec.dstate = .failed)
    (hc : decodeCommand cmd d0 d1 = .ok i) (hi : i ≠ .decInit d0 d1) (h : exec i s = .next t) : t.dec = s.dec := by
  have encoder (hi : i.isEncoder = true) : t.dec = s.dec := by
    rcases exec_encoder_cases hi h with ⟨c, e, n, rfl⟩ | ⟨e, r, rfl⟩ <;> rfl
  rcases decodeCommand_ok hc with rfl | rfl | rfl | rfl | rfl | rfl | rfl | rfl
  · exact encoder rfl
  · exact encoder rfl
  · exact encoder rfl
  · exact encoder rfl
  · exact absurd rfl hi
  · rcases execDecRead_cases h with ⟨-, rfl⟩ | ⟨-, -, rfl⟩ | ⟨-, -, rfl⟩ | ⟨-, hr, -⟩
    · rfl
    · rfl
    · rfl
    · rw [hd] at hr; cases hr
  · rcases execDecNextCode_cases h with ⟨-, rfl⟩ | ⟨-, -, rfl⟩ | ⟨-, -, rfl⟩ | ⟨-, hr, -⟩
    · rfl
    · rfl
    · rfl
    · rw [hd] at hr; cases hr
  · cases h; rfl

end Sys2Proof.Machine

namespace Sys2Proof
open Machine

/-- Settles O7, by the one command of the host's sequence and what its words decode to. -/
theorem stepRunsTheDecodedCommand : Obligations.StepRunsTheDecodedCommand := by
  intro s cmd d0 d1 rest i hh hd
  simp only [step, hh, runCommand, hd]

/-- Settles O11, by what a step can do: while FAULT = 1 a command is answered by the halt or is STATUS, and an access of the
host touches neither unit. -/
theorem faultStaysUntilReset : Obligations.FaultStaysUntilReset := by
  intro s t h hf hr
  rcases step_cases h with ⟨-, rfl⟩ | ⟨rest, hh, -⟩ | ⟨a, b, rest, -, -, rfl⟩ | ⟨a, rest, -, -, ht⟩ |
      ⟨cmd, d0, d1, rest, -, ⟨r, -, h⟩ | ⟨i, -, h⟩⟩
  · exact ⟨hf, rfl, rfl, rfl⟩
  · exact absurd hh (hr rest)
  · exact ⟨hf, rfl, rfl, rfl⟩
  · rw [ht]; exact ⟨hf, rfl, rfl, rfl⟩
  · rcases illegalCommand_cases h with ⟨-, rfl⟩ | ⟨hf', -⟩
    · exact ⟨hf, rfl, rfl, rfl⟩
    · exact absurd (hf.symm.trans hf') (by decide)
  · by_cases hi : i = .status
    · subst hi; cases h; exact ⟨hf, rfl, rfl, rfl⟩
    · rw [exec_halted (s := { s with host := rest }) hf hi] at h; cases h; exact ⟨hf, rfl, rfl, rfl⟩

/-- Settles O12, from the two shapes an instruction's answer can have: a fault taken, which its response says, or an update of
the instruction's own unit. -/
theorem instructionsKeepTheOtherUnit : Obligations.InstructionsKeepTheOtherUnit := by
  intro i s t h
  rcases isEncoder_or_isDecoder i with ⟨he, hd, hs⟩ | ⟨he, hd, hs⟩ | rfl
  · rcases exec_encoder_cases he h with ⟨c, e, n, rfl⟩ | ⟨e, r, rfl⟩ <;> simp [hd, hs]
  · rcases exec_decoder_cases hd h with ⟨c, rfl⟩ | ⟨d, r, n, rfl⟩ <;> simp [he, hs]
  · cases h; simp

/-- Settles O41, by what a step can do: only a reset and DEC_INIT write a FAILED decoder. -/
theorem onlyInitAndResetLeaveFailed : Obligations.OnlyInitAndResetLeaveFailed := by
  intro s t h hd
  rcases step_cases h with ⟨-, rfl⟩ | ⟨rest, hh, -⟩ | ⟨a, b, rest, -, -, rfl⟩ | ⟨a, rest, -, -, ht⟩ |
      ⟨cmd, d0, d1, rest, hh, ⟨r, -, h⟩ | ⟨i, hc, h⟩⟩
  · exact .inl rfl
  · exact .inr (.inl ⟨rest, hh⟩)
  · exact .inl rfl
  · rw [ht]; exact .inl rfl
  · rcases illegalCommand_cases h with ⟨-, rfl⟩ | ⟨-, rfl⟩ <;> exact .inl rfl
  · by_cases hi : i = .decInit d0 d1
    · subst hi; exact .inr (.inr ⟨cmd, d0, d1, rest, hh, hc⟩)
    · exact .inl (exec_command_keeps_failed (s := { s with host := rest }) hd hc hi h)

end Sys2Proof

/-! PROOFS. The encoder and the decoder do not read each other (O13, O14). -/

namespace Sys2Proof.Machine

/-! ## Neither unit reads the other (R15, R112) -/

theorem withDec_next (d : Dec) (s : State) : withDec d (.next s) = .next { s with dec := d } := rfl

/-- The halt does not read the encoder. -/
theorem withEnc_whenRunning (e : Enc) (s : State) (body : Host.Outcome State Fault Refusal) :
    withEnc e (whenRunning s body) = whenRunning { s with enc := e } (withEnc e body) := by
  unfold whenRunning
  rw [apply_ite (withEnc e)]
  rfl

/-- The halt does not read the decoder. -/
theorem withDec_whenRunning (d : Dec) (s : State) (body : Host.Outcome State Fault Refusal) :
    withDec d (whenRunning s body) = whenRunning { s with dec := d } (withDec d body) := by
  unfold whenRunning
  rw [apply_ite (withDec d)]
  rfl

theorem withEnc_whenReady (e : Enc) (s : State) (body : Host.Outcome State Fault Refusal) :
    withEnc e (whenReady s body) = whenReady { s with enc := e } (withEnc e body) := by
  unfold whenReady
  cases s.dec.dstate <;> rfl

theorem withEnc_stopDecoder (e : Enc) (r : DecStop) (s : State) :
    withEnc e (stopDecoder r s) = stopDecoder r { s with enc := e } := by
  cases r <;> rfl

/-- The encoder is no part of what the decoder's steps read. -/
theorem sameSource_withEnc (s : State) (e : Enc) : SameSource s { s with enc := e } := ⟨rfl, rfl, fun _ _ _ => rfl⟩

theorem execDecInit_withEnc (b l : Word) (s : State) (e : Enc) :
    execDecInit b l { s with enc := e } = withEnc e (execDecInit b l s) := by
  have hr : readHeader (openSpan b l { s with enc := e }) = readHeader (openSpan b l s) :=
    readHeader_congr (sameSource_withEnc (openSpan b l s) e)
  unfold execDecInit
  rw [withEnc_whenRunning, hr, apply_ite (withEnc e), apply_ite (withEnc e)]
  cases readHeader (openSpan b l s) with
  | error r => rw [withEnc_stopDecoder]; rfl
  | ok q => rfl

theorem execDecRead_withEnc (s : State) (e : Enc) : execDecRead { s with enc := e } = withEnc e (execDecRead s) := by
  unfold execDecRead
  rw [withEnc_whenRunning, withEnc_whenReady, readSample_congr (sameSource_withEnc s e)]
  cases readSample s with
  | error r => rw [withEnc_stopDecoder]
  | ok q => rfl

theorem execDecNextCode_withEnc (s : State) (e : Enc) :
    execDecNextCode { s with enc := e } = withEnc e (execDecNextCode s) := by
  unfold execDecNextCode
  rw [withEnc_whenRunning, withEnc_whenReady, apply_ite (withEnc e)]
  rfl

/-- Taking the bits of a symbol reads the cursor and LEN only. -/
theorem takeBits_withEnc (c : Nat) (s : State) (e : Enc) (body body' : Nat → Host.Outcome State Fault Refusal)
    (h : ∀ pos, body' pos = withEnc e (body pos)) :
    takeBits c { s with enc := e } body' = withEnc e (takeBits c s body) := by
  unfold takeBits
  rw [apply_ite (withEnc e), h]
  rfl

theorem takeHeader_withEnc (c w : Nat) (s : State) (e : Enc) :
    takeHeader c w { s with enc := e } = withEnc e (takeHeader c w s) := by
  unfold takeHeader
  rw [apply_ite (withEnc e), ← takeBits_withEnc c s e _ _ fun _ => rfl]
  rfl

theorem takeTrans_withEnc (c n : Nat) (s : State) (e : Enc) :
    takeTrans c n { s with enc := e } = withEnc e (takeTrans c n s) := by
  unfold takeTrans
  rw [apply_ite (withEnc e), ← takeBits_withEnc c s e _ _ fun _ => (apply_ite (withEnc e) _ _ _).symm]
  rfl

theorem takeRun_withEnc (k x : Nat) (s : State) (e : Enc) :
    takeRun k x { s with enc := e } = withEnc e (takeRun k x s) := by
  unfold takeRun
  rw [apply_ite (withEnc e), ← takeBits_withEnc _ s e _ _ fun _ => rfl]
  rfl

theorem takeValue_withEnc (c m v : Nat) (s : State) (e : Enc) :
    takeValue c m v { s with enc := e } = withEnc e (takeValue c m v s) := by
  unfold takeValue
  cases s.dec.phase with
  | idle => rfl
  | header => rfl
  | value n z =>
    dsimp only
    rw [apply_ite (withEnc e), ← takeBits_withEnc _ s e _ _ fun _ => rfl]
    rfl

theorem takeSymbol_withEnc (σ : Symbol) (s : State) (e : Enc) :
    takeSymbol σ { s with enc := e } = withEnc e (takeSymbol σ s) := by
  have effect : symbolEffect σ { s with enc := e } = withEnc e (symbolEffect σ s) := by
    cases σ with
    | hdr5 h =>
      simp only [symbolEffect]
      rw [apply_ite (withEnc e), takeHeader_withEnc]
      rfl
    | hdr31 => exact takeHeader_withEnc _ _ _ _
    | hdr32 => exact takeHeader_withEnc _ _ _ _
    | trSame => exact takeTrans_withEnc _ _ _ _
    | trUp => exact takeTrans_withEnc _ _ _ _
    | trDown => exact takeTrans_withEnc _ _ _ _
    | zr k x => exact takeRun_withEnc _ _ _ _
    | valFull c v => exact takeValue_withEnc _ _ _ _ _
    | valElided c v => exact takeValue_withEnc _ _ _ _ _
  rw [takeSymbol, takeSymbol, withEnc_whenRunning, effect]

/-- Ending an encoder command does not read the decoder. -/
theorem withDec_encResult (d : Dec) (r : Except FCause Enc) (f : Enc → Word) (s : State) :
    { encResult r f s with dec := d } = encResult r f { s with dec := d } := by
  cases r <;> rfl

theorem execEncWrite_withDec (v : Word) (s : State) (d : Dec) :
    execEncWrite v { s with dec := d } = withDec d (execEncWrite v s) := by
  unfold execEncWrite
  rw [withDec_whenRunning, apply_ite (withDec d), withDec_next, withDec_next, withDec_encResult]
  rfl

theorem execEncFlush_withDec (s : State) (d : Dec) : execEncFlush { s with dec := d } = withDec d (execEncFlush s) := by
  unfold execEncFlush
  rw [withDec_whenRunning, apply_ite (withDec d), apply_ite (withDec d), withDec_next, withDec_next, withDec_next,
    withDec_encResult]
  rfl

theorem execEncCode_withDec (s : State) (d : Dec) : execEncCode { s with dec := d } = withDec d (execEncCode s) := by
  unfold execEncCode
  rw [withDec_whenRunning, apply_ite (withDec d)]
  rfl

theorem execEncInit_withDec (s : State) (d : Dec) : execEncInit { s with dec := d } = withDec d (execEncInit s) := by
  unfold execEncInit
  rw [withDec_whenRunning]
  rfl

end Sys2Proof.Machine

namespace Sys2Proof
open Machine

/-- Settles O13, by the decoder's commands and the shared meaning of the wire symbols: none reads the encoder. -/
theorem decoderIgnoresTheEncoder : Obligations.DecoderIgnoresTheEncoder := by
  intro i s e hi
  rcases isDecoder_cases hi with ⟨b, l, rfl⟩ | rfl | rfl | ⟨σ, hσ⟩
  · exact execDecInit_withEnc b l s e
  · exact execDecRead_withEnc s e
  · exact execDecNextCode_withEnc s e
  · rw [exec_symbol hσ, exec_symbol hσ]; exact takeSymbol_withEnc σ s e

/-- Settles O14, by the four encoder commands: none reads the decoder. -/
theorem encoderIgnoresTheDecoder : Obligations.EncoderIgnoresTheDecoder := by
  intro i s d hi
  cases i with
  | encInit => exact execEncInit_withDec s d
  | encWrite v => exact execEncWrite_withDec v s d
  | encFlush => exact execEncFlush_withDec s d
  | encCode => exact execEncCode_withDec s d
  | _ => cases hi

end Sys2Proof

/-! PROOFS. What ENC_WRITE and ENC_FLUSH store, and how far DEC_READ reads (O17, O21, O43). -/

namespace Sys2Proof.Machine

/-! ## What the encoder buffers and stores (R19, R24, R36, R40, R41) -/

/-- A value that does not fill BUF is only appended (R74). -/
theorem writeValue_buffers (cap : Option Nat) (v : Word) (e : Enc) (hb : e.buf.length ≠ 63) :
    writeValue cap v e = .ok { e with buf := e.buf ++ [v] } := by
  unfold writeValue
  rw [if_neg (by simp [Config.bufLimit]; omega)]

/-- OUT of `e'` is OUT of `e` with the stream bytes stored that were not complete in `e` (R24, R36). -/
def StoresStreamBytes (e e' : Enc) : Prop :=
  ∀ a, e'.out.read a =
    if e.ebits.length / 8 ≤ a ∧ a < e'.outBytes then some (streamByte e'.ebits a) else e.out.read a

theorem outBytes_unflushed {e : Enc} (h : e.flushed = false) : e.outBytes = e.ebits.length / 8 := by simp [Enc.outBytes, h]

theorem outBytes_flushed {e : Enc} (h : e.flushed = true) : e.outBytes = ceil8 e.ebits.length := by simp [Enc.outBytes, h]

theorem writeValue_stores {cap : Option Nat} {v : Word} {e e' : Enc} (hm : e.mrw ≤ 32) (hfl : e.flushed = false)
    (h : writeValue cap v e = .ok e') : StoresStreamBytes e e' := by
  intro a
  rcases writeValue_ok hm h with ⟨-, rfl⟩ | ⟨-, hbits, hout, -, -, hfl', -⟩
  · rw [outBytes_unflushed (by exact hfl), if_neg (by dsimp only; omega)]
  · rw [outBytes_unflushed (hfl'.trans hfl), hout, put_out_read, ← hbits, hbits, List.length_append]

theorem flushStream_stores {cap : Option Nat} {e e' : Enc} (hm : e.mrw ≤ 32) (hb : e.buf ≠ []) (h : flushStream cap e = .ok e') :
    StoresStreamBytes e e' := by
  intro a
  obtain ⟨-, hout, -, -, -, hfl, -⟩ := flushStream_ok hm hb h
  rw [outBytes_flushed hfl, hout]

/-! ## How far a decoder step moves the cursor (R34, R87, R127) -/

/-- The cursor moves from `pos` to `p`, by at most `m` bits, and does not leave the span of `s`. -/
structure Moves (s : State) (m pos p : Nat) : Prop where
  forward : pos ≤ p
  atMost : p ≤ pos + m
  inside : pos ≤ 8 * s.dec.len.toNat → p ≤ 8 * s.dec.len.toNat

theorem Moves.stay (s : State) (m pos : Nat) : Moves s m pos pos := ⟨le_rfl, by omega, id⟩

theorem Moves.trans {s : State} {m n pos p q : Nat} (h : Moves s m pos p) (h' : Moves s n p q) : Moves s (m + n) pos q :=
  ⟨h.forward.trans h'.forward, by have := h.atMost; have := h'.atMost; omega, h'.inside ∘ h.inside⟩

theorem Moves.mono {s : State} {m n pos p : Nat} (h : Moves s m pos p) (hmn : m ≤ n) : Moves s n pos p :=
  ⟨h.forward, h.atMost.trans (by omega), h.inside⟩

theorem srcRead_moves {s : State} {pos c : Nat} {q : Nat × Nat} (h : srcRead s pos c = .ok q) : Moves s c pos q.2 := by
  unfold srcRead at h
  split_ifs at h with h0 h1 h2
  · cases h; exact Moves.stay _ _ _
  · cases h; exact ⟨by omega, le_rfl, fun _ => by omega⟩

/-- A transition code has at most two bits (R88). -/
theorem transStep_moves {s : State} {c pos : Nat} {q : Nat × Nat} (h : transStep s c pos = .ok q) : Moves s 2 pos q.2 := by
  unfold transStep at h
  obtain ⟨q1, h1, h⟩ := bind_ok h
  dsimp only at h
  have m1 := srcRead_moves h1
  by_cases hb : q1.1 = 0
  · rw [if_pos hb] at h; cases h; exact m1.mono (by omega)
  · rw [if_neg hb] at h
    obtain ⟨q2, h2, h⟩ := bind_ok h
    have m2 := m1.trans (srcRead_moves h2)
    by_cases hb2 : q2.1 = 1
    · rw [if_pos hb2] at h
      split_ifs at h
      cases h; exact m2
    · rw [if_neg hb2] at h; cases h; exact m2

/-- A zero-run code starts with at most 31 zeros and a one (R90). -/
theorem runPrefix_moves {s : State} {fuel k pos : Nat} {q : Nat × Nat} (hf : fuel + k = 32)
    (h : runPrefix s fuel k pos = .ok q) : q.1 ≤ 31 ∧ Moves s fuel pos q.2 := by
  induction fuel generalizing k pos with
  | zero => cases h
  | succ fuel ih =>
    rw [runPrefix] at h
    obtain ⟨q1, h1, h⟩ := bind_ok h
    dsimp only at h
    have m1 := srcRead_moves h1
    split_ifs at h
    · obtain ⟨hk, m2⟩ := ih (by omega) h
      exact ⟨hk, (m1.trans m2).mono (by omega)⟩
    · cases h; exact ⟨by dsimp only; omega, m1.mono (by omega)⟩

/-- A zero-run code has at most 63 bits (R90). -/
theorem runStep_moves {s : State} {pos : Nat} {q : (Nat × Int) × Nat} (h : runStep s pos = .ok q) : Moves s 63 pos q.2 := by
  obtain ⟨q1, h1, h⟩ := bind_ok h
  obtain ⟨q2, h2, h⟩ := bind_ok h
  cases h
  obtain ⟨hk, m1⟩ := runPrefix_moves (by omega) h1
  exact (m1.trans (srcRead_moves h2)).mono (by omega)

/-- A value field has at most as many bits as the sample's width (R91). -/
theorem valueStep_moves {s : State} {p c n pos : Nat} {q : Nat × Nat} (h : valueStep s p c n pos = .ok q) :
    Moves s c pos q.2 := by
  unfold valueStep at h
  split_ifs at h
  · obtain ⟨q1, h1, h⟩ := bind_ok h
    cases h
    exact (srcRead_moves h1).mono (by omega)
  · exact srcRead_moves h

/-- The width step of a sample: a zero-run code or nothing at width 0, else a transition code (R87). -/
theorem widthStep_moves {s : State} {q : (Nat × Int) × Nat} (h : widthStep s = .ok q) :
    Moves s (if s.dec.cw = 0 then 63 else 2) s.dec.pos q.2 := by
  unfold widthStep at h
  by_cases hc : s.dec.cw = 0
  · rw [if_neg (not_not.2 hc)] at h
    rw [if_pos hc]
    split_ifs at h
    · cases h; exact Moves.stay _ _ _
    · exact runStep_moves h
  · rw [if_pos hc] at h
    rw [if_neg hc]
    obtain ⟨q1, h1, h⟩ := bind_ok h
    cases h; exact transStep_moves h1

/-- One sample reads a zero-run code, or a transition code and a value field of CW bits (R87, R91). -/
theorem readSample_moves {s : State} {v : Nat} {w : Nat × Int} {pos : Nat} (h : readSample s = .ok (v, w, pos)) :
    Moves s (if s.dec.cw = 0 then 63 else 2 + s.dec.cw) s.dec.pos pos := by
  obtain ⟨q1, h1, h⟩ := bind_ok h
  obtain ⟨q2, h2, h⟩ := bind_ok h
  cases h
  exact ((widthStep_moves h1).trans (valueStep_moves h2)).mono (by split_ifs <;> omega)

end Sys2Proof.Machine

namespace Sys2Proof
open Machine

/-- Settles O17, by the branch of ENC_WRITE that does not fill BUF. -/
theorem encWriteBuffersTheValue : Obligations.EncWriteBuffersTheValue := by
  intro s v hf hfl hb
  show whenRunning s _ = _
  rw [whenRunning_running hf, hfl, if_neg Bool.false_ne_true, writeValue_buffers _ _ _ hb]
  rfl

/-- Settles O21, by what the two operations store where they succeed; every other end of the two commands is a fault. -/
theorem encoderStoresTheStreamsBytes : Obligations.EncoderStoresTheStreamsBytes := by
  intro i s t hi hf hm h ht
  have running {P : Prop} (hs : s.fault = true) : P := absurd (hs.symm.trans hf) (by decide)
  suffices StoresStreamBytes s.enc t.enc from this
  rcases hi with ⟨v, rfl⟩ | rfl
  · rcases execEncWrite_cases h with ⟨hs, -⟩ | ⟨-, -, rfl⟩ | ⟨-, -, c, -, rfl⟩ | ⟨-, hfl, e, he, rfl⟩
    · exact running hs
    · cases ht
    · cases ht
    · exact writeValue_stores hm hfl he
  · rcases execEncFlush_cases h with ⟨hs, -⟩ | ⟨-, -, rfl⟩ | ⟨-, -, -, rfl⟩ | ⟨-, -, -, c, -, rfl⟩ | ⟨-, -, hb, e, he, rfl⟩
    · exact running hs
    · cases ht
    · cases ht
    · cases ht
    · exact flushStream_stores hm hb he

/-- Settles O43, by the most bits that a sample's codes can have. -/
theorem decReadWorkIsBounded : Obligations.DecReadWorkIsBounded := by
  rintro s t ⟨hf, hd, -, -⟩ hc h ht
  rcases execDecRead_cases h with ⟨hs, -⟩ | ⟨-, hs, -⟩ | ⟨-, hs, -⟩ | ⟨-, -, ⟨c, -, rfl⟩ | ⟨v, n, z, pos, hr, rfl⟩⟩
  · exact absurd (hs.symm.trans hf) (by decide)
  · exact absurd (hs.symm.trans hd) (by decide)
  · exact absurd (hs.symm.trans hd) (by decide)
  · cases ht
  · obtain ⟨forward, atMost, inside⟩ := (readSample_moves hr).mono
      (n := if s.dec.cw = 0 then 63 else 34) (by split_ifs <;> omega)
    exact ⟨forward, atMost, inside⟩

end Sys2Proof

/-! PROOFS. Round trip: what ENC_STREAM leaves in OUT, and what the decoder reads back from it (O59). -/

namespace Sys2Proof.Machine

/-! ## Sequences of instructions -/

/-- All that a sequence that runs through can do: its first instruction answers a state, and the rest runs from there. -/
theorem runInstrs_cons_cases {i : Instr} {is : List Instr} {s u : State} {rs : List Response}
    (h : runInstrs (i :: is) s = some (rs, u)) :
    ∃ t r rs', exec i s = .next t ∧ t.resp = some r ∧ runInstrs is t = some (rs', u) ∧ rs = r :: rs' := by
  rw [runInstrs] at h
  split at h
  · rename_i t hx
    split at h
    · rename_i r rs' u' hr hrun
      cases h
      exact ⟨t, r, rs', hx, hr, hrun, rfl⟩
    · cases h
  · cases h
  · cases h

/-- Two sequences one after the other answer the responses of both. -/
theorem runInstrs_append {is js : List Instr} {s t u : State} {rs rs' : List Response}
    (h : runInstrs is s = some (rs, t)) (h' : runInstrs js t = some (rs', u)) :
    runInstrs (is ++ js) s = some (rs ++ rs', u) := by
  induction is generalizing s rs with
  | nil => cases h; exact h'
  | cons i is ih =>
    obtain ⟨s', r, rs₁, hx, hr, hrun, rfl⟩ := runInstrs_cons_cases h
    exact runInstrs_cons hx hr (ih hrun)

/-- A sequence of one instruction. -/
theorem runInstrs_one {i : Instr} {s t : State} {r : Response} (hx : exec i s = .next t) (hr : t.resp = some r) :
    runInstrs [i] s = some ([r], t) := runInstrs_cons hx hr rfl

/-! ## ENC_STREAM runs through (R54, R84) -/

/-- `t` holds the finished stream of the values `vs`, with the layout of R55 and the widths SP. -/
structure HoldsStream (vs : List Word) (t : State) : Prop where
  fault : t.fault = false
  inv : EncInv none t.enc
  flushed : t.enc.flushed = true
  ebits : t.enc.ebits = symbolBits (streamSymbols vs)

/-- A stream that has just been started has committed nothing (R73). -/
theorem committed_fresh (vs : List Word) : Committed vs 0 0 .fresh where
  inv := encInv_fresh none
  gk := le_rfl
  kN := Nat.zero_le _
  buf := rfl
  flushed := rfl
  mrw := rfl
  started := rfl
  nz := by simp [sampleSymbols_nil, Enc.fresh]
  ebits := by simp [sampleSymbols_nil, symbolBits, Enc.fresh]
  pend := .inl rfl

/-- An ENC_WRITE whose operation succeeds. -/
theorem exec_encWrite_ok {s : State} {v : Word} {e : Enc} (hf : s.fault = false) (hfl : s.enc.flushed = false)
    (h : writeValue s.cfg.outCap v s.enc = .ok e) : exec (.encWrite v) s = .next (respondOk 0 { s with enc := e }) := by
  show whenRunning s _ = _
  rw [whenRunning_running hf, hfl, if_neg Bool.false_ne_true, h, encResult_ok]

/-- An ENC_FLUSH whose operation succeeds. -/
theorem exec_encFlush_ok {s : State} {e : Enc} (hf : s.fault = false) (hfl : s.enc.flushed = false) (hb : s.enc.buf ≠ [])
    (h : flushStream s.cfg.outCap s.enc = .ok e) :
    exec .encFlush s = .next (respondOk (outLenWord e) { s with enc := e }) := by
  show whenRunning s _ = _
  rw [whenRunning_running hf, hfl, if_neg Bool.false_ne_true, if_neg (mt List.length_eq_zero_iff.1 hb), h, encResult_ok]

/-- From k committed writes on, the rest of ENC_STREAM runs through and leaves the stream. -/
theorem Committed.finish {vs : List Word} (h0 : vs ≠ []) (hN : vs.length < 2 ^ 32) {ws : List Word} {k g : Nat} {s : State}
    (hws : vs.drop k = ws) (hf : s.fault = false) (hcap : s.cfg.outCap = none) (h : Committed vs k g s.enc) :
    ∃ rs t, runInstrs (ws.map .encWrite ++ [.encFlush]) s = some (rs, t) ∧ HoldsStream vs t := by
  induction ws generalizing k g s with
  | nil =>
    obtain rfl : k = vs.length := le_antisymm h.kN (List.drop_eq_nil_iff.1 hws)
    obtain ⟨hb, e, he, hinv, hfl, hbits⟩ := h.flush h0 hN
    exact ⟨_, _, runInstrs_one (exec_encFlush_ok hf h.flushed hb (hcap ▸ he)) rfl, hf, hinv, hfl, hbits⟩
  | cons w ws ih =>
    have hk : k < vs.length := by
      by_contra hc
      rw [List.drop_eq_nil_iff.2 (by omega)] at hws
      cases hws
    obtain ⟨hw, hws'⟩ : vs.getD k 0 = w ∧ vs.drop (k + 1) = ws := by
      rw [List.drop_eq_getElem_cons hk] at hws
      rw [List.getD_eq_getElem _ _ hk]
      exact List.cons.inj hws
    obtain ⟨e, g', he, h'⟩ := h.write hk hN
    rw [hw] at he
    obtain ⟨rs, t, hrun, ht⟩ := ih (s := respondOk 0 { s with enc := e }) hws' hf hcap h'
    exact ⟨_, t, runInstrs_cons (exec_encWrite_ok hf h.flushed (hcap ▸ he)) rfl hrun, ht⟩

/-- ENC_STREAM of any values runs through and leaves their stream (R54, R84). -/
theorem runInstrs_encStream {vs : List Word} {s : State} (h0 : vs ≠ []) (hN : vs.length < 2 ^ 32) (hf : s.fault = false)
    (hcap : s.cfg.outCap = none) : ∃ rs t, runInstrs (encStream vs) s = some (rs, t) ∧ HoldsStream vs t := by
  have hinit : exec .encInit s = .next (respondOk 0 { s with enc := .fresh }) := whenRunning_running hf _
  obtain ⟨rs, t, hrun, ht⟩ := (committed_fresh vs).finish (s := respondOk 0 { s with enc := .fresh }) h0 hN List.drop_zero hf hcap
  exact ⟨_, t, runInstrs_cons hinit rfl hrun, ht⟩

/-- OUT_LEN of a finished stream counts its bytes (R24). -/
theorem HoldsStream.outLen {vs : List Word} {t : State} (h : HoldsStream vs t) : t.enc.outLen = ceil8 t.enc.ebits.length := by
  rw [h.inv.outLen, h.flushed]; rfl

/-- The host reads the bytes of a finished stream (R36). -/
theorem readOut_streamByte {s : State} {cap : Option Nat} (hi : EncInv cap s.enc) (hfl : s.enc.flushed = true) {a : Nat}
    (ha : a < s.enc.outLen) : s.readOut a = streamByte s.enc.ebits a := by
  refine readOut_finished hfl ha ?_
  have hlen : s.enc.outLen = s.enc.outBytes := by rw [hi.outLen, Enc.outBytes, hfl]; rfl
  rw [hi.outRead, if_pos (hlen ▸ ha)]

/-! ## The decoder reads the samples back, one by one (R87, R94, R95) -/

/-- As many DEC_READs as samples are left answer them in order, and leave the bits after them (R95). -/
theorem InStep.reads {p : Nat} {run : Bool} {vs : List Word} {W : List Nat} {pad : List Bool} {s : State} (g : WidthsOk p vs W)
    (hN : vs.length < 2 ^ 32) (h : InStep p run vs W pad s) :
    ∃ t q run' n, runInstrs (List.replicate vs.length .decRead) s = some (vs.map fun v => ⟨.ok, v, 0⟩, t) ∧
      InStep q run' [] [n] pad t ∧ t.dec.base = s.dec.base ∧ t.dec.len = s.dec.len := by
  induction vs generalizing p run W s with
  | nil => cases g; exact ⟨s, p, run, _, rfl, h, rfl, rfl⟩
  | cons v vs ih =>
    match W, g with
    | c :: n :: W, g =>
      obtain ⟨s', hx, hr, h', hb, hl⟩ := h.read g hN
      have g' : WidthsOk c vs (n :: W) := by cases g; assumption
      obtain ⟨t, q, run', m, hrun, ht, hb', hl'⟩ := ih g' (Nat.lt_of_succ_lt hN) h'
      exact ⟨t, q, run', m, runInstrs_cons hx hr hrun, ht, hb'.trans hb, hl'.trans hl⟩

/-- After the last sample the cursor stands before the padding. -/
theorem InStep.pos_end {p : Nat} {run : Bool} {W : List Nat} {pad : List Bool} {s : State} (h : InStep p run [] W pad s) :
    s.dec.pos + pad.length = 8 * s.dec.len.toNat := by
  have hlen : (restBits s).length = pad.length := by rw [h.rest, pendingSymbols_nil]; rfl
  rw [restBits_eq, bitsFrom_length] at hlen
  have := h.pos
  omega

/-- DEC_NEXT_CODE of a READY decoder, where the address fits RDATA (R94). -/
theorem exec_decNextCode_ready {s : State} (h : Ready s) {a : Nat} (ha : s.dec.base.toNat + ceil8 s.dec.pos = a) (hlt : a < 2 ^ 32) :
    exec .decNextCode s = .next (respondOk (BitVec.ofNat 32 a) s) := by
  obtain ⟨hf, hd, -, -⟩ := h
  subst ha
  show whenRunning s (whenReady s _) = _
  rw [whenRunning_running hf, whenReady_ready hd, if_pos hlt]

end Sys2Proof.Machine

namespace Sys2Proof
open Machine

/-- Settles O59: ENC_STREAM leaves the stream of the values, DEC_INIT opens it at its first sample, each DEC_READ stays in step
with the samples, and the cursor ends before the padding of the last byte. -/
theorem streamsRoundTrip : Obligations.StreamsRoundTrip := by
  intro vs s t u rs b h0 hN hsf hcap hrun huf hsz hlt hbyte
  obtain ⟨rs', t', hrun', ht⟩ := runInstrs_encStream h0 hN hsf hcap
  obtain ⟨rfl, rfl⟩ : rs = rs' ∧ t = t' := by simpa [hrun] using hrun'
  have hL : (BitVec.ofNat 32 t.enc.outLen).toNat = t.enc.outLen := toNat_ofNat_of_lt (by omega)
  obtain ⟨hinit, -, hstep⟩ := decInit_inStep vs t u b (BitVec.ofNat 32 t.enc.outLen) h0 huf ht.inv ht.flushed ht.ebits hL hsz
    fun j hj => (hbyte j hj).trans (readOut_streamByte ht.inv ht.flushed hj)
  have hwidths : WidthsOk (streamWidth vs 0) vs (streamWidths vs) := widthsOk_stream vs vs.length 0 _ (Nat.zero_add _) (.inl rfl)
  obtain ⟨u', q, run', n, hreads, hend, hbase, hlen⟩ := hstep.reads hwidths hN
  have hpos : u'.dec.pos = t.enc.ebits.length := by
    have hcursor := hend.pos_end
    have hbytes := ht.outLen
    rw [hlen, List.length_replicate] at hcursor
    simp only [startStream_dec, openSpan_dec, hL] at hcursor
    unfold ceil8 at hbytes
    omega
  have hnext : exec .decNextCode u' = .next (respondOk (BitVec.ofNat 32 (b.toNat + t.enc.outLen)) u') :=
    exec_decNextCode_ready hend.ready (by rw [hbase, hpos, ← ht.outLen]; rfl) hlt
  have hall := runInstrs_cons hinit rfl (runInstrs_append hreads (runInstrs_one hnext rfl))
  exact ⟨_, by simpa [Function.comp_def] using hall⟩

end Sys2Proof

/-! PROOFS. The bit sink, the bit source, and the host's accesses to the memories (O8, O15, O23, O24, O33). -/

namespace Sys2Proof.Machine

/-! ## The host's accesses to IN and OUT (R35, R36) -/

/-- A host write of IN is read back, and leaves every other byte as it was (R35). -/
theorem inByte_writeIn (s : State) (a a' : Nat) (b : Byte) :
    ({ s with inMem := s.inMem.write a b } : State).inByte a' = if a' = a then b else s.inByte a' := by
  unfold State.inByte
  rw [Memory.read_write]
  split_ifs <;> rfl

/-! ## The bit sink (R40, R41) -/

theorem sinkFull_iff (cap : Option Nat) (n : Nat) : sinkFull cap n = true ↔ ∃ m, cap = some m ∧ m < ceil8 n := by
  cases cap <;> simp [sinkFull]

/-! ## The bit source (R39, R42) -/

/-- Bit i of the value of a field is the field's bit i. -/
theorem getElem?_eq_testBit_fieldVal {bits : List Bool} {i : Nat} (hi : i < bits.length) :
    bits[i]? = some ((fieldVal bits).testBit i) := by
  simpa only [fieldBits_fieldVal] using fieldBits_getElem? bits.length (fieldVal bits) i hi

/-! ## DEC_READ over other contents of IN (R35, R42) -/

theorem withIn_stopDecoder (m : Memory) (r : DecStop) (s : State) :
    withIn m (stopDecoder r s) = stopDecoder r { s with inMem := m } := by
  cases r <;> rfl

end Sys2Proof.Machine

namespace Sys2Proof
open Machine

/-- Settles O8, by what the host asks for: nothing, a write of IN or a read of OUT; an access stops where the address map has no
such byte. -/
theorem hostAccessesOneByte : Obligations.HostAccessesOneByte := by
  refine ⟨fun s hh => by simp only [step, hh], fun s a b rest hh => ?_, fun s a rest hh => ?_⟩
  · have hstep : step s = hostWriteIn a b { s with host := rest } := by simp only [step, hh]
    rw [hstep, hostWriteIn]
    by_cases ha : a < s.cfg.inSize
    · rw [if_pos ha, if_pos ha]
      refine ⟨_, rfl, ?_, fun a' ha' => ?_, rfl⟩
      · exact (inByte_writeIn s a a b).trans (if_pos rfl)
      · exact (inByte_writeIn s a a' b).trans (if_neg ha')
    · rw [if_neg ha, if_neg ha]
  · have hstep : step s = hostReadOut a { s with host := rest } := by simp only [step, hh]
    rw [hstep]
    by_cases ha : ∀ cap, s.cfg.outCap = some cap → a < cap
    · rw [if_pos ha]
      obtain ⟨t, ht, heq⟩ := hostReadOut_next (s := { s with host := rest }) ((outHas_iff s.cfg.outCap a).2 ha)
      exact ⟨t, _, ht, heq, fun hi hfl hlen => readOut_streamByte (s := { s with host := rest }) hi hfl hlen⟩
    · rw [if_neg ha]
      exact if_neg (mt (outHas_iff s.cfg.outCap a).1 ha)

/-- Settles O15: DEC_READ takes its sample from the decoder and the span's bytes, and what it writes is not IN. -/
theorem decReadSeesOnlyItsSpan : Obligations.DecReadSeesOnlyItsSpan := by
  intro s m hr hspan
  have hr' : Ready { s with inMem := m } := hr
  have hsame : readSample { s with inMem := m } = readSample s := readSample_congr ⟨rfl, rfl, hspan⟩
  rw [exec_decRead_ready hr, exec_decRead_ready hr', hsame]
  cases readSample s with
  | error r => rw [withIn_stopDecoder]
  | ok q => rfl

/-- Settles O23: SinkWrite is a guarded append of the field's bits, and appending writes OUT at the bytes it completes. -/
theorem sinkWriteAppendsLsbFirst : Obligations.SinkWriteAppendsLsbFirst := by
  intro cap c v e _ _
  rw [sinkWrite_eq, sinkBits, fieldBits_length]
  by_cases hfull : sinkFull cap (e.ebits.length + c) = true
  · rw [if_pos ((sinkFull_iff _ _).1 hfull), if_pos hfull]
  · rw [if_neg (mt (sinkFull_iff _ _).2 hfull), if_neg hfull]
    refine ⟨_, rfl, by rw [put_ebits]; exact put_eq e _, by simp, fun j hj => ?_, fun i hi => ?_, fun j => ?_⟩
    · rw [put_ebits, List.getElem?_append_left hj]
    · rw [put_ebits, List.getElem?_append_right (by omega), Nat.add_sub_cancel_left, fieldBits_getElem? c v i hi]
    · rw [put_out_read, put_ebits, List.length_append]

/-- Settles O24: SinkFlush writes OUT exactly at an incomplete last byte, and past the stream a stream byte's bits are 0. -/
theorem sinkFlushPadsWithZeros : Obligations.SinkFlushPadsWithZeros := by
  refine fun e => ⟨rfl, rfl, fun j hj => ?_, fun h8 => ⟨streamByte e.ebits (e.ebits.length / 8), ?_, fun i hi => ?_⟩⟩
  · rw [sinkFlush_out_read, if_neg (by omega)]
  · have hlast : ceil8 e.ebits.length = e.ebits.length / 8 + 1 := by rw [ceil8_eq, if_neg h8]
    rw [sinkFlush_out_read, hlast, Nat.add_sub_cancel, if_pos (by omega)]
  · rw [streamByte_getLsbD _ _ _ hi]
    split_ifs with hin
    · rfl
    · exact List.getD_eq_default _ _ (by omega)

/-- Settles O33: a read inside the span answers the value of the next c bits, which stand LSB first. -/
theorem srcReadTakesTheNextBits : Obligations.SrcReadTakesTheNextBits := by
  intro s pos c _ hs
  split_ifs with h0 hend
  · subst h0; rfl
  · exact srcRead_truncated h0 hend
  · have hlen : (s.inBits pos c).length = c := inBits_length s pos c
    refine ⟨_, srcRead_ok hs (Nat.not_lt.1 hend), (fieldVal_lt _).trans_eq (by rw [hlen]), fun i hi => ?_⟩
    have hbit := getElem?_eq_testBit_fieldVal (hi.trans_eq hlen.symm)
    rw [inBits_getElem? s pos c i hi] at hbit
    exact (Option.some.inj hbit).symm

end Sys2Proof

/-! PROOFS. Every step from a sound state goes on (O57). -/

namespace Sys2Proof.Machine

/-! ## Outcomes that are a next state (R98, R126) -/

/-- The outcome is a next state: no stop and no refusal. -/
def GoesOn (o : Host.Outcome State Fault Refusal) : Prop := ∃ t, o = .next t

theorem goesOn_next (t : State) : GoesOn (.next t) := ⟨t, rfl⟩

/-- A choice goes on where each of its branches does. -/
theorem goesOn_ite {p : Prop} [Decidable p] {x y : Host.Outcome State Fault Refusal} (hx : p → GoesOn x) (hy : ¬p → GoesOn y) :
    GoesOn (if p then x else y) := by
  split_ifs with h
  · exact hx h
  · exact hy h

/-- A halted block answers, so an instruction goes on where its body does. -/
theorem goesOn_whenRunning {s : State} {body : Host.Outcome State Fault Refusal} (h : GoesOn body) : GoesOn (whenRunning s body) :=
  goesOn_ite (fun _ => goesOn_next _) fun _ => h

/-- A decoder that is not READY answers, so a command goes on where it does on a READY one. -/
theorem goesOn_whenReady {s : State} {body : Host.Outcome State Fault Refusal} (h : s.dec.dstate = .ready → GoesOn body) :
    GoesOn (whenReady s body) := by
  rcases whenReady_cases s body with ⟨-, hw⟩ | ⟨-, hw⟩ | ⟨hd, hw⟩
  · exact ⟨_, hw⟩
  · exact ⟨_, hw⟩
  · rw [hw]; exact h hd

/-- A decoder operation that ends early by a failure answers it. -/
theorem goesOn_stopDecoder {r : DecStop} (h : decoderStop r) (s : State) : GoesOn (stopDecoder r s) := by
  obtain ⟨c, -, hnext, -⟩ := h.next s
  exact ⟨_, hnext⟩

/-! ## Commands -/

/-- DEC_INIT reads inside the span that it has checked (R86). -/
theorem goesOn_decInit (b l : Word) (s : State) : GoesOn (execDecInit b l s) := by
  refine goesOn_whenRunning (goesOn_ite (fun _ => goesOn_next _) fun _ => goesOn_ite (fun _ => goesOn_next _) fun hsz => ?_)
  have hs : InSpan (openSpan b l s) := Nat.not_lt.1 hsz
  cases hr : readHeader (openSpan b l s) with
  | error r => exact goesOn_stopDecoder (stop_of_readHeader hs hr) _
  | ok q => exact goesOn_next _

/-- DEC_READ goes on while a READY decoder's span lies inside IN (R34, R87). -/
theorem goesOn_decRead {s : State} (hs : s.dec.dstate = .ready → InSpan s) : GoesOn (execDecRead s) := by
  refine goesOn_whenRunning (goesOn_whenReady fun hd => ?_)
  cases hr : readSample s with
  | error r => exact goesOn_stopDecoder (stop_of_readSample (hs hd) hr) s
  | ok q => exact goesOn_next _

theorem goesOn_decNextCode (s : State) : GoesOn (execDecNextCode s) :=
  goesOn_whenRunning (goesOn_whenReady fun _ => goesOn_ite (fun _ => goesOn_next _) fun _ => goesOn_next _)

theorem goesOn_encWrite (v : Word) (s : State) : GoesOn (execEncWrite v s) :=
  goesOn_whenRunning (goesOn_ite (fun _ => goesOn_next _) fun _ => goesOn_next _)

theorem goesOn_encFlush (s : State) : GoesOn (execEncFlush s) :=
  goesOn_whenRunning (goesOn_ite (fun _ => goesOn_next _) fun _ => goesOn_ite (fun _ => goesOn_next _) fun _ => goesOn_next _)

theorem goesOn_encCode (s : State) : GoesOn (execEncCode s) :=
  goesOn_whenRunning (goesOn_ite (fun _ => goesOn_next _) fun _ => goesOn_next _)

/-- Every command word is answered while a READY decoder's span lies inside IN (R98). -/
theorem goesOn_runCommand (cmd d0 d1 : Word) {s : State} (hs : s.dec.dstate = .ready → InSpan s) :
    GoesOn (runCommand cmd d0 d1 s) := by
  unfold runCommand
  cases hc : decodeCommand cmd d0 d1 with
  | error r => exact goesOn_whenRunning (goesOn_next _)
  | ok i =>
    rcases decodeCommand_ok hc with rfl | rfl | rfl | rfl | rfl | rfl | rfl | rfl
    · exact goesOn_whenRunning (goesOn_next _)
    · exact goesOn_encWrite d0 s
    · exact goesOn_encFlush s
    · exact goesOn_encCode s
    · exact goesOn_decInit d0 d1 s
    · exact goesOn_decRead hs
    · exact goesOn_decNextCode s
    · exact goesOn_next _

end Sys2Proof.Machine

namespace Sys2Proof
open Machine

/-- Settles O57, by what the host asks for: a command is answered because a sound decoder's span lies inside IN, and an access
because its address exists. -/
theorem soundStatesStepOn : Obligations.SoundStatesStepOn := by
  rintro s hi ⟨hw, hr⟩
  show GoesOn (step s)
  unfold step
  split
  case h_1 => exact goesOn_next _
  case h_2 cmd d0 d1 rest hh => exact goesOn_runCommand cmd d0 d1 fun hd => (hi.dec.span hd).2
  case h_3 a b rest hh => exact goesOn_ite (fun _ => goesOn_next _) fun hn => absurd (hw a b rest hh) hn
  case h_4 a rest hh => exact goesOn_ite (fun _ => goesOn_next _) fun hn => absurd (hr a rest hh) hn
  case h_5 rest hh => exact goesOn_next _

end Sys2Proof

/-! PROOFS. Commands and wire symbols: what is encoded is decoded, and what is decoded was encoded (O5, O6, O52, O53, O54). -/

namespace Sys2Proof

/-! ## Command words (R49 to R52) -/

/-- `CMD[31:4]` is zero exactly where the word has nothing above its OP. -/
theorem reservedBits_eq_zero_iff (cmd : Word) : cmd.extractLsb' 4 28 = 0 ↔ cmd.toNat / 16 = 0 := by
  have hlt := cmd.isLt
  rw [← BitVec.toNat_inj, BitVec.extractLsb'_toNat, Nat.shiftRight_eq_div_pow]
  change _ = 0 ↔ _
  omega

theorem commandOp_toNat (cmd : Word) : (cmd.extractLsb' 0 4).toNat = cmd.toNat % 16 := by
  rw [BitVec.extractLsb'_toNat, Nat.shiftRight_zero]

/-- The words that are no command (R52). -/
theorem decodeCommand_error_iff (cmd d0 d1 : Word) :
    (∃ r, decodeCommand cmd d0 d1 = .error r) ↔
      cmd.extractLsb' 4 28 ≠ 0 ∨ (cmd.extractLsb' 0 4).toNat ∈ [0x0, 0x5, 0x6, 0x7, 0xB, 0xC, 0xD, 0xE] := by
  rw [commandOp_toNat, ne_eq, reservedBits_eq_zero_iff]
  unfold decodeCommand
  by_cases hr : cmd.toNat / 16 = 0
  · rw [if_neg (not_not.2 hr)]
    have hop : cmd.toNat % 16 < 16 := Nat.mod_lt _ (by decide)
    generalize cmd.toNat % 16 = op at hop
    interval_cases op <;> simp [hr]
  · rw [if_pos hr]; simp [hr]

/-- The words of a command decode to it (R49, R51). -/
theorem decodeCommand_encodeCommand {i : Instr} {cmd d0 d1 : Word} (h : encodeCommand? i = some (cmd, d0, d1)) :
    decodeCommand cmd d0 d1 = .ok i := by
  cases i with
  | encInit | encWrite v | encFlush | encCode | decInit b l | decRead | decNextCode | status => cases h; rfl
  | _ => cases h

/-- An instruction that is written as words is a command with those words. -/
theorem encodeCommand_of_encode {i : Instr} {cmd d0 d1 : Word} (h : encode i = .command cmd d0 d1) :
    encodeCommand? i = some (cmd, d0, d1) := by
  unfold encode at h
  split at h <;> cases h
  assumption

/-! ## Symbols (R55 to R60) -/

/-- A wire symbol is written as its bits (R55). -/
theorem encode_of_symbol? {i : Instr} {σ : Symbol} (h : i.symbol? = some σ) : encode i = .wire σ.bits := by
  have hc : encodeCommand? i = none := by
    cases i with
    | encInit | encWrite v | encFlush | encCode | decInit b l | decRead | decNextCode | status => cases h
    | _ => rfl
  simp only [encode, hc, h]

/-- An instruction that has a wire symbol is the instruction of that symbol. -/
theorem instr?_of_symbol? {i : Instr} {σ : Symbol} (h : i.symbol? = some σ) : σ.instr? = some i := by
  cases i <;> cases h
  case hdr31 | hdr32 | trSame | trUp | trDown | zr0 | valElided1 => rfl
  all_goals exact congrArg some (congrArg _ (Laws.SymbolView.ofNat_toNat_self _))

theorem decodeWire_of_decodeSymbol {ctx : Context} {bits rest : List Bool} {σ : Symbol} {i : Instr}
    (hd : decodeSymbol ctx bits = .ok (σ, rest)) (hi : σ.instr? = some i) : decodeWire ctx bits = .ok (i, rest) := by
  simp only [decodeWire, hd, hi]

/-- Settles O5, by the command decoder's own criterion for an illegal word. -/
theorem illegalCommandsFault : Obligations.IllegalCommandsFault := by
  intro cmd d0 d1 s hf
  have hiff := decodeCommand_error_iff cmd d0 d1
  cases hd : decodeCommand cmd d0 d1 with
  | error r =>
    rw [if_pos (hiff.1 ⟨r, hd⟩)]
    simp only [Machine.runCommand, hd]
    exact Machine.whenRunning_running hf _
  | ok i =>
    rw [if_neg fun hc => by obtain ⟨r, hr⟩ := hiff.2 hc; rw [hd] at hr; cases hr]
    exact ⟨i, rfl, by simp only [Machine.runCommand, hd]⟩

/-- Settles O6: each OP's row of the decoder, with the operand words it names. -/
theorem operandWordsAreTheSpecs : Obligations.OperandWordsAreTheSpecs :=
  fun _ _ => ⟨rfl, rfl, rfl, rfl, rfl, rfl, rfl, rfl⟩

/-- Settles O52: a command by the words of its row, a symbol by reading its bits back and naming the row again. -/
theorem instructionsDecodeAsEncoded : Obligations.InstructionsDecodeAsEncoded := by
  refine fun i hw => ⟨fun ctx cmd d0 d1 h => ?_, fun σ ctx hσ hfit => ⟨encode_of_symbol? hσ, fun rest => ?_⟩⟩
  · have hd := decodeCommand_encodeCommand (encodeCommand_of_encode h)
    exact ⟨hd, by rw [h, decode, hd]; rfl⟩
  · exact decodeWire_of_decodeSymbol (decodeSymbol_bits (symbol?_wf hw hσ) hfit rest) (instr?_of_symbol? hσ)

/-- Settles O53, by all that the wire decoder can answer when it finds an instruction. -/
theorem decodedSymbolsHaveTheirBits : Obligations.DecodedSymbolsHaveTheirBits := by
  intro ctx bits rest i h
  obtain ⟨σ, -, hσ, hw, -, hfit, hbits⟩ := decodeWire_symbol h
  exact ⟨σ, hσ, hw, hfit, hbits⟩

/-- Settles O54, by running the two decoders on the ten words and bit strings. -/
theorem writtenOutWordsDecode : Obligations.WrittenOutWordsDecode := by
  and_intros <;> rfl

end Sys2Proof

/-! PROOFS. What the encoder writes: headers, run codes, samples and whole streams (O25, O26, O27, O58). -/

namespace Sys2Proof

/-- A field's bits are the value's bits in order (R39). -/
theorem fieldBits_eq_map_testBit (c v : Nat) : fieldBits c v = (List.range c).map v.testBit := by
  apply List.ext_getElem?
  intro i
  by_cases hi : i < c
  · rw [fieldBits_getElem? c v i hi, List.getElem?_map, List.getElem?_range hi]; rfl
  · rw [List.getElem?_eq_none (by simpa using hi), List.getElem?_eq_none (by simpa using hi)]

namespace Machine

/-- The bits of the transition code to a next width that is no more than one away (R57). -/
theorem transSymbol_bits (c n : Nat) :
    (transSymbol c n).bits = if n = c then [false] else if n = c + 1 then [true, true] else [true, false] := by
  unfold transSymbol
  split_ifs <;> rfl

/-- The bits of the value field, full or elided (R59). -/
theorem valueSymbol_bits (p c n v : Nat) :
    (valueSymbol p c n v).bits = if p ≤ c ∧ n ≤ c then fieldBits (c - 1) (v - 2 ^ (c - 1)) else fieldBits c v := by
  unfold valueSymbol
  split_ifs <;> rfl

/-- A sample of width > 0 leaves the encoder as it was, with the run closed and its symbols written (R77). -/
theorem Wrote.eq_of_nz {e e' : Enc} {bits : List Bool} (h : Wrote e bits e') (hz : e'.nz = 0) (hm : e'.mrw = e.mrw) :
    e' = { e with nz := 0, ebits := e'.ebits, out := e'.out } := by
  obtain ⟨buf, mrw, started, flushed, nz, ebits, outLen, out⟩ := e'
  obtain ⟨-, -, hbuf, hstarted, hflushed, hlen⟩ := h
  dsimp only at hz hm hbuf hstarted hflushed hlen ⊢
  rw [hz, hm, hbuf, hstarted, hflushed, hlen]

end Machine

open Machine

/-- Settles O25: the header symbol's bits, by the three forms of a header. -/
theorem headerBitsAreTheSpecs : Obligations.HeaderBitsAreTheSpecs := by
  refine fun w e hw => ⟨_, by rw [emitHeader_eq none w hw, sinkBits_none], ?_⟩
  rw [put_ebits]
  congr 1
  by_cases h30 : w ≤ 30
  · rw [if_neg (by omega), if_neg (by omega), headerSymbol, if_pos h30]
    exact fieldBits_eq_map_testBit 5 w
  · obtain rfl | rfl : w = 31 ∨ w = 32 := by omega
    · rfl
    · rfl

/-- Settles O26, with k the place of the top bit of n. -/
theorem zeroRunCodeIsTheSpecs : Obligations.ZeroRunCodeIsTheSpecs := by
  intro n e h1 h2
  have hn : n ≠ 0 := by omega
  have hpos := bitwidth_pos hn
  have hle := (bitwidth_le_iff n 32).2 (by omega)
  have hlt := lt_pow_bitwidth n
  refine ⟨bitwidth n - 1, _, _, by omega, pow_bitwidth_le hn, by rwa [Nat.sub_add_cancel hpos], rfl,
    by rw [emitZeroRun_eq, sinkBits_none], ?_⟩
  rw [put_ebits, Symbol.bits, fieldBits_eq_map_testBit, List.append_assoc]
  rfl

/-- Settles O27, by the two ends of EncodeSample: a zero-width sample is counted, and another one writes its symbols. -/
theorem encodeSampleWritesItsSymbols : Obligations.EncodeSampleWritesItsSymbols := by
  intro p c n v e
  by_cases hc : c = 0
  · rw [if_pos hc, encodeSample, if_pos hc, zeroRunCount]
  · rw [if_neg hc]
    intro hn
    obtain ⟨e', he⟩ := encodeSample_none p c n v e (fun _ => hn) (fun h0 => absurd h0 hc)
    rcases encodeSample_ok (fun _ => hn) he with ⟨h0, -⟩ | ⟨-, -, hnz, hm, hw⟩
    · exact absurd h0 hc
    · refine ⟨e', he, hnz, hw.eq_of_nz hnz hm, ?_⟩
      rw [hw.ebits, ← transSymbol_bits, ← valueSymbol_bits]
      simp [symbolBits]

/-- Settles O58, by the stream that ENC_STREAM leaves: each write keeps what has been committed, and the flush commits the
rest. -/
theorem streamsHaveTheirLayout : Obligations.StreamsHaveTheirLayout := by
  intro vs s h0 hN hf hcap
  obtain ⟨rs, t, hrun, ht⟩ := runInstrs_encStream h0 hN hf hcap
  exact ⟨rs, t, hrun, ht.fault, ht.flushed, ht.ebits⟩

end Sys2Proof

/-! PROOFS. DEC_READ of a zero-run code, DEC_READ's failures, and DEC_NEXT_CODE (O37, O38, O42). -/

namespace Sys2Proof.Machine

/-! ## Bits at the cursor (R42) -/

/-- A READY decoder's span lies inside IN. -/
theorem inSpan_of_ready {s : State} (h : Ready s) : InSpan s := by
  obtain ⟨-, -, -, hspan⟩ := h
  exact hspan

theorem bitsFrom_eq_cons {s : State} {pos : Nat} (h : pos < 8 * s.dec.len.toNat) :
    bitsFrom s pos = s.inBit pos :: bitsFrom s (pos + 1) := bitsFrom_split s (c := 1) h

theorem bitsFrom_eq_nil {s : State} {pos : Nat} (h : 8 * s.dec.len.toNat ≤ pos) : bitsFrom s pos = [] := by
  rw [← List.length_eq_zero_iff, bitsFrom_length]; omega

/-! ## How DEC_READ ends (R87, R92, R103) -/

/-- A sample that is read ends DEC_READ with OK (R92). -/
theorem exec_decRead_ok {s : State} (h : Ready s) {v n pos : Nat} {z : Int} (hr : readSample s = .ok (v, (n, z), pos)) :
    exec .decRead s = .next (commitSample v n z pos s) := by
  rw [exec_decRead_ready h, hr]

/-- A sample that cannot be read ends DEC_READ with the failure (R103). -/
theorem exec_decRead_fail {s : State} (h : Ready s) {c : DCause} (hr : readSample s = .error (.fail c)) :
    exec .decRead s = .next (failDecoder c s) := by
  rw [exec_decRead_ready h, hr]; rfl

theorem exec_decRead_failedWith {s : State} (h : Ready s) {c : DCause} (hr : readSample s = .error (.fail c)) :
    ∃ t, exec .decRead s = .next t ∧ FailedWith c s t :=
  ⟨_, exec_decRead_fail h hr, failedWith c s⟩

/-- Before a sample of width > 0, where the transition code cannot be read the sample cannot (R87). -/
theorem readSample_transStep_error {s : State} (hc : s.dec.cw ≠ 0) {r : DecStop}
    (h : transStep s s.dec.cw s.dec.pos = .error r) : readSample s = .error r := by
  rw [readSample_trans hc, h]; rfl

/-- Before a zero run, where the wire decoder finds no code the sample cannot be read (R87, R90). -/
theorem readSample_run_error {s : State} (hs : InSpan s) (hc : s.dec.cw = 0) (hz : s.dec.zc = -1) {r : WireReject}
    (h : decodeRun 0 (restBits s) = .error r) : readSample s = .error (rejectStop r) := by
  rw [readSample_run hs hc (by omega), h]

/-- Before a zero run, the sample is 0 and its run the one whose code the wire decoder finds (R87, R90). -/
theorem readSample_run_ok {s : State} (hs : InSpan s) (hc : s.dec.cw = 0) (hz : s.dec.zc = -1) {k x : Nat} {rest : List Bool}
    (h : decodeRun 0 (restBits s) = .ok (.zr k x, rest)) :
    readSample s = .ok (0, runStart (2 ^ k + x), s.dec.pos + (2 * k + 1)) := by
  rw [readSample_run hs hc (by omega), h]

/-- A run code that ends after k < 32 zeros, or inside the suffix after k zeros and a one, is cut short (R61, R90). -/
theorem decodeRun_cut {s : State} {k pos : Nat} (hk : k < 32) (h0 : ∀ j, j < k → s.inBit (pos + j) = false)
    (hend : 8 * s.dec.len.toNat = pos + k ∨
      s.inBit (pos + k) = true ∧ pos + k < 8 * s.dec.len.toNat ∧ 8 * s.dec.len.toNat < pos + (2 * k + 1)) :
    decodeRun 0 (bitsFrom s pos) = .error .truncated := by
  rw [decodeRun_zeros k pos 0 (by omega) (by omega) h0 (by omega), if_neg (by omega), Nat.zero_add]
  rcases hend with hend | ⟨h1, hone, hend⟩
  · rw [bitsFrom_eq_nil hend.le]; rfl
  · rw [bitsFrom_eq_cons hone, h1, decodeRun, takeField, bitsFrom_length, if_pos (by omega)]

end Sys2Proof.Machine

namespace Sys2Proof
open Machine

/-- Settles O37: the bits at the cursor are the run code that the wire decoder finds there. -/
theorem decReadTakesTheRunCode : Obligations.DecReadTakesTheRunCode := by
  intro s k hr hc hz hk h0 h1 hfit
  have hcode := decodeRun_code k s.dec.pos 0 (by omega) h0 h1 (by omega)
  rw [Nat.zero_add] at hcode
  exact exec_decRead_ok hr (readSample_run_ok (inSpan_of_ready hr) hc hz hcode)

/-- Settles O38, by the step of the sample that fails: the transition code or the run code at the cursor. -/
theorem decReadFailsByCause : Obligations.DecReadFailsByCause := by
  intro s hr
  have hs := inSpan_of_ready hr
  refine ⟨fun hc hfit h0 h1 => ?_, fun hc hz hfit h0 => ?_, fun hc hz k hk h0 hend => ?_, fun hc _ hend => ?_⟩
  · refine exec_decRead_failedWith hr (readSample_transStep_error (by omega) ?_)
    rw [transStep_eq hs, bitsFrom_eq_cons (by omega), bitsFrom_eq_cons (by omega), h0, h1, hc]; rfl
  · refine exec_decRead_failedWith hr (readSample_run_error hs hc hz (r := .runPrefix) ?_)
    rw [restBits_eq, decodeRun_zeros 32 s.dec.pos 0 (by omega) (by omega) h0 hfit]; rfl
  · exact exec_decRead_failedWith hr (readSample_run_error hs hc hz (decodeRun_cut hk h0 hend))
  · refine exec_decRead_failedWith hr (readSample_transStep_error (by omega) ?_)
    rw [transStep_eq hs, bitsFrom_eq_nil hend]; rfl

/-- Settles O42, by whether the address fits RDATA. -/
theorem decNextCodeAnswersTheAddress : Obligations.DecNextCodeAnswersTheAddress := by
  intro s hf hd
  have hx : exec .decNextCode s = _ := (whenRunning_running hf _).trans (whenReady_ready hd _)
  refine ⟨fun hlt => hx.trans (if_pos hlt), fun hge => ⟨_, s.free + 1, hx.trans (if_neg (Nat.not_lt.2 hge))⟩⟩

end Sys2Proof

/-! PROOFS. The wire symbols as instructions: what each one does where it can stand (O44, O45, O46, O47, O48). -/

namespace Sys2Proof.Machine

/-! ## Symbols whose bits lie in the span (R42, R61) -/

/-- A running block takes a wire symbol by its effect (R104; notes/assumptions/8.md). -/
theorem exec_symbolEffect {s : State} (hf : s.fault = false) {i : Instr} {σ : Symbol} (hσ : i.symbol? = some σ) :
    exec i s = symbolEffect σ s :=
  (exec_symbol hσ s).trans (whenRunning_running hf _)

/-- Bits that lie in the span are taken, and the cursor moves past them. -/
theorem takeBits_fits {s : State} {c : Nat} (hfit : 0 < c → s.dec.pos + c ≤ 8 * s.dec.len.toNat)
    (body : Nat → Host.Outcome State Fault Refusal) : takeBits c s body = body (s.dec.pos + c) :=
  if_neg fun ⟨hc, hlt⟩ => by have := hfit hc; omega

/-- A header symbol in the span is the end of DEC_INIT (R56, R86). -/
theorem takeHeader_fits {s : State} (hp : s.dec.phase = .header) {c : Nat} (hfit : s.dec.pos + c ≤ 8 * s.dec.len.toNat) (w : Nat) :
    takeHeader c w s = .next (startStream w (s.dec.pos + c) s) :=
  (if_pos hp).trans (takeBits_fits (fun _ => hfit) _)

/-- The state between the transition code and the value field of a sample, with the next width n (R87, R88). -/
def atValue (n pos : Nat) (s : State) : State := { s with dec := { s.dec with pos := pos, phase := .value n s.dec.zc } }

theorem atTrans_iff (s : State) : s.atTrans = true ↔ s.dec.dstate = .ready ∧ s.dec.phase = .idle ∧ s.dec.cw ≠ 0 :=
  decide_eq_true_iff

theorem atRun_iff (s : State) :
    s.atRun = true ↔ s.dec.dstate = .ready ∧ s.dec.phase = .idle ∧ s.dec.cw = 0 ∧ s.dec.zc < 0 :=
  decide_eq_true_iff

/-- A transition code in the span leads to the value field, unless the next width is above 32 (R57, R88). -/
theorem takeTrans_fits {s : State} (h : s.atTrans = true) {c : Nat} (hfit : s.dec.pos + c ≤ 8 * s.dec.len.toNat) (n : Nat) :
    takeTrans c n s = .next (if 32 < n then failDecoder .widthOverflow s else atValue n (s.dec.pos + c) s) := by
  rw [takeTrans, if_pos h, takeBits_fits fun _ => hfit, apply_ite Host.Outcome.next]
  rfl

/-- A zero-run code in the span reads the run's first sample (R58, R90). -/
theorem takeRun_fits {s : State} (h : s.atRun = true) {k : Nat} (hfit : s.dec.pos + (2 * k + 1) ≤ 8 * s.dec.len.toNat) (x : Nat) :
    takeRun k x s =
      .next (commitSample 0 (runStart (2 ^ k + x)).1 (runStart (2 ^ k + x)).2 (s.dec.pos + (2 * k + 1)) s) :=
  (if_pos h).trans (takeBits_fits (fun _ => hfit) _)

/-- A value field in the span ends DEC_READ (R59, R91, R92). -/
theorem takeValue_fits {s : State} (hd : s.dec.dstate = .ready) {n : Nat} {z : Int} (hp : s.dec.phase = .value n z) {m : Nat}
    (hfit : 0 < m → s.dec.pos + m ≤ 8 * s.dec.len.toNat) (v : Nat) :
    takeValue s.dec.cw m v s = .next (commitSample v n z (s.dec.pos + m) s) := by
  rw [takeValue, hp]
  exact (if_pos ⟨hd, rfl⟩).trans (takeBits_fits hfit _)

end Sys2Proof.Machine

namespace Sys2Proof
open Machine

/-- Settles O44, by the shared effect of a header. -/
theorem headerSymbolsComplete : Obligations.HeaderSymbolsComplete := by
  refine fun s hf hp => ⟨fun hfit h hne => ?_, fun hfit => ⟨?_, ?_⟩⟩
  · have hlt : h.toNat < 31 := by
      have hle := h.isLt
      have hne' : h.toNat ≠ 31 := fun hc => hne (BitVec.eq_of_toNat_eq hc)
      omega
    exact (exec_symbolEffect hf (σ := .hdr5 h.toNat) rfl).trans ((if_pos hlt).trans (takeHeader_fits hp hfit _))
  · exact (exec_symbolEffect hf (σ := .hdr31) rfl).trans (takeHeader_fits hp hfit 31)
  · exact (exec_symbolEffect hf (σ := .hdr32) rfl).trans (takeHeader_fits hp hfit 32)

/-- Settles O45, by the shared effect of a transition code, with the next width of each of the three. -/
theorem transitionSymbolsComplete : Obligations.TransitionSymbolsComplete := by
  intro s hf hd hp hc0 hc32 after
  have hat : s.atTrans = true := (atTrans_iff s).2 ⟨hd, hp, by omega⟩
  have row {i : Instr} {σ : Symbol} {c n : Nat} (hσ : i.symbol? = some σ) (heff : symbolEffect σ s = takeTrans c n s)
      (hfit : s.dec.pos + c ≤ 8 * s.dec.len.toNat) :
      exec i s = .next (if 32 < n then failDecoder .widthOverflow s else atValue n (s.dec.pos + c) s) := by
    rw [exec_symbolEffect hf hσ, heff, takeTrans_fits hat hfit]
  refine ⟨fun hfit => ?_, fun hfit => ⟨fun hlt => ?_, fun h32 => ⟨_, ?_, failedWith _ s⟩, ?_⟩⟩
  · exact (row rfl rfl hfit).trans (congrArg _ (if_neg (by omega)))
  · exact (row rfl rfl hfit).trans (congrArg _ (if_neg (by omega)))
  · exact (row rfl rfl hfit).trans (congrArg _ (if_pos (by omega)))
  · exact (row rfl rfl hfit).trans (congrArg _ (if_neg (by omega)))

/-- Settles O46: the 32 rows share the effect of ZR_k with the suffix x. -/
theorem zeroRunSymbolsComplete : Obligations.ZeroRunSymbolsComplete := by
  intro s hf hd hp hc hz fits after
  have hat : s.atRun = true := (atRun_iff s).2 ⟨hd, hp, hc, by omega⟩
  have row {i : Instr} (k x : Nat) (hi : i.symbol? = some (.zr k x)) (hfit : fits k) : exec i s = after k x :=
    (exec_symbolEffect hf hi).trans (takeRun_fits hat hfit x)
  and_intros
  · exact row 0 0 rfl
  all_goals exact fun x => row _ x.toNat rfl

/-- Settles O47: the 32 rows share the effect of VAL_FULL_c with the field v. -/
theorem fullValueSymbolsComplete : Obligations.FullValueSymbolsComplete := by
  intro s n z hf hd hp fits after
  have row {i : Instr} (c v : Nat) (hi : i.symbol? = some (.valFull c v)) (hfit : fits c c) : exec i s = after v c := by
    obtain ⟨rfl, hfit⟩ := hfit
    exact (exec_symbolEffect hf hi).trans (takeValue_fits hd hp (fun _ => hfit) v)
  and_intros
  all_goals exact fun v => row _ v.toNat rfl

/-- Settles O48: the 32 rows share the effect of VAL_ELIDED_c with the field v of c-1 bits. -/
theorem elidedValueSymbolsComplete : Obligations.ElidedValueSymbolsComplete := by
  intro s n z hf hd hp fits after
  have row {i : Instr} (c v : Nat) (hi : i.symbol? = some (.valElided c v)) (hfit : fits c (c - 1)) :
      exec i s = after (v + 2 ^ (c - 1)) (c - 1) := by
    obtain ⟨rfl, hfit⟩ := hfit
    exact (exec_symbolEffect hf hi).trans (takeValue_fits hd hp hfit _)
  and_intros
  · exact row 1 0 rfl
  all_goals exact fun v => row _ v.toNat rfl

end Sys2Proof

/-! PROOFS. DEC_INIT and DEC_READ are the wire symbols that the wire decoder reads at the cursor (O49, O50, O51). -/

namespace Sys2Proof

/-! ## The symbols that can stand at each point of a stream (R60) -/

theorem fits_header {σ : Symbol} (h : σ.fits .header = true) : (∃ w, σ = .hdr5 w) ∨ σ = .hdr31 ∨ σ = .hdr32 := by
  cases σ with
  | hdr5 w => exact .inl ⟨w, rfl⟩
  | hdr31 => exact .inr (.inl rfl)
  | hdr32 => exact .inr (.inr rfl)
  | _ => cases h

theorem fits_trans {σ : Symbol} (h : σ.fits .trans = true) : σ = .trSame ∨ σ = .trUp ∨ σ = .trDown := by
  cases σ with
  | trSame => exact .inl rfl
  | trUp => exact .inr (.inl rfl)
  | trDown => exact .inr (.inr rfl)
  | _ => cases h

theorem fits_run {σ : Symbol} (h : σ.fits .run = true) : ∃ k x, σ = .zr k x := by
  cases σ with
  | zr k x => exact ⟨k, x, rfl⟩
  | _ => cases h

theorem fits_value {p c n : Nat} {σ : Symbol} (h : σ.fits (.value p c n) = true) :
    (∃ v, σ = .valFull c v) ∨ ∃ v, σ = .valElided c v := by
  cases σ with
  | valFull c' v =>
    simp only [Symbol.fits, Bool.and_eq_true, beq_iff_eq] at h
    obtain ⟨rfl, -⟩ := h
    exact .inl ⟨v, rfl⟩
  | valElided c' v =>
    simp only [Symbol.fits, Bool.and_eq_true, beq_iff_eq] at h
    obtain ⟨rfl, -⟩ := h
    exact .inr ⟨v, rfl⟩
  | _ => cases h

/-! ## Where the wire decoder finds nothing (R61) -/

/-- A header can be cut short only within six bits (R56). -/
theorem length_of_decodeHeader_error {bits : List Bool} {r : WireReject} (h : decodeHeader bits = .error r) : bits.length < 6 := by
  unfold decodeHeader at h
  cases hf : takeField 5 bits with
  | error r' =>
    obtain ⟨-, hlen⟩ := takeField_error hf
    omega
  | ok q =>
    obtain ⟨v, rest⟩ := q
    obtain ⟨-, rfl⟩ := takeField_ok hf
    rw [hf] at h
    dsimp only at h
    split_ifs at h
    split at h
    · simp
    · cases h
    · cases h

/-- A rejection by the wire decoder is one of its symbol decoder, unless no symbol can stand there. -/
theorem decodeSymbol_error_of_decodeWire {ctx : Context} {bits : List Bool} {r : WireReject}
    (h : decodeWire ctx bits = .error r) (hr : r ≠ .noSymbol) : decodeSymbol ctx bits = .error r := by
  unfold decodeWire at h
  split at h
  · cases h; assumption
  · split at h <;> cases h
    exact absurd rfl hr

namespace Machine

/-! ## Symbols at the cursor (R42, R60) -/

/-- Bits that stand at a point of the span lie in it, and the bits after them are those from the point after them. -/
theorem bitsFrom_append {s : State} {pos : Nat} {xs ys : List Bool} (h : bitsFrom s pos = xs ++ ys) :
    (0 < xs.length → pos + xs.length ≤ 8 * s.dec.len.toNat) ∧ bitsFrom s (pos + xs.length) = ys := by
  have hlen := congrArg List.length h
  rw [bitsFrom_length, List.length_append] at hlen
  refine ⟨fun _ => by omega, ?_⟩
  by_cases h0 : xs.length = 0
  · obtain rfl := List.length_eq_zero_iff.1 h0
    exact h
  · rw [bitsFrom_split s (c := xs.length) (by omega)] at h
    exact List.append_inj_right h (inBits_length _ _ _)

/-- The header read is the header symbol that the wire decoder finds at the start of the span (R56, R86). -/
theorem readHeader_symbol {s : State} (hf : s.fault = false) (hs : InSpan s) (hp : s.dec.phase = .header) {σ : Symbol}
    {rest : List Bool} (h : decodeHeader (restBits s) = .ok (σ, rest)) :
    ∃ i w pos, decodeWire .header (restBits s) = .ok (i, rest) ∧ readHeader s = .ok (w, pos) ∧
      exec i s = .next (startStream w pos s) := by
  obtain ⟨hw, hfit, hbits⟩ := decodeSymbol_ok (ctx := .header) h nofun
  suffices ∃ i w pos, σ.instr? = some i ∧ readHeader s = .ok (w, pos) ∧ symbolEffect σ s = .next (startStream w pos s) by
    obtain ⟨i, w, pos, hi, hread, heff⟩ := this
    obtain ⟨hσ, -⟩ := instr?_symbol? hw hi
    exact ⟨i, w, pos, decodeWire_of_decodeSymbol h hi, hread, (exec_symbolEffect hf hσ).trans heff⟩
  obtain ⟨hin, -⟩ := bitsFrom_append hbits
  rw [readHeader_eq hs, ← restBits_eq, h]
  rcases fits_header hfit with ⟨w, rfl⟩ | rfl | rfl
  · have hlt : w < 31 := by simpa [Symbol.wf, Config.headerEscape] using hw
    exact ⟨_, _, _, rfl, rfl, (if_pos hlt).trans (takeHeader_fits hp (hin (by simp [Symbol.bits])) w)⟩
  · exact ⟨_, _, _, rfl, rfl, takeHeader_fits hp (hin (by decide)) 31⟩
  · exact ⟨_, _, _, rfl, rfl, takeHeader_fits hp (hin (by decide)) 32⟩

/-- Before a sample of width > 0, TransStep is the transition symbol that the wire decoder finds at the cursor: it fails at `11`
and width 32, and else both lead to the value field with the bits after the symbol (R57, R88). -/
theorem transStep_symbol {s : State} (hr : Ready s) (hc0 : s.dec.cw ≠ 0) (hc : s.dec.cw ≤ 32) {i : Instr} {rest : List Bool}
    (h : decodeWire .trans (restBits s) = .ok (i, rest)) :
    (i = .trUp ∧ s.dec.cw = 32 ∧ transStep s s.dec.cw s.dec.pos = .error (.fail .widthOverflow) ∧
      exec i s = .next (failDecoder .widthOverflow s)) ∨
    ∃ n pos, transStep s s.dec.cw s.dec.pos = .ok (n, pos) ∧ bitsFrom s pos = rest ∧ exec i s = .next (atValue n pos s) := by
  obtain ⟨σ, hd, hσ, -, -, hfit, hbits⟩ := decodeWire_symbol h
  obtain ⟨hin, hrest⟩ := bitsFrom_append hbits
  obtain ⟨hf, hready, hidle, hs⟩ := hr
  have hat : s.atTrans = true := (atTrans_iff s).2 ⟨hready, hidle, hc0⟩
  have hd : decodeTrans (bitsFrom s s.dec.pos) = .ok (σ, rest) := hd
  rw [transStep_eq hs, hd, exec_symbolEffect hf hσ]
  rcases fits_trans hfit with rfl | rfl | rfl
  · exact .inr ⟨_, _, rfl, hrest, (takeTrans_fits hat (hin (by decide)) _).trans (congrArg _ (if_neg (by omega)))⟩
  · have heff := takeTrans_fits hat (hin (by decide)) (s.dec.cw + 1)
    by_cases h32 : s.dec.cw = 32
    · cases instr?_of_symbol? hσ
      exact .inl ⟨rfl, h32, if_pos (by omega), heff.trans (congrArg _ (if_pos (by omega)))⟩
    · exact .inr ⟨_, _, if_neg (by omega), hrest, heff.trans (congrArg _ (if_neg (by omega)))⟩
  · exact .inr ⟨_, _, rfl, hrest, (takeTrans_fits hat (hin (by decide)) _).trans (congrArg _ (if_neg (by omega)))⟩

/-- At the value field of a sample, ValueStep is the value symbol that the wire decoder finds there (R59, R91). -/
theorem valueStep_symbol {s : State} (hr : Ready s) (hc0 : s.dec.cw ≠ 0) {n pos : Nat} {j : Instr} {rest : List Bool}
    (h : decodeWire (.value s.dec.pw s.dec.cw n) (bitsFrom s pos) = .ok (j, rest)) :
    ∃ v pos', valueStep s s.dec.pw s.dec.cw n pos = .ok (v, pos') ∧
      exec j (atValue n pos s) = .next (commitSample v n s.dec.zc pos' s) := by
  obtain ⟨σ, hd, hσ, -, -, hfit, hbits⟩ := decodeWire_symbol h
  obtain ⟨hin, -⟩ := bitsFrom_append hbits
  obtain ⟨hf, hready, -, hs⟩ := hr
  have hd : decodeValue s.dec.pw s.dec.cw n (bitsFrom s pos) = .ok (σ, rest) := hd
  rw [valueStep_eq hs _ _ _ _ hc0, hd, exec_symbolEffect (s := atValue n pos s) hf hσ]
  rcases fits_value hfit with ⟨v, rfl⟩ | ⟨v, rfl⟩
  · rw [Symbol.bits, fieldBits_length] at hin
    exact ⟨_, _, rfl, takeValue_fits (s := atValue n pos s) hready rfl hin v⟩
  · rw [Symbol.bits, fieldBits_length] at hin
    exact ⟨_, _, rfl, takeValue_fits (s := atValue n pos s) hready rfl hin _⟩

/-- A sample of width > 0 is its transition code and then its value field (R87, R91). -/
theorem readSample_trans_value {s : State} (hc : s.dec.cw ≠ 0) {n pos : Nat}
    (ht : transStep s s.dec.cw s.dec.pos = .ok (n, pos)) :
    readSample s = (valueStep s s.dec.pw s.dec.cw n pos).map fun q => (q.1, (n, s.dec.zc), q.2) := by
  rw [readSample_trans hc, ht]
  show (valueStep s s.dec.pw s.dec.cw n pos >>= fun q => .ok (q.1, (n, s.dec.zc), q.2)) = _
  cases valueStep s s.dec.pw s.dec.cw n pos <;> rfl

end Machine

open Machine

/-- Settles O49: a span that is not empty holds a whole header, and DEC_INIT reads it as the wire decoder does. -/
theorem decInitRunsItsHeaderSymbol : Obligations.DecInitRunsItsHeaderSymbol := by
  intro s b l hf hl hsz
  have hl0 : l.toNat ≠ 0 := fun hc => hl (BitVec.eq_of_toNat_eq hc)
  have hs : InSpan (openSpan b l s) := hsz
  cases hd : decodeHeader (restBits (openSpan b l s)) with
  | error r =>
    have hlen := length_of_decodeHeader_error hd
    rw [restBits_eq, bitsFrom_length] at hlen
    simp only [openSpan_dec] at hlen
    omega
  | ok q =>
    obtain ⟨σ, rest⟩ := q
    obtain ⟨i, w, pos, hwire, hread, hx⟩ := readHeader_symbol (s := openSpan b l s) hf hs rfl hd
    exact ⟨i, rest, hwire, by rw [exec_decInit_span b l hf hl0 hsz, hread, hx]⟩

/-- Settles O50, by the step of DEC_READ that each wire symbol is: RunStep, TransStep or ValueStep. -/
theorem decReadRunsItsSymbols : Obligations.DecReadRunsItsSymbols := by
  refine fun s i rest hr hc => ⟨fun hc0 hz h => ?_, fun hc0 h => ?_⟩
  · obtain ⟨σ, hd, hσ, -, -, hfit, hbits⟩ := decodeWire_symbol h
    obtain ⟨k, x, rfl⟩ := fits_run hfit
    obtain ⟨hin, -⟩ := bitsFrom_append hbits
    have hread := exec_decRead_ok hr (readSample_run_ok (inSpan_of_ready hr) hc0 hz hd)
    obtain ⟨hf, hready, hidle, -⟩ := hr
    have hat : s.atRun = true := (atRun_iff s).2 ⟨hready, hidle, hc0, by omega⟩
    have hlen : (Symbol.zr k x).bits.length = 2 * k + 1 := by simp [Symbol.bits]; omega
    rw [hlen] at hin
    rw [hread, exec_symbolEffect hf hσ]
    exact (takeRun_fits hat (hin (by omega)) x).symm
  · rcases transStep_symbol hr hc0 hc h with ⟨hi, h32, ht, hx⟩ | ⟨n, pos, ht, hrest, hx⟩
    · exact .inl ⟨hi, h32, (exec_decRead_fail hr (readSample_transStep_error hc0 ht)).trans hx.symm⟩
    · refine .inr ⟨_, n, hx, rfl, (bitsFrom_congr (s := s) (t := atValue n pos s) rfl rfl rfl pos).trans hrest, fun j rest' hj => ?_⟩
      rw [← hrest] at hj
      obtain ⟨v, pos', hv, hxj⟩ := valueStep_symbol hr hc0 hj
      rw [hxj]
      exact exec_decRead_ok hr (by rw [readSample_trans_value hc0 ht, hv]; rfl)

/-- Settles O51, by the step of DEC_READ at which the wire decoder finds no symbol. -/
theorem decReadFailsWhereNoSymbolStands : Obligations.DecReadFailsWhereNoSymbolStands := by
  intro s hr hc
  have hs := inSpan_of_ready hr
  refine ⟨fun hc0 h => ?_, fun hc0 hz h => ?_, fun hc0 hz h => ?_, fun hc0 i rest s1 n h hx hphase hv => ?_⟩
  · have hd : decodeTrans (bitsFrom s s.dec.pos) = _ := decodeSymbol_error_of_decodeWire h (by decide)
    exact exec_decRead_failedWith hr (readSample_transStep_error hc0 (by rw [transStep_eq hs, hd]))
  · exact exec_decRead_failedWith hr (readSample_run_error hs hc0 hz (decodeSymbol_error_of_decodeWire h (by decide)))
  · exact exec_decRead_failedWith hr (readSample_run_error hs hc0 hz (decodeSymbol_error_of_decodeWire h (by decide)))
  · rcases transStep_symbol hr hc0 hc h with ⟨-, -, -, hx'⟩ | ⟨n', pos, ht, hrest, hx'⟩
    · cases hx.symm.trans hx'
      cases hphase
    · cases hx.symm.trans hx'
      cases hphase
      have hd : decodeValue s.dec.pw s.dec.cw n rest = _ := decodeSymbol_error_of_decodeWire hv (by decide)
      refine exec_decRead_failedWith hr ?_
      rw [readSample_trans_value hc0 ht, valueStep_eq hs _ _ _ _ hc0, hrest, hd]
      rfl

end Sys2Proof

/-! PROOFS. The width smoother, and the two commands that commit samples with its widths (O18, O19, O28 to O32). -/

namespace Sys2Proof.Machine

/-! ## A profile among the smooth sequences, and its closed form (R68, R69) -/

/-- Steps of at most one between neighbours bound the difference of any two entries by their distance. -/
theorem le_add_dist_of_steps {U : Nat → Nat} {n : Nat} (h : ∀ i, i + 1 < n → U (i + 1) ≤ U i + 1 ∧ U i ≤ U (i + 1) + 1)
    {i j : Nat} (hi : i < n) (hj : j < n) : U j ≤ U i + ((i - j) + (j - i)) := by
  have apart (a k : Nat) (hk : a + k < n) : U (a + k) ≤ U a + k ∧ U a ≤ U (a + k) + k := by
    induction k with
    | zero => exact ⟨le_rfl, le_rfl⟩
    | succ k ih =>
      obtain ⟨up, down⟩ := ih (by omega)
      obtain ⟨stepUp, stepDown⟩ := h (a + k) hk
      rw [← Nat.add_assoc]
      omega
  rcases Nat.le_total i j with hij | hji
  · have := (apart i (j - i) (by omega)).1
    rw [Nat.add_sub_cancel' hij] at this
    omega
  · have := (apart j (i - j) (by omega)).2
    rw [Nat.add_sub_cancel' hji] at this
    omega

/-- Every width of a window covers its value (R68 item 1). -/
theorem widthAt_le_profile (B : List Word) (p : Nat) (final : Bool) {i : Nat} (hi : i < B.length) :
    widthAt B i ≤ (profile B p final).getD i 0 := by
  have := ((profile_le_iff B p final i _ hi).1 le_rfl).2 i hi
  omega

/-- The carried width is at most one above the first width (R68 item 3). -/
theorem carried_le_profile_succ {B : List Word} (hB : B ≠ []) (p : Nat) (final : Bool) :
    p ≤ (profile B p final).getD 0 0 + 1 :=
  ((profile_le_iff B p final 0 _ (List.length_pos_of_ne_nil hB)).1 le_rfl).1

/-- A profile is at most any sequence that covers the values, steps by one and starts at most one below the carried width
(R68 item 5). -/
theorem profile_le_of_smooth (B : List Word) (p : Nat) (final : Bool) {U : Nat → Nat}
    (hcover : ∀ i, i < B.length → widthAt B i ≤ U i)
    (hstep : ∀ i, i + 1 < B.length → U (i + 1) ≤ U i + 1 ∧ U i ≤ U (i + 1) + 1) (hp : p ≤ U 0 + 1)
    {i : Nat} (hi : i < B.length) : (profile B p final).getD i 0 ≤ U i := by
  rw [profile_le_iff B p final i _ hi]
  constructor
  · have : U 0 ≤ U i + ((i - 0) + (0 - i)) := le_add_dist_of_steps hstep hi (by omega)
    omega
  · exact fun j hj => (hcover j hj).trans (le_add_dist_of_steps hstep hi hj)

/-- A window's width is the width in the window taken as a stream, or what the carried width has fallen to (R69). -/
theorem profile_eq_max (B : List Word) (p : Nat) (final : Bool) {i : Nat} (hi : i < B.length) :
    (profile B p final).getD i 0 = max (streamWidth B i) (p - (i + 1)) := by
  refine eq_of_forall_ge_iff fun x => ?_
  rw [profile_le_iff B p final i x hi, max_le_iff, streamWidth_le_iff B i x hi, Nat.sub_le_iff_le_add, and_comm]

/-- The closed form that `streamWidth` has at a sample of the stream (R69). -/
theorem streamWidth_eq_foldr (vs : List Word) {i : Nat} (hi : i < vs.length) :
    streamWidth vs i = ((List.range vs.length).map fun j => widthAt vs j - ((i - j) + (j - i))).foldr max 0 := by
  rw [streamWidth, Nat.min_eq_left (Nat.le_sub_one_of_lt hi)]

/-! ## Windows and whole streams (R70, R72) -/

/-- The final flush's window has the stream's widths, the sentinel included (R65, R70). -/
theorem profile_final_window (vs : List Word) {g i : Nat} (hg : g < vs.length) (hi : i ≤ vs.length - g) :
    (profile (vs.drop g) (carriedWidth vs g) true).getD i 0 = streamWidth vs (g + i) := by
  have hlen : (vs.drop g).length = vs.length - g := List.length_drop
  have inside (k : Nat) (hk : k < vs.length - g) :
      (profile (vs.drop g) (carriedWidth vs g) true).getD k 0 = streamWidth vs (g + k) := by
    have := profile_window vs g (vs.length - g) k true (by omega) hk (.inl (by omega))
    rwa [List.take_of_length_le hlen.le] at this
  rcases Nat.lt_or_eq_of_le hi with hi | rfl
  · exact inside i hi
  · have hsentinel := profile_sentinel (vs.drop g) (carriedWidth vs g) (by omega)
    rw [hlen] at hsentinel
    rw [hsentinel, inside _ (by omega), streamWidth_sentinel vs (g + (vs.length - g)) (by omega)]
    congr 1
    omega

/-- A stream's width covers its sample (R68 item 1, R70). -/
theorem widthAt_le_streamWidth (vs : List Word) {i : Nat} (hi : i < vs.length) : widthAt vs i ≤ streamWidth vs i := by
  have := (streamWidth_le_iff vs i _ hi).1 le_rfl i hi
  omega

end Sys2Proof.Machine

namespace Sys2Proof
open Machine

/-- Settles O28, by what a bound on `bitwidth` says of the value. -/
theorem bitwidthIsTheLeastWidth : Obligations.BitwidthIsTheLeastWidth :=
  ⟨bitwidth_zero, fun v =>
    ⟨bitwidth_word_le v, fun _ => ⟨lt_pow_bitwidth v.toNat, fun c => (bitwidth_le_iff v.toNat c).2⟩⟩⟩

/-- Settles O29, property by property; the minimality rests on smooth sequences varying by no more than the distance. -/
theorem profileIsTheSmallestSmoothOne : Obligations.ProfileIsTheSmallestSmoothOne := by
  intro B p final hB
  exact ⟨profile_length B p final, fun i => widthAt_le_profile B p final, fun i => profile_step B p final i,
    carried_le_profile_succ hB p final, fun hp i _ => profile_le B p final hp i,
    fun U hcover hstep hp i hi => profile_le_of_smooth B p final hcover hstep hp hi⟩

/-- Settles O30: apart from the carried width, a window's widths are those of the window taken as a stream. -/
theorem profileHasItsClosedForm : Obligations.ProfileHasItsClosedForm := by
  intro B p final i hi
  rw [profile_eq_max B p final hi, streamWidth_eq_foldr B hi]

/-- Settles O31, for the two kinds of window: no later sample reaches the first 33 widths of 64, and none comes after the
final window. -/
theorem windowsCommitTheStreamsWidths : Obligations.WindowsCommitTheStreamsWidths := by
  intro vs g hg
  refine ⟨fun h64 i hi => ?_, fun i hi => profile_final_window vs hg hi⟩
  exact profile_window vs g 64 i false h64 (by omega) (.inr (by omega))

/-- Settles O32: the value reaches `2^(SP[i]-1)` because neither neighbour is wider, and `SP[i]` covers it. -/
theorem elidedTopBitIsOne : Obligations.ElidedTopBitIsOne := by
  intro vs i hi h0 hl hr
  have hl' : i = 0 ∨ streamWidth vs (i - 1) ≤ streamWidth vs i := by
    by_cases hz : i = 0
    · exact .inl hz
    · rw [if_neg hz] at hl
      exact .inr hl
  have hreach := elided_top_bit vs i hi h0 hl' hr
  have hcovered := (bitwidth_le_iff _ _).1 (widthAt_le_streamWidth vs hi)
  rw [← Nat.sub_add_cancel h0] at hcovered
  exact ⟨(bitwidth_eq hreach hcovered).trans (Nat.sub_add_cancel h0),
    Nat.testBit_of_two_pow_le_and_two_pow_add_one_gt hreach hcovered⟩

/-- Settles O18, by what ENC_WRITE's operation does at the 64th value, where its bits fit. -/
theorem encWriteFlushesAtSixtyFour : Obligations.EncWriteFlushesAtSixtyFour := by
  intro s v hf hfl hb hm B W bits hz hfit
  obtain ⟨e, he⟩ := writeValue_fits (v := v) hm hb hz hfit
  rcases writeValue_ok hm he with ⟨hne, -⟩ | ⟨-, hbits, -, hbuf, hstarted, hflushed, hlen, hmrw, hnz, -⟩
  · exact absurd hb hne
  · exact ⟨_, exec_encWrite_ok hf hfl he, rfl, hbuf, hmrw, hstarted, hflushed.trans hfl, hnz, hbits, hlen⟩

/-- Settles O19, by what ENC_FLUSH's operation does where its bits fit. -/
theorem encFlushFinishesTheStream : Obligations.EncFlushFinishesTheStream := by
  intro s hf hfl hb hm B W run bits hz hfit
  obtain ⟨e, he⟩ := flushStream_fits hm hz hfit
  obtain ⟨hbits, -, -, hbuf, hstarted, hflushed, hlen, hmrw, hnz, -⟩ := flushStream_ok hm hb he
  exact ⟨_, exec_encFlush_ok hf hfl hb he, rfl, hbuf, hmrw, hstarted, hflushed, hnz, hbits, hlen⟩

end Sys2Proof

/-! PROOFS. The precondition faults, and the encoder commands that write no stream bit (O9, O16, O20). -/

namespace Sys2Proof.Machine

/-! ## The statements' views of an answer (R53, R102) -/

theorem faulted_eq_raiseFault (c : FCause) (s : State) : faulted c s = raiseFault c s := rfl

theorem answered_eq_respondOk (d : Word) (s : State) : answered d s = respondOk d s := rfl

/-- The low word of OUT_LEN does not change when OUT_LEN is reduced first. -/
theorem ofNat_mod_outLen (e : Enc) : BitVec.ofNat 32 (e.outLen % 2 ^ 32) = outLenWord e :=
  BitVec.eq_of_toNat_eq (by simp [outLenWord])

/-! ## The encoder's commands that write no stream bit (R73, R74, R82, R83) -/

theorem exec_encInit {s : State} (hf : s.fault = false) : exec .encInit s = .next (respondOk 0 { s with enc := .fresh }) :=
  whenRunning_running hf _

theorem exec_encWrite_flushed {s : State} (hf : s.fault = false) (hfl : s.enc.flushed = true) (v : Word) :
    exec (.encWrite v) s = .next (raiseFault .encWriteAfterFlush s) :=
  (whenRunning_running hf _).trans (if_pos hfl)

theorem exec_encFlush_flushed {s : State} (hf : s.fault = false) (hfl : s.enc.flushed = true) :
    exec .encFlush s = .next (raiseFault .encDoubleFlush s) :=
  (whenRunning_running hf _).trans (if_pos hfl)

theorem exec_encFlush_empty {s : State} (hf : s.fault = false) (hfl : s.enc.flushed = false) (hb : s.enc.buf = []) :
    exec .encFlush s = .next (raiseFault .encFlushBeforeWrite s) := by
  show whenRunning s _ = _
  rw [whenRunning_running hf, hfl, if_neg Bool.false_ne_true, if_pos (List.length_eq_zero_iff.2 hb)]

theorem exec_encCode_flushed {s : State} (hf : s.fault = false) (hfl : s.enc.flushed = true) :
    exec .encCode s = .next (respondOk (outLenWord s.enc) s) :=
  (whenRunning_running hf _).trans (if_pos hfl)

theorem exec_encCode_unflushed {s : State} (hf : s.fault = false) (hfl : s.enc.flushed = false) :
    exec .encCode s = .next (raiseFault .encCodeBeforeFlush s) := by
  show whenRunning s _ = _
  rw [whenRunning_running hf, hfl, if_neg Bool.false_ne_true]

/-! ## The decoder's commands whose precondition fails (R86, R87, R94) -/

theorem exec_decInit_empty {s : State} (hf : s.fault = false) (b : Word) :
    exec (.decInit b 0) s = .next (raiseFault .decEmptySpan s) :=
  (whenRunning_running hf _).trans (if_pos rfl)

theorem exec_decInit_outOfRange {s : State} (hf : s.fault = false) {b l : Word} (hl : l ≠ 0)
    (hr : s.cfg.inSize < b.toNat + l.toNat) : exec (.decInit b l) s = .next (raiseFault .decSpanRange s) := by
  have hl : l.toNat ≠ 0 := fun h => hl (BitVec.eq_of_toNat_eq h)
  exact (whenRunning_running hf _).trans ((if_neg hl).trans (if_pos hr))

theorem exec_decRead_uninit {s : State} (hf : s.fault = false) (hd : s.dec.dstate = .uninit) :
    exec .decRead s = .next (raiseFault .decNotInit s) :=
  (whenRunning_running hf _).trans (whenReady_uninit hd _)

theorem exec_decNextCode_uninit {s : State} (hf : s.fault = false) (hd : s.dec.dstate = .uninit) :
    exec .decNextCode s = .next (raiseFault .decNotInit s) :=
  (whenRunning_running hf _).trans (whenReady_uninit hd _)

end Sys2Proof.Machine

namespace Sys2Proof
open Machine

/-- Settles O9: each clause is the check of its command that raises the fault. -/
theorem preconditionFaultsArePrecise : Obligations.PreconditionFaultsArePrecise := by
  intro s hf
  simp only [faulted_eq_raiseFault]
  refine ⟨exec_encWrite_flushed hf, exec_encFlush_flushed hf, exec_encFlush_empty hf, exec_encCode_unflushed hf, ?_,
    fun b l => exec_decInit_outOfRange hf, exec_decRead_uninit hf, exec_decNextCode_uninit hf⟩
  rintro b l rfl
  exact exec_decInit_empty hf b

/-- Settles O16: the encoder of a new stream, field by field. -/
theorem encInitStartsAStream : Obligations.EncInitStartsAStream := by
  intro s hf
  exact ⟨_, exec_encInit hf, rfl, rfl, rfl, rfl, rfl, rfl, rfl, Memory.read_nil, rfl⟩

/-- Settles O20, by whether the stream is finished. -/
theorem encCodeAnswersTheLength : Obligations.EncCodeAnswersTheLength := by
  intro s hf
  rw [ofNat_mod_outLen, answered_eq_respondOk, faulted_eq_raiseFault]
  cases hfl : s.enc.flushed with
  | true => exact exec_encCode_flushed hf hfl
  | false => exact exec_encCode_unflushed hf hfl

end Sys2Proof

/-! PROOFS. Truncation: the decoder over a stream without its last byte (O60). -/

namespace Sys2Proof.Machine

/-! ## A stream with its end missing (R96) -/

/-- C stands where S stands, over the first part of S's span. -/
structure Shadows (S C : State) : Prop where
  cut : CutOf S C
  ready : Ready C
  pw : C.dec.pw = S.dec.pw
  cw : C.dec.cw = S.dec.cw
  zc : C.dec.zc = S.dec.zc
  pos : C.dec.pos = S.dec.pos
  inside : S.dec.pos ≤ 8 * C.dec.len.toNat

/-- A DEC_READ that is answered OK has read a sample (R92). -/
theorem readSample_of_decRead_ok {s t : State} {v : Word} (h : Ready s) (hx : exec .decRead s = .next t)
    (hr : t.resp = some ⟨.ok, v, 0⟩) :
    ∃ d n z pos, readSample s = .ok (d, (n, z), pos) ∧ BitVec.ofNat 32 d = v ∧ t = commitSample d n z pos s := by
  rw [exec_decRead_ready h] at hx
  cases hs : readSample s with
  | error r =>
    rw [hs] at hx
    obtain ⟨c, -, rfl⟩ := stopDecoder_next hx
    cases hr
  | ok q =>
    obtain ⟨d, ⟨n, z⟩, pos⟩ := q
    rw [hs] at hx
    cases hx
    exact ⟨d, n, z, pos, rfl, by simpa using hr, rfl⟩

/-- Where a sample over the whole span ends inside the first part, both cursors move past it. -/
theorem Shadows.commit {S C : State} (h : Shadows S C) {pos : Nat} (hp : pos ≤ 8 * C.dec.len.toNat) (d n : Nat) (z : Int) :
    Shadows (commitSample d n z pos S) (commitSample d n z pos C) := by
  obtain ⟨⟨hbits, hinS, hinC, hle⟩, ⟨hf, hd, -, hspan⟩, -, hcw, -, -, -⟩ := h
  exact ⟨⟨hbits, hinS, hinC, hle⟩, ⟨hf, hd, rfl, hspan⟩, hcw, rfl, rfl, rfl, hp⟩

/-- A DEC_READ over the first part of a span gives the sample that it gives over the whole span, or fails DEC_TRUNCATED (R96). -/
theorem Shadows.read {S C S' : State} {v : Word} (h : Shadows S C) (hS : Ready S) (hx : exec .decRead S = .next S')
    (hr : S'.resp = some ⟨.ok, v, 0⟩) :
    (∃ C', exec .decRead C = .next C' ∧ C'.resp = some ⟨.ok, v, 0⟩ ∧ Shadows S' C' ∧ C'.dec.len = C.dec.len) ∨
      ∃ w, exec .decRead C = .next w ∧ FailedWith .truncated C w := by
  obtain ⟨d, n, z, pos, hread, rfl, rfl⟩ := readSample_of_decRead_ok hS hx hr
  obtain ⟨inside, outside⟩ := readSample_cut h.cut h.pw h.cw h.zc h.pos h.inside hread
  by_cases hp : pos ≤ 8 * C.dec.len.toNat
  · exact .inl ⟨_, exec_decRead_ok h.ready (inside hp), rfl, h.commit hp d n z, rfl⟩
  · exact .inr (exec_decRead_failedWith h.ready (outside (Nat.not_le.1 hp)))

/-- Where samples are left that end past the first part of the span, some of the DEC_READs over it give the samples in order, and
the next one fails DEC_TRUNCATED (R96). -/
theorem Shadows.reads {p : Nat} {run : Bool} {vs : List Word} {W : List Nat} {pad : List Bool} {S C : State}
    (g : WidthsOk p vs W) (hN : vs.length < 2 ^ 32) (hS : InStep p run vs W pad S) (h : Shadows S C)
    (hcut : 8 * C.dec.len.toNat + pad.length < 8 * S.dec.len.toNat) :
    ∃ k t w, k < vs.length ∧
      runInstrs (List.replicate k .decRead) C = some ((vs.take k).map fun v => ⟨.ok, v, 0⟩, t) ∧
      exec .decRead t = .next w ∧ FailedWith .truncated t w := by
  induction vs generalizing p run W S C with
  | nil =>
    have hend := hS.pos_end
    have hin := h.inside
    omega
  | cons v vs ih =>
    match W, g with
    | c :: n :: W, g =>
      obtain ⟨S', hx, hr, hS', -, hlS⟩ := hS.read g hN
      rcases h.read hS.ready hx hr with ⟨C', hxC, hrC, h', hlC⟩ | ⟨w, hw, hfail⟩
      · have g' : WidthsOk c vs (n :: W) := by cases g; assumption
        obtain ⟨k, t, w, hk, hrun, hw, hfail⟩ := ih g' (Nat.lt_of_succ_lt hN) hS' h' (by rwa [hlC, hlS])
        exact ⟨k + 1, t, w, Nat.succ_lt_succ hk, runInstrs_cons hxC hrC hrun, hw, hfail⟩
      · exact ⟨0, C, w, Nat.zero_lt_succ _, rfl, hw, hfail⟩

/-- u with one more address of IN, and the byte x at the address a. -/
def withByteAt (a : Nat) (x : Byte) (u : State) : State :=
  { u with inMem := u.inMem.write a x, cfg := { u.cfg with inSize := u.cfg.inSize + 1 } }

theorem inByte_withByteAt (a a' : Nat) (x : Byte) (u : State) :
    (withByteAt a x u).inByte a' = if a' = a then x else u.inByte a' := inByte_writeIn u a a' x

/-- The header symbol has at most six bits (R56). -/
theorem headerSymbol_bits_length_le (w : Nat) : (headerSymbol w).bits.length ≤ 6 := by
  unfold headerSymbol
  split_ifs
  · simp [Symbol.bits]
  · exact le_rfl
  · exact le_rfl

/-- The span of l bytes is the first part of the span of L bytes, where IN agrees on its bytes. -/
theorem cutOf_openSpan {u U : State} {b l L : Word} (hle : l.toNat ≤ L.toNat) (hu : b.toNat + l.toNat ≤ u.cfg.inSize)
    (hU : b.toNat + L.toNat ≤ U.cfg.inSize)
    (hbyte : ∀ j, j < l.toNat → u.inByte (b.toNat + j) = U.inByte (b.toNat + j)) :
    CutOf (openSpan b L U) (openSpan b l u) where
  bits i hi := congrArg (BitVec.getLsbD · (i % 8)) (hbyte (i / 8) (Nat.div_lt_of_lt_mul hi))
  inS := hU
  inC := hu
  le := hle

/-- DEC_INIT on the first part of a span, where the header lies in it, stands where it does on the whole span (R86, R96). -/
theorem decInit_shadows {u U : State} {b l L : Word} (hf : u.fault = false) (hl : l.toNat ≠ 0)
    (hcut : CutOf (openSpan b L U) (openSpan b l u)) {w pos : Nat} (hread : readHeader (openSpan b L U) = .ok (w, pos))
    (hpos : pos ≤ 8 * l.toNat) :
    exec (.decInit b l) u = .next (startStream w pos (openSpan b l u)) ∧
      Shadows (startStream w pos (openSpan b L U)) (startStream w pos (openSpan b l u)) := by
  obtain ⟨-, hsame, -⟩ := readHeader_cut hcut rfl (Nat.zero_le _) _ _ hread
  obtain ⟨hbits, hinS, hinC, hle⟩ := hcut
  refine ⟨by rw [exec_decInit_span b l hf hl hinC, hsame hpos], ?_⟩
  exact ⟨⟨hbits, hinS, hinC, hle⟩, ⟨hf, rfl, rfl, hinC⟩, rfl, rfl, rfl, rfl, hpos⟩

/-- From b on, IN of u holds the bytes of the stream finished in t, but for its last one. -/
structure HoldsAllButLast (t : State) (b l : Word) (u : State) : Prop where
  len : t.enc.outLen = l.toNat + 1
  lenLt : t.enc.outLen < 2 ^ 32
  span : b.toNat + l.toNat ≤ u.cfg.inSize
  byte : ∀ j, j < l.toNat → u.inByte (b.toNat + j) = t.readOut j

/-- Some state has the last byte as well. -/
theorem HoldsAllButLast.exists_whole {vs : List Word} {t u : State} {b l : Word} (h : HoldsAllButLast t b l u)
    (ht : HoldsStream vs t) :
    ∃ U : State, U.fault = u.fault ∧ b.toNat + t.enc.outLen ≤ U.cfg.inSize ∧
      (∀ j, j < l.toNat → u.inByte (b.toNat + j) = U.inByte (b.toNat + j)) ∧
      ∀ j, j < t.enc.outLen → U.inByte (b.toNat + j) = streamByte t.enc.ebits j := by
  have hlen := h.len
  have hsame (j : Nat) (hj : j < l.toNat) :
      u.inByte (b.toNat + j) = (withByteAt (b.toNat + l.toNat) (streamByte t.enc.ebits l.toNat) u).inByte (b.toNat + j) := by
    rw [inByte_withByteAt, if_neg (by omega)]
  refine ⟨withByteAt (b.toNat + l.toNat) (streamByte t.enc.ebits l.toNat) u, rfl, ?_, hsame, fun j hj => ?_⟩
  · rw [hlen]
    exact Nat.succ_le_succ h.span
  · by_cases hjl : j = l.toNat
    · subst hjl
      rw [inByte_withByteAt, if_pos rfl]
    · rw [← hsame j (by omega), h.byte j (by omega), readOut_streamByte ht.inv ht.flushed hj]

/-- The padding of a finished stream is less than a byte (R41). -/
theorem HoldsStream.padding_lt {vs : List Word} {t : State} (h : HoldsStream vs t) :
    8 * t.enc.outLen - t.enc.ebits.length < 8 := by
  rw [h.outLen]
  unfold ceil8
  omega

/-- A finished stream whose last byte is missing is opened, and its DEC_READs give the first values until one fails
DEC_TRUNCATED (R96). -/
theorem HoldsAllButLast.reads {vs : List Word} {t u : State} {b l : Word} (h : HoldsAllButLast t b l u) (ht : HoldsStream vs t)
    (h0 : vs ≠ []) (hN : vs.length < 2 ^ 32) (hf : u.fault = false) (hl : l.toNat ≠ 0) :
    ∃ k u₀ v w, k < vs.length ∧ exec (.decInit b l) u = .next u₀ ∧
      u₀.resp = some ⟨.ok, BitVec.ofNat 32 (streamWidth vs 0), 0⟩ ∧
      runInstrs (List.replicate k .decRead) u₀ = some ((vs.take k).map fun v => ⟨.ok, v, 0⟩, v) ∧
      exec .decRead v = .next w ∧ FailedWith .truncated v w := by
  have hlen := h.len
  have hL : (BitVec.ofNat 32 t.enc.outLen).toNat = t.enc.outLen := toNat_ofNat_of_lt h.lenLt
  obtain ⟨U, hfU, hspan, hsame, hbyte⟩ := h.exists_whole ht
  obtain ⟨-, hread, hstep⟩ := decInit_inStep vs t U b (BitVec.ofNat 32 t.enc.outLen) h0 (hfU.trans hf) ht.inv ht.flushed
    ht.ebits hL hspan hbyte
  have hcut : CutOf (openSpan b (BitVec.ofNat 32 t.enc.outLen) U) (openSpan b l u) :=
    cutOf_openSpan (by omega) h.span (by rwa [hL]) hsame
  have hheader := headerSymbol_bits_length_le (streamWidth vs 0)
  obtain ⟨hx, hshadows⟩ := decInit_shadows hf hl hcut hread (by omega)
  have hwidths : WidthsOk (streamWidth vs 0) vs (streamWidths vs) := widthsOk_stream vs vs.length 0 _ (Nat.zero_add _) (.inl rfl)
  have hpad := ht.padding_lt
  obtain ⟨k, v, w, hk, hreads, hw, hfail⟩ := hshadows.reads hwidths hN hstep (by
    rw [List.length_replicate]
    simp only [startStream_dec, openSpan_dec, hL]
    omega)
  exact ⟨k, _, v, w, hk, hx, rfl, hreads, hw, hfail⟩

end Sys2Proof.Machine

namespace Sys2Proof
open Machine

/-- Settles O60: the decoder over the stream without its last byte shadows the one over the whole stream, which stays in step
with the samples; as at most seven bits are padding, a sample ends past the shorter span. -/
theorem truncatedStreamsFail : Obligations.TruncatedStreamsFail := by
  intro vs s t u rs b l h0 hN hsf hcap hrun huf hlen hlt hsz hbyte
  obtain ⟨rs', t', hrun', ht⟩ := runInstrs_encStream h0 hN hsf hcap
  obtain ⟨rfl, rfl⟩ : rs = rs' ∧ t = t' := by simpa [hrun] using hrun'
  refine ⟨?_, fun hl => ?_⟩
  · rintro rfl
    exact exec_decInit_empty huf b
  · have hmost : HoldsAllButLast t b l u := ⟨hlen, hlt, hsz, hbyte⟩
    obtain ⟨k, u₀, v, w, hk, hx, hr, hreads, hw, hfail⟩ := hmost.reads ht h0 hN huf fun hc => hl (BitVec.eq_of_toNat_eq hc)
    refine ⟨k, v, w, hk, ?_, hw, hfail⟩
    simpa [Function.comp_def] using runInstrs_cons hx hr hreads

end Sys2Proof

/-! PROOFS. DEC_INIT's header, DEC_READ of one sample, and a FAILED decoder (O34, O35, O36, O39, O40). -/

namespace Sys2Proof.Machine

/-! ## The header at the start of the span (R38, R86) -/

/-- The first bits of a byte of the span are the low bits of the byte (R38). -/
theorem inBits_byte (s : State) (j : Nat) {c : Nat} (hc : c ≤ 8) :
    s.inBits (8 * j) c = fieldBits c (s.inByte (s.dec.base.toNat + j)).toNat := by
  apply List.ext_getElem?
  intro i
  by_cases hi : i < c
  · have hdiv : (8 * j + i) / 8 = j := by omega
    have hmod : (8 * j + i) % 8 = i := by omega
    rw [inBits_getElem? s _ c i hi, fieldBits_getElem? c _ i hi, State.inBit, hdiv, hmod]
    rfl
  · rw [List.getElem?_eq_none (by simpa using hi), List.getElem?_eq_none (by simpa using hi)]

/-- The header of a span that is not empty, from its first byte (R56, R86). -/
theorem readHeader_openSpan {s : State} {b l : Word} (hl : l ≠ 0) (hsz : b.toNat + l.toNat ≤ s.cfg.inSize) :
    readHeader (openSpan b l s) =
      if (s.inByte b.toNat).toNat % 32 = 31 then .ok (31 + ((s.inByte b.toNat).getLsbD 5).toNat, 6)
      else .ok ((s.inByte b.toNat).toNat % 32, 5) := by
  have hs : InSpan (openSpan b l s) := hsz
  have hlen : 1 ≤ (openSpan b l s).dec.len.toNat := Nat.pos_of_ne_zero fun hc => hl (BitVec.eq_of_toNat_eq hc)
  have hfield : srcRead (openSpan b l s) 0 5 = .ok ((s.inByte b.toNat).toNat % 32, 5) := by
    rw [srcRead_ok hs (by omega), inBits_byte (openSpan b l s) 0 (by decide), fieldVal_fieldBits]
    rfl
  have hescape : srcRead (openSpan b l s) 5 1 = .ok (((s.inByte b.toNat).getLsbD 5).toNat, 6) :=
    srcRead_one hs (by omega)
  show (srcRead (openSpan b l s) 0 5 >>= _) = _
  rw [hfield]
  show (if _ = Config.headerEscape then _ else _) = _
  by_cases h31 : (s.inByte b.toNat).toNat % 32 = 31
  · rw [if_pos h31, if_pos h31, hescape]; rfl
  · rw [if_neg h31, if_neg h31]

/-! ## The transition code and the value field (R88, R91) -/

/-- At the cursor pos stands the transition code, of m bits, from the width c to the next width n (R57). -/
def TransCode (s : State) (pos c m n : Nat) : Prop :=
  (s.inBit pos = false ∧ m = 1 ∧ n = c) ∨
    (s.inBit pos = true ∧ s.inBit (pos + 1) = true ∧ m = 2 ∧ n = c + 1 ∧ n ≤ 32) ∨
    (s.inBit pos = true ∧ s.inBit (pos + 1) = false ∧ m = 2 ∧ n + 1 = c)

/-- TransStep takes the transition code at the cursor (R88). -/
theorem TransCode.transStep {s : State} (hs : InSpan s) {pos c m n : Nat} (h : TransCode s pos c m n)
    (hfit : pos + m ≤ 8 * s.dec.len.toNat) : transStep s c pos = .ok (n, pos + m) := by
  rcases h with ⟨h0, rfl, rfl⟩ | ⟨h0, h1, rfl, rfl, h32⟩ | ⟨h0, h1, rfl, rfl⟩
  · rw [transStep_eq hs, bitsFrom_eq_cons (by omega), h0]; rfl
  · rw [transStep_eq hs, bitsFrom_eq_cons (by omega), bitsFrom_eq_cons (by omega), h0, h1]
    exact if_neg (by omega)
  · rw [transStep_eq hs, bitsFrom_eq_cons (by omega), bitsFrom_eq_cons (by omega), h0, h1]; rfl

/-- ValueStep takes the value field at the cursor, with its top bit put back where it is elided (R91). -/
theorem valueStep_fits {s : State} (hs : InSpan s) {p c n pos : Nat} (hc : 1 ≤ c) :
    let elided := p ≤ c ∧ n ≤ c
    let f := if elided then c - 1 else c
    pos + f ≤ 8 * s.dec.len.toNat →
    valueStep s p c n pos = .ok (fieldVal (s.inBits pos f) + (if elided then 2 ^ (c - 1) else 0), pos + f) := by
  intro elided f hfit
  by_cases he : elided
  · have hf : f = c - 1 := if_pos he
    rw [hf] at hfit ⊢
    rw [valueStep, if_pos ⟨hc, he⟩, if_pos he, srcRead_ok hs hfit]
    rfl
  · have hf : f = c := if_neg he
    rw [hf] at hfit ⊢
    rw [valueStep, if_neg fun h => he h.2, if_neg he, srcRead_ok hs hfit, Nat.add_zero]

/-! ## A FAILED decoder (R93) -/

theorem exec_decRead_failed {s : State} (hf : s.fault = false) (hd : s.dec.dstate = .failed) :
    exec .decRead s = .next (failedAgain s) :=
  (whenRunning_running hf _).trans (whenReady_failed hd _)

theorem exec_decNextCode_failed {s : State} (hf : s.fault = false) (hd : s.dec.dstate = .failed) :
    exec .decNextCode s = .next (failedAgain s) :=
  (whenRunning_running hf _).trans (whenReady_failed hd _)

end Sys2Proof.Machine

namespace Sys2Proof
open Machine

/-- Settles O34, by the header that the first byte of the span holds. -/
theorem decInitReadsTheHeader : Obligations.DecInitReadsTheHeader := by
  intro s b l hf
  by_cases hl : l = 0
  · subst hl
    rw [if_pos rfl]
    exact exec_decInit_empty hf b
  rw [if_neg hl]
  by_cases hr : s.cfg.inSize < b.toNat + l.toNat
  · rw [if_pos hr]
    exact exec_decInit_outOfRange hf hl hr
  rw [if_neg hr]
  intro h w
  have hsz := Nat.not_lt.1 hr
  have hread : readHeader (openSpan b l s) = .ok (w, if h = 31 then 6 else 5) := by
    rw [readHeader_openSpan hl hsz]
    by_cases h31 : h = 31
    · simp only [w, if_pos h31]; exact if_pos h31
    · simp only [w, if_neg h31]; exact if_neg h31
  rw [exec_decInit_span b l hf (fun hc => hl (BitVec.eq_of_toNat_eq hc)) hsz, hread]
  rfl

/-- Settles O35: TransStep takes the code and ValueStep the field behind it. -/
theorem decReadTakesTransitionAndValue : Obligations.DecReadTakesTransitionAndValue := by
  intro s n m hr hc _ hcode elided f hfit
  have hs := inSpan_of_ready hr
  have hc0 : s.dec.cw ≠ 0 := by omega
  have htrans := TransCode.transStep hs hcode (by omega)
  have hvalue := valueStep_fits hs (p := s.dec.pw) (n := n) hc hfit
  exact exec_decRead_ok hr (by rw [readSample_trans_value hc0 htrans, hvalue]; rfl)

/-- Settles O39: of the ends of a DEC_READ only a failure leaves the decoder FAILED, and it has one of the three causes. -/
theorem failureKeepsTheWidths : Obligations.FailureKeepsTheWidths := by
  intro s t hf hd hx ht
  rcases execDecRead_cases hx with ⟨hs, -⟩ | ⟨-, hs, -⟩ | ⟨-, hs, -⟩ | ⟨-, -, ⟨c, hc, rfl⟩ | ⟨v, n, z, pos, -, rfl⟩⟩
  · exact absurd (hs.symm.trans hf) (by decide)
  · exact absurd (hs.symm.trans hd) (by decide)
  · exact absurd (hs.symm.trans hd) (by decide)
  · exact ⟨failedWith c s, by simpa [decoderStop] using hc⟩
  · exact absurd (ht.symm.trans hd) (by decide)

/-- Settles O36: inside a run the sample takes no bits. -/
theorem decReadCountsTheRunDown : Obligations.DecReadCountsTheRunDown :=
  fun _ hr hc hz => exec_decRead_ok hr (readSample_count hc hz)

/-- Settles O40, by DSTATE = FAILED in both commands. -/
theorem failedDecoderRepeatsItsCause : Obligations.FailedDecoderRepeatsItsCause :=
  fun _ hf hd => ⟨exec_decRead_failed hf hd, exec_decNextCode_failed hf hd⟩

end Sys2Proof

/-! PROOFS. The STATUS word as a number, and the STATUS command (O3). -/

namespace Sys2Proof.Machine

/-! ## The STATUS word is the sum of its fields (R99) -/

@[simp] theorem bitOf_toNat (b : Bool) : (bitOf b).toNat = b.toNat := by cases b <;> rfl

/-- A word below 2^k with the field x put above it is the sum of the two, and is itself below any 2^m that leaves x room. -/
theorem toNat_or_placed {w : Word} {v k n m : Nat} (hw : w.toNat = v ∧ v < 2 ^ k) (x : BitVec n) (hm : k + n ≤ m)
    (h32 : m ≤ 32) :
    (w ||| (x.setWidth 32 <<< k)).toNat = v + x.toNat * 2 ^ k ∧ v + x.toNat * 2 ^ k < 2 ^ m := by
  obtain ⟨rfl, hlt⟩ := hw
  have hfit : w.toNat + x.toNat * 2 ^ k < 2 ^ m := calc
    w.toNat + x.toNat * 2 ^ k < (x.toNat + 1) * 2 ^ k := by rw [Nat.succ_mul]; omega
    _ ≤ 2 ^ n * 2 ^ k := Nat.mul_le_mul_right _ x.isLt
    _ = 2 ^ (k + n) := by rw [Nat.mul_comm, Nat.pow_add]
    _ ≤ 2 ^ m := Nat.pow_le_pow_right (by decide) hm
  have hword : 2 ^ m ≤ 2 ^ 32 := Nat.pow_le_pow_right (by decide) h32
  have hx : x.toNat < 2 ^ 32 := x.isLt.trans_le (Nat.pow_le_pow_right (by decide) (by omega))
  have hplaced : (x.setWidth 32 <<< k).toNat = x.toNat <<< k := by
    rw [BitVec.toNat_shiftLeft, BitVec.toNat_setWidth, Nat.mod_eq_of_lt hx, Nat.shiftLeft_eq, Nat.mod_eq_of_lt (by omega)]
  refine ⟨?_, hfit⟩
  rw [BitVec.toNat_or, hplaced, Nat.or_comm, ← Nat.shiftLeft_add_eq_or_of_lt hlt, Nat.shiftLeft_eq, Nat.add_comm]

/-- The STATUS word as a number, in every state: each field is put above those before it. -/
theorem statusWord_toNat (s : State) :
    (statusWord s).toNat =
      s.fault.toNat + s.fcause.code.toNat * 2 ^ 4 + s.enc.started.toNat * 2 ^ 8 + s.enc.flushed.toNat * 2 ^ 9 +
        s.dec.dstate.code.toNat * 2 ^ 10 + s.dec.dcause.code.toNat * 2 ^ 12 + s.enc.buf.length % 2 ^ 7 * 2 ^ 16 := by
  have fault : ((bitOf s.fault).setWidth 32).toNat = s.fault.toNat ∧ s.fault.toNat < 2 ^ 4 := by
    cases s.fault <;> decide
  have fcause := toNat_or_placed fault s.fcause.code (m := 8) (by decide) (by decide)
  have started := toNat_or_placed fcause (bitOf s.enc.started) (m := 9) (by decide) (by decide)
  have flushed := toNat_or_placed started (bitOf s.enc.flushed) (m := 10) (by decide) (by decide)
  have dstate := toNat_or_placed flushed s.dec.dstate.code (m := 12) (by decide) (by decide)
  have dcause := toNat_or_placed dstate s.dec.dcause.code (m := 16) (by decide) (by decide)
  have bufcnt := toNat_or_placed dcause (BitVec.ofNat 7 s.enc.buf.length) (m := 23) (by decide) (by decide)
  rw [statusWord, bufcnt.1, bitOf_toNat, bitOf_toNat, BitVec.toNat_ofNat]

theorem exec_status (s : State) : exec .status s = .next (answered (statusWord s) s) := rfl

end Sys2Proof.Machine

namespace Sys2Proof
open Machine

/-- Settles O3: the word is the sum of its fields, and BUFCNT is |BUF| while that fits 7 bits. -/
theorem statusAnswersAndChangesNothing : Obligations.StatusAnswersAndChangesNothing := by
  intro s
  refine ⟨statusWord s, exec_status s, fun hbuf => ?_⟩
  rw [statusWord_toNat, Nat.mod_eq_of_lt (by omega)]

end Sys2Proof

/-! PROOFS. The halted block, and the faults in the middle of an encoder command (O4, O10). -/

namespace Sys2Proof.Machine

/-! ## An illegal word while FAULT = 1 (R104) -/

/-- A word that decodes to no instruction is answered as an illegal command (R52, R98). -/
theorem runCommand_illegal {cmd d0 d1 : Word} (h : ∀ i, decodeCommand cmd d0 d1 ≠ .ok i) (s : State) :
    runCommand cmd d0 d1 s = illegalCommand s := by
  cases hd : decodeCommand cmd d0 d1 with
  | ok i => exact absurd hd (h i)
  | error r => simp only [runCommand, hd]

/-! ## An encoder command whose work ends with a cause (R102) -/

theorem exec_encWrite_midFault {s : State} {v : Word} {c : FCause} (hf : s.fault = false) (hfl : s.enc.flushed = false)
    (h : writeValue s.cfg.outCap v s.enc = .error c) : exec (.encWrite v) s = .next (raiseMidFault c s) := by
  show whenRunning s _ = _
  rw [whenRunning_running hf, hfl, if_neg Bool.false_ne_true, h, encResult_error]

theorem exec_encFlush_midFault {s : State} {c : FCause} (hf : s.fault = false) (hfl : s.enc.flushed = false)
    (hb : s.enc.buf ≠ []) (h : flushStream s.cfg.outCap s.enc = .error c) :
    exec .encFlush s = .next (raiseMidFault c s) := by
  show whenRunning s _ = _
  rw [whenRunning_running hf, hfl, if_neg Bool.false_ne_true, if_neg (mt List.length_eq_zero_iff.1 hb), h, encResult_error]

end Sys2Proof.Machine

namespace Sys2Proof
open Machine

/-- Settles O4: instructions and illegal words meet the halt, and a step keeps FAULT unless the host asks for a reset. -/
theorem haltedBlockDoesNothing : Obligations.HaltedBlockDoesNothing := by
  intro s hf
  refine ⟨fun i hi => exec_halted hf hi, fun cmd d0 d1 h => ?_, fun t hstep => ⟨fun ht => ?_, ?_⟩⟩
  · rw [runCommand_illegal h]
    exact whenRunning_halted hf _
  · by_contra hreset
    obtain ⟨hkept, -⟩ := faultStaysUntilReset s t hstep hf fun rest hh => hreset ⟨rest, hh⟩
    exact absurd (ht.symm.trans hkept) (by decide)
  · rintro ⟨rest, hh⟩
    rw [step, hh] at hstep
    cases hstep
    rfl

/-- Settles O10: either command answers with the mid-operation fault, and the operations raise only the two causes. -/
theorem midOperationFaultsHalt : Obligations.MidOperationFaultsHalt := by
  intro s c i hf hfl hwork
  obtain ⟨hcause, hexec⟩ : midCause c ∧ exec i s = .next (raiseMidFault c s) := by
    rcases hwork with ⟨v, rfl, hw⟩ | ⟨rfl, hb, hw⟩
    · exact ⟨writeValue_midCause hw, exec_encWrite_midFault hf hfl hw⟩
    · exact ⟨flushStream_midCause hw, exec_encFlush_midFault hf hfl hb hw⟩
  exact ⟨hcause, _, hexec, rfl, rfl, rfl, rfl, rfl, rfl, rfl, rfl⟩

end Sys2Proof

/-! PROOFS. The reset values, and how much one ENC_WRITE or ENC_FLUSH writes (O1, O22). -/

namespace Sys2Proof.Machine

/-! ## The reset values (R115) -/

/-- The block stands as reset leaves it: no fault, a new stream's encoder (R116) and a decoder without a span. -/
structure AtReset (t : State) : Prop where
  fault : t.fault = false
  fcause : t.fcause = .none
  enc : t.enc = .fresh
  dec : t.dec = .reset

theorem atReset_resetWith (p : Config.Params) : AtReset (State.resetWith p) := ⟨rfl, rfl, rfl, rfl⟩

theorem atReset_hardwareReset (s : State) : AtReset (hardwareReset s) :=
  ⟨hardwareReset_fault s, hardwareReset_fcause s, hardwareReset_enc s, hardwareReset_dec s⟩

/-- Before the stream is finished no byte of OUT is specified (R36). -/
theorem finishedByte_unflushed {s : State} (h : s.enc.flushed = false) (a : Nat) : s.finishedByte a = none := by
  rw [State.finishedByte, h, if_neg (fun hc => Bool.false_ne_true hc.1)]

theorem AtReset.statusWord_eq_zero {t : State} (h : AtReset t) : statusWord t = 0 := by
  apply BitVec.eq_of_toNat_eq
  rw [statusWord_toNat, h.fault, h.fcause, h.enc, h.dec]
  rfl

/-! ## How many bits a symbol has (R56 to R59) -/

theorem symbolBits_append (σs τs : List Symbol) : symbolBits (σs ++ τs) = symbolBits σs ++ symbolBits τs :=
  List.flatMap_append

theorem symbolBits_cons (σ : Symbol) (σs : List Symbol) : symbolBits (σ :: σs) = σ.bits ++ symbolBits σs :=
  List.flatMap_cons

theorem transSymbol_bits_length_le (c n : Nat) : (transSymbol c n).bits.length ≤ 2 := by
  rw [transSymbol_bits]
  split_ifs <;> decide

theorem valueSymbol_bits_length_le (p c n v : Nat) : (valueSymbol p c n v).bits.length ≤ c := by
  rw [valueSymbol_bits]
  split_ifs <;> simp

theorem headerBits_length_le (w : Nat) (e : Enc) : (headerBits w e).length ≤ 6 := by
  unfold headerBits
  split_ifs
  · exact Nat.zero_le 6
  · exact headerSymbol_bits_length_le w

/-- A zero-run code is k zeros, a one and k suffix bits (R58). -/
theorem zeroRunSymbol_bits_length (k x : Nat) : (Symbol.bits (.zr k x)).length = 2 * k + 1 := by
  rw [Symbol.bits, List.length_append, List.length_replicate, List.length_cons, fieldBits_length]
  omega

/-- A run of n samples has a code with `k + 1 = bitwidth n`, and no code for n = 0 (R58). -/
theorem runSymbols_bits_length (n : Nat) : (symbolBits (runSymbols n)).length = 2 * bitwidth n - 1 := by
  by_cases hn : n = 0
  · subst hn; rfl
  · have hpos := bitwidth_pos hn
    have hnil : symbolBits [] = [] := rfl
    rw [runSymbols, if_neg hn, symbolBits_cons, hnil, List.append_nil, zeroRunSymbol_bits_length]
    omega

/-- One more sample in a run makes its code at most two bits longer. -/
theorem runSymbols_succ_bits_length_le (n : Nat) :
    (symbolBits (runSymbols (n + 1))).length ≤ (symbolBits (runSymbols n)).length + 2 := by
  have hwidth : bitwidth (n + 1) ≤ bitwidth n + 1 := by
    rw [bitwidth_le_iff, Nat.pow_succ]
    have := lt_pow_bitwidth n
    omega
  rw [runSymbols_bits_length, runSymbols_bits_length]
  omega

/-- The run counter's code has at most 63 bits (R127). -/
theorem runSymbols_word_bits_length_le (nz : Word) : (symbolBits (runSymbols nz.toNat)).length ≤ 63 := by
  have := bitwidth_word_le nz
  rw [runSymbols_bits_length]
  omega

/-! ## How many bits the samples of a window have (R127) -/

/-- Beyond the code of the run open before it, a sample adds at most 34 bits: one of width 0 lengthens the open run's code, and
another one writes the run's code, a transition code and a value field. -/
theorem sampleSymbols_bits_length_le (vs : List Word) {W : List Nat} (hW : ∀ i, W.getD i 0 ≤ 32) (p nz : Nat) :
    (symbolBits (sampleSymbols p nz vs W).1).length + (symbolBits (runSymbols (sampleSymbols p nz vs W).2)).length ≤
      (symbolBits (runSymbols nz)).length + 34 * vs.length := by
  induction vs generalizing p nz W with
  | nil => rw [sampleSymbols_nil]; simp [symbolBits]
  | cons v vs ih =>
    match W, hW with
    | [], _ => simp [sampleSymbols, symbolBits]
    | [_], _ => simp [sampleSymbols, symbolBits]
    | c :: n :: W, hW =>
      have ih' := ih (W := n :: W) (fun i => by simpa using hW (i + 1))
      rw [List.length_cons]
      by_cases hc : c = 0
      · subst hc
        rw [sampleSymbols_zero]
        have hrest := ih' 0 (nz + 1)
        have hrun := runSymbols_succ_bits_length_le nz
        omega
      · rw [sampleSymbols_pos _ _ _ _ _ _ hc]
        have hrest := ih' c 0
        have hnone : (symbolBits (runSymbols 0)).length = 0 := rfl
        have htrans := transSymbol_bits_length_le c n
        have hvalue := (valueSymbol_bits_length_le p c n v.toNat).trans (hW 0)
        simp only [symbolBits_append, symbolBits_cons, List.length_append]
        omega

/-- A flush with widths of at most 32 and the run that it leaves open have at most 6 header bits, the 63 bits of the run open
before, and 34 bits a sample. -/
theorem flushBits_length_le (e : Enc) (B : List Word) {W : List Nat} (hW : ∀ i, W.getD i 0 ≤ 32) :
    (flushBits e B W).length + (symbolBits (runSymbols (sampleSymbols e.mrw e.nz.toNat B W).2)).length ≤
      6 + 63 + 34 * B.length := by
  have hheader := headerBits_length_le (W.headD 0) e
  have hrun := runSymbols_word_bits_length_le e.nz
  have hsamples := sampleSymbols_bits_length_le B hW e.mrw e.nz.toNat
  have hlen : (flushBits e B W).length =
      (headerBits (W.headD 0) e).length + (symbolBits (sampleSymbols e.mrw e.nz.toNat B W).1).length :=
    List.length_append
  omega

/-! ## How many bits the two operations write (R74, R82, R127) -/

theorem writeValue_length_le {cap : Option Nat} {v : Word} {e e' : Enc} (hm : e.mrw ≤ 32) (h : writeValue cap v e = .ok e') :
    e'.ebits.length ≤ e.ebits.length + (6 + 63 + 34 * 32) := by
  rcases writeValue_ok hm h with ⟨-, rfl⟩ | ⟨-, hbits, -⟩
  · exact Nat.le_add_right _ _
  · have hflush := flushBits_length_le e ((e.buf ++ [v]).take 32) (profile_le (e.buf ++ [v]) e.mrw false hm)
    have htake := List.length_take_le 32 (e.buf ++ [v])
    rw [hbits, List.length_append]
    omega

theorem flushStream_length_le {cap : Option Nat} {e e' : Enc} (hm : e.mrw ≤ 32) (hb : e.buf ≠ [])
    (h : flushStream cap e = .ok e') : e'.ebits.length ≤ e.ebits.length + (6 + 63 + 34 * e.buf.length) := by
  obtain ⟨hbits, -⟩ := flushStream_ok hm hb h
  have hflush := flushBits_length_le e e.buf (profile_le e.buf e.mrw true hm)
  rw [hbits, List.length_append, List.length_append]
  omega

end Sys2Proof.Machine

namespace Sys2Proof
open Machine

/-- Settles O1: the reset state and the state after a hardware reset have the same two units and no fault. -/
theorem resetGivesTheResetValues : Obligations.ResetGivesTheResetValues := by
  unfold Obligations.ResetGivesTheResetValues
  intro good
  have values {t : State} (h : AtReset t) : good t := by
    refine ⟨h.fault, h.fcause, ?_, ?_, ?_, ?_, ?_, ?_, ?_, finishedByte_unflushed (by rw [h.enc]; rfl), ?_, ?_, h.statusWord_eq_zero⟩
    case refine_8 | refine_9 => rw [h.dec]; rfl
    all_goals rw [h.enc]; rfl
  refine ⟨fun p => values (atReset_resetWith p), fun s rest hs => ⟨hardwareReset { s with host := rest }, ?_, ?_, ?_⟩⟩
  · rw [step, hs]
  · exact values (atReset_hardwareReset _)
  · exact hardwareReset_inMem _

/-- Settles O22: a fault taken is excluded, and where the operations succeed a flush writes the header, the code of the run that
was open, and at most 34 bits a sample. -/
theorem encoderWorkIsBounded : Obligations.EncoderWorkIsBounded := by
  intro s t hf hm hbuf ht
  have running {P : Prop} (hs : s.fault = true) : P := absurd (hs.symm.trans hf) (by decide)
  refine ⟨fun v h => ?_, fun h => ?_⟩
  · rcases execEncWrite_cases h with ⟨hs, -⟩ | ⟨-, -, rfl⟩ | ⟨-, -, c, -, rfl⟩ | ⟨-, -, e, he, rfl⟩
    · exact running hs
    · cases ht
    · cases ht
    · exact (writeValue_length_le hm he).trans (by omega)
  · rcases execEncFlush_cases h with ⟨hs, -⟩ | ⟨-, -, rfl⟩ | ⟨-, -, -, rfl⟩ | ⟨-, -, -, c, -, rfl⟩ | ⟨-, -, hb, e, he, rfl⟩
    · exact running hs
    · cases ht
    · cases ht
    · cases ht
    · exact (flushStream_length_le hm hb he).trans (by omega)

end Sys2Proof
